-- ==== Sys2Proof/Config.lean ====
section
/-! DEFINITION. What an implementation of the block fixes: the named parameters of 00_scope.md R5 to R9.
The spec leaves their values OPEN; `Config.params` holds constants without a body, inside the constraints of
R5 to R7, so that nothing can be proved about the numbers. A state carries its parameters (log 1). -/

namespace Sys2Proof

/-- The parameters of R5 to R8. -/
structure Params where
  /-- `PKT_MAX`: payload bytes one received packet may hold (R5). -/
  pktMax : Nat
  /-- `RX_CAP`: slots of the receive FIFO (R6). -/
  rxCap : Nat
  /-- `TX_CAP`: slots of the transmit FIFO (R6). -/
  txCap : Nat
  /-- `TX_NEAR_FULL`: the occupancy that forces a flush (R7). -/
  txNearFull : Nat
  /-- `FLUSH_KEEPS_REQ`: the flush request survives an incomplete flush (R8). -/
  flushKeepsReq : Bool
deriving DecidableEq, Repr

/-- The constraints of R5, R6 and R7. -/
def Params.valid (p : Params) : Bool :=
  decide (1 ≤ p.pktMax ∧ 2 ≤ p.rxCap ∧ 2 ≤ p.txCap ∧ 1 ≤ p.txNearFull ∧ p.txNearFull ≤ p.txCap - 1)

/-- `PKT_MAX - 1`, any number (R5; log 1). -/
opaque Config.pktMaxLessOne : Nat
/-- `RX_CAP - 2`, any number (R6; log 1). -/
opaque Config.rxCapLessTwo : Nat
/-- `TX_CAP - 2`, any number (R6; log 1). -/
opaque Config.txCapLessTwo : Nat
/-- A number that chooses `TX_NEAR_FULL` in its range (R7; log 1). -/
opaque Config.nearFullChoice : Nat
/-- `FLUSH_KEEPS_REQ` (R8; log 1). -/
opaque Config.flushKeepsReq : Bool

/-- The parameters of the machine `State.reset` starts: every choice the constraints of R5 to R8 admit is some
value of the constants above. -/
def Config.params : Params where
  pktMax := Config.pktMaxLessOne + 1
  rxCap := Config.rxCapLessTwo + 2
  txCap := Config.txCapLessTwo + 2
  txNearFull := Config.nearFullChoice % (Config.txCapLessTwo + 1) + 1
  flushKeepsReq := Config.flushKeepsReq

/-- `HEX_ACCEPT_UPPER`: `A` to `F` are checksum digits on receive. The spec fixes it true (R95, D8; log 21). -/
def Config.hexAcceptUpper : Bool := true

end Sys2Proof
end

