-- ==== Sys2Proof/Word.lean ====
section
/-! DEFINITION. The widths of the block (00_scope.md R9): a byte is 8 bits, the checksum is 8 bits. -/

namespace Sys2Proof

/-- A byte of the wire, of a store or of the running checksum: 8 bits (R9). -/
abbrev Byte := BitVec 8

/-- The key of a receive step: the state code in bits 10 to 8, the received byte in bits 7 to 0 (R101). -/
abbrev Key := BitVec 11

end Sys2Proof
end

