-- ==== Sys2Proof/Syntax.lean ====
section
/-! DEFINITION. The operations of the block: one constructor per row of spec/opcode_table.json (30_encoding.md
R102 and R103). A receive row carries the received byte where the row does not fix it; a named operation carries
its operands. -/

namespace Sys2Proof

/-- The six values of `rx_state` (10_state.md R21). Codes 6 and 7 name no state and have no constructor (R101). -/
inductive RxState where
  | idle | char | esc | csum1 | csum2 | ackWait
deriving DecidableEq, Repr

/-- The two FIFO instances (42_fifo.md). -/
inductive Queue where
  | rxq | txq
deriving DecidableEq, Repr

/-- The rows of spec/opcode_table.json. -/
inductive Instr where
  -- format RXB: the receive steps, in table order (R121 to R137)
  | rxIdleStart
  | rxIdleHalt
  | rxIdleIgnore (b : Byte)
  | rxCharRestart
  | rxCharEnd
  | rxCharEscape
  | rxCharData (b : Byte)
  | rxCharOverflow (b : Byte)
  | rxEscData (b : Byte)
  | rxEscOverflow (b : Byte)
  | rxCsum1Capture (b : Byte)
  | rxCsum2Good (b : Byte)
  | rxCsum2Bad (b : Byte)
  | rxAckwAck
  | rxAckwNack
  | rxAckwStart
  | rxAckwIgnore (b : Byte)
  -- format OP: the named operations
  /-- `TX.SEND_PACKET(payload, length)`; `length` is the length of the list (R160; log 33). -/
  | txSendPacket (payload : List Byte)
  | txSendByte (b : Byte)
  /-- `TX.SEND_FMT(format, args)`: the operand bytes have no stated structure (R162). -/
  | txSendFmt (operands : List Byte)
  | txSendConsole (string : List Byte)
  | fifoPush (q : Queue) (b : Byte)
  | fifoPop (q : Queue)
  | fifoReset (q : Queue)
  | xportWrite (bytes : List Byte)
  | xportFlush
  | xportPoll
  | xportService
  | xportDeliver (bytes : List Byte)
  /-- `handle` belongs to the backend (R208). -/
  | sessionInitStream (handle : List Byte)
  /-- `port` belongs to the backend (R209). -/
  | sessionInitNet (port : List Byte)
  | sessionDeinit
  | sessionAccept
  | sessionDisconnect
  | sessionError
  | dispatchOk
  | dispatchFault
deriving DecidableEq, Repr

end Sys2Proof
end

