-- ==== Sys2Proof/WellFormed.lean ====
section
/-! DEFINITION. Which terms of `Instr` are operations of the block: a receive row for "any other byte" does not
carry a byte that an earlier row of its state takes (30_encoding.md R102). Every other term is well-formed. -/

namespace Sys2Proof

/-- The bytes an "any other byte" row of state `IDLE`, `CHAR` or `ACK_WAIT` leaves to earlier rows (R102). -/
def RxState.special : RxState → List Byte
  | .idle => [0x24#8, 0x03#8]
  | .char => [0x24#8, 0x23#8, 0x7D#8]
  | .ackWait => [0x2B#8, 0x2D#8, 0x24#8]
  | .esc | .csum1 | .csum2 => []

/-- The row's byte is one the row can be selected for. -/
def Instr.wf : Instr → Bool
  | .rxIdleIgnore b => !(RxState.special .idle).contains b
  | .rxCharData b => !(RxState.special .char).contains b
  | .rxCharOverflow b => !(RxState.special .char).contains b
  | .rxAckwIgnore b => !(RxState.special .ackWait).contains b
  | .rxIdleStart | .rxIdleHalt | .rxCharRestart | .rxCharEnd | .rxCharEscape => true
  | .rxEscData _ | .rxEscOverflow _ | .rxCsum1Capture _ | .rxCsum2Good _ | .rxCsum2Bad _ => true
  | .rxAckwAck | .rxAckwNack | .rxAckwStart => true
  | .txSendPacket _ | .txSendByte _ | .txSendFmt _ | .txSendConsole _ => true
  | .fifoPush _ _ | .fifoPop _ | .fifoReset _ => true
  | .xportWrite _ | .xportFlush | .xportPoll | .xportService | .xportDeliver _ => true
  | .sessionInitStream _ | .sessionInitNet _ | .sessionDeinit | .sessionAccept => true
  | .sessionDisconnect | .sessionError | .dispatchOk | .dispatchFault => true

end Sys2Proof
end

