-- ==== Sys2Proof/Decode.lean ====
section
/-! DEFINITION. From bytes to operations and back (30_encoding.md R101 to R103, opcode_table.json).

A receive step has the 11-bit key of R101, laid out in two bytes: the received byte first, the state code second.
Six rows also need a condition on the state before the step (R102); the decoder takes it as an argument.
A named operation is a message: its 8-bit selector, then its operand bytes (log 4). -/

namespace Sys2Proof

/-- The two formats of opcode_table.json. -/
inductive Format where
  | rxb | op
deriving DecidableEq, Repr

/-- What the `cond` fields of R102 ask of the state before the step. -/
structure RxCond where
  /-- `rx_size < PKT_MAX`. -/
  room : Bool
  /-- `csum_ok` of R132. -/
  csumOk : Bool
deriving DecidableEq, Repr

/-- Why bytes are no operation. -/
inductive DecodeError where
  /-- A receive key is two bytes. -/
  | badKeyLength
  /-- The second byte of a receive key names no state: codes 6 and 7 (R101), or a bit above bit 10 is set. -/
  | noSuchState (code : Byte)
  /-- A request without a selector. -/
  | emptyRequest
  /-- A selector R103 does not list. -/
  | unknownSelector (selector : Byte)
  /-- The operand bytes are not those of the operation. -/
  | badOperands (selector : Byte)
  /-- The queue operand is neither `rxq` (0) nor `txq` (1) (log 4). -/
  | badQueue (code : Byte)
deriving DecidableEq, Repr

/-- The state code of R101. -/
def RxState.code : RxState → Byte
  | .idle => 0x00#8
  | .char => 0x01#8
  | .esc => 0x02#8
  | .csum1 => 0x03#8
  | .csum2 => 0x04#8
  | .ackWait => 0x05#8

/-- The state a code names (R101). -/
def RxState.ofCode (c : Byte) : Option RxState :=
  if c = 0x00#8 then some .idle
  else if c = 0x01#8 then some .char
  else if c = 0x02#8 then some .esc
  else if c = 0x03#8 then some .csum1
  else if c = 0x04#8 then some .csum2
  else if c = 0x05#8 then some .ackWait
  else none

/-- The row of R102 that a receive step takes: a total function of state, byte and condition. -/
def selectRow (c : RxCond) (st : RxState) (b : Byte) : Instr :=
  match st with
  | .idle =>
    if b = 0x24#8 then .rxIdleStart
    else if b = 0x03#8 then .rxIdleHalt
    else .rxIdleIgnore b
  | .char =>
    if b = 0x24#8 then .rxCharRestart
    else if b = 0x23#8 then .rxCharEnd
    else if b = 0x7D#8 then .rxCharEscape
    else if c.room then .rxCharData b
    else .rxCharOverflow b
  | .esc => if c.room then .rxEscData b else .rxEscOverflow b
  | .csum1 => .rxCsum1Capture b
  | .csum2 => if c.csumOk then .rxCsum2Good b else .rxCsum2Bad b
  | .ackWait =>
    if b = 0x2B#8 then .rxAckwAck
    else if b = 0x2D#8 then .rxAckwNack
    else if b = 0x24#8 then .rxAckwStart
    else .rxAckwIgnore b

/-- Decoding a receive key. -/
def decodeKey (c : RxCond) : List Byte → Except DecodeError Instr
  | [b, code] =>
    match RxState.ofCode code with
    | some st => .ok (selectRow c st b)
    | none => .error (.noSuchState code)
  | _ => .error .badKeyLength

/-- An operation without operands. -/
def noOperands (selector : Byte) (i : Instr) : List Byte → Except DecodeError Instr
  | [] => .ok i
  | _ => .error (.badOperands selector)

/-- An operation whose operand is one byte. -/
def oneByte (selector : Byte) (f : Byte → Instr) : List Byte → Except DecodeError Instr
  | [b] => .ok (f b)
  | _ => .error (.badOperands selector)

/-- The queue operand: 0 for `rxq`, 1 for `txq` (log 4). -/
def Queue.ofCode (c : Byte) : Except DecodeError Queue :=
  if c = 0x00#8 then .ok .rxq else if c = 0x01#8 then .ok .txq else .error (.badQueue c)

/-- The code of a queue operand (log 4). -/
def Queue.code : Queue → Byte
  | .rxq => 0x00#8
  | .txq => 0x01#8

/-- An operation whose operand is a queue. -/
def oneQueue (selector : Byte) (f : Queue → Instr) : List Byte → Except DecodeError Instr
  | [c] =>
    match Queue.ofCode c with
    | .ok q => .ok (f q)
    | .error e => .error e
  | _ => .error (.badOperands selector)

/-- An operation whose operands are a queue and a byte. -/
def queueAndByte (selector : Byte) (f : Queue → Byte → Instr) : List Byte → Except DecodeError Instr
  | [c, b] =>
    match Queue.ofCode c with
    | .ok q => .ok (f q b)
    | .error e => .error e
  | _ => .error (.badOperands selector)

/-- Decoding a request by its selector (R103). -/
def decodeOp : List Byte → Except DecodeError Instr
  | [] => .error .emptyRequest
  | sel :: ops =>
    if sel = 0x01#8 then .ok (.txSendPacket ops)
    else if sel = 0x02#8 then oneByte sel .txSendByte ops
    else if sel = 0x03#8 then .ok (.txSendFmt ops)
    else if sel = 0x04#8 then .ok (.txSendConsole ops)
    else if sel = 0x10#8 then queueAndByte sel .fifoPush ops
    else if sel = 0x11#8 then oneQueue sel .fifoPop ops
    else if sel = 0x12#8 then oneQueue sel .fifoReset ops
    else if sel = 0x20#8 then .ok (.xportWrite ops)
    else if sel = 0x21#8 then noOperands sel .xportFlush ops
    else if sel = 0x22#8 then noOperands sel .xportPoll ops
    else if sel = 0x23#8 then noOperands sel .xportService ops
    else if sel = 0x24#8 then .ok (.xportDeliver ops)
    else if sel = 0x30#8 then .ok (.sessionInitStream ops)
    else if sel = 0x31#8 then .ok (.sessionInitNet ops)
    else if sel = 0x32#8 then noOperands sel .sessionDeinit ops
    else if sel = 0x33#8 then noOperands sel .sessionAccept ops
    else if sel = 0x34#8 then noOperands sel .sessionDisconnect ops
    else if sel = 0x35#8 then noOperands sel .sessionError ops
    else if sel = 0x40#8 then noOperands sel .dispatchOk ops
    else if sel = 0x41#8 then noOperands sel .dispatchFault ops
    else .error (.unknownSelector sel)

/-- Decoding bytes of either format: total, and rejecting by name. -/
def decode (f : Format) (c : RxCond) (bytes : List Byte) : Except DecodeError Instr :=
  match f with
  | .rxb => decodeKey c bytes
  | .op => decodeOp bytes

/-! ### The encoder -/

/-- The state a receive row belongs to, and its byte (R102); none for a named operation. -/
def Instr.rxKey : Instr → Option (RxState × Byte)
  | .rxIdleStart => some (.idle, 0x24#8)
  | .rxIdleHalt => some (.idle, 0x03#8)
  | .rxIdleIgnore b => some (.idle, b)
  | .rxCharRestart => some (.char, 0x24#8)
  | .rxCharEnd => some (.char, 0x23#8)
  | .rxCharEscape => some (.char, 0x7D#8)
  | .rxCharData b => some (.char, b)
  | .rxCharOverflow b => some (.char, b)
  | .rxEscData b => some (.esc, b)
  | .rxEscOverflow b => some (.esc, b)
  | .rxCsum1Capture b => some (.csum1, b)
  | .rxCsum2Good b => some (.csum2, b)
  | .rxCsum2Bad b => some (.csum2, b)
  | .rxAckwAck => some (.ackWait, 0x2B#8)
  | .rxAckwNack => some (.ackWait, 0x2D#8)
  | .rxAckwStart => some (.ackWait, 0x24#8)
  | .rxAckwIgnore b => some (.ackWait, b)
  | .txSendPacket _ | .txSendByte _ | .txSendFmt _ | .txSendConsole _ => none
  | .fifoPush _ _ | .fifoPop _ | .fifoReset _ => none
  | .xportWrite _ | .xportFlush | .xportPoll | .xportService | .xportDeliver _ => none
  | .sessionInitStream _ | .sessionInitNet _ | .sessionDeinit | .sessionAccept => none
  | .sessionDisconnect | .sessionError | .dispatchOk | .dispatchFault => none

/-- The format of an operation's row. -/
def Instr.format (i : Instr) : Format :=
  match i.rxKey with
  | some _ => .rxb
  | none => .op

/-- The bytes of a well-formed operation: the two bytes of its key, or its message. -/
def encode : Instr → List Byte
  | .rxIdleStart => [0x24#8, 0x00#8]
  | .rxIdleHalt => [0x03#8, 0x00#8]
  | .rxIdleIgnore b => [b, 0x00#8]
  | .rxCharRestart => [0x24#8, 0x01#8]
  | .rxCharEnd => [0x23#8, 0x01#8]
  | .rxCharEscape => [0x7D#8, 0x01#8]
  | .rxCharData b => [b, 0x01#8]
  | .rxCharOverflow b => [b, 0x01#8]
  | .rxEscData b => [b, 0x02#8]
  | .rxEscOverflow b => [b, 0x02#8]
  | .rxCsum1Capture b => [b, 0x03#8]
  | .rxCsum2Good b => [b, 0x04#8]
  | .rxCsum2Bad b => [b, 0x04#8]
  | .rxAckwAck => [0x2B#8, 0x05#8]
  | .rxAckwNack => [0x2D#8, 0x05#8]
  | .rxAckwStart => [0x24#8, 0x05#8]
  | .rxAckwIgnore b => [b, 0x05#8]
  | .txSendPacket p => 0x01#8 :: p
  | .txSendByte b => [0x02#8, b]
  | .txSendFmt p => 0x03#8 :: p
  | .txSendConsole p => 0x04#8 :: p
  | .fifoPush q b => [0x10#8, q.code, b]
  | .fifoPop q => [0x11#8, q.code]
  | .fifoReset q => [0x12#8, q.code]
  | .xportWrite p => 0x20#8 :: p
  | .xportFlush => [0x21#8]
  | .xportPoll => [0x22#8]
  | .xportService => [0x23#8]
  | .xportDeliver p => 0x24#8 :: p
  | .sessionInitStream h => 0x30#8 :: h
  | .sessionInitNet p => 0x31#8 :: p
  | .sessionDeinit => [0x32#8]
  | .sessionAccept => [0x33#8]
  | .sessionDisconnect => [0x34#8]
  | .sessionError => [0x35#8]
  | .dispatchOk => [0x40#8]
  | .dispatchFault => [0x41#8]

/-- The row's `cond` field holds (R102); a row without one always admits. -/
def Instr.admits (c : RxCond) : Instr → Bool
  | .rxCharData _ | .rxEscData _ => c.room
  | .rxCharOverflow _ | .rxEscOverflow _ => !c.room
  | .rxCsum2Good _ => c.csumOk
  | .rxCsum2Bad _ => !c.csumOk
  | _ => true

/-! ### The table of R102, matched in order -/

/-- The `cond` field of a table row. -/
inductive RowCond where
  | always | room | full | csumOk | csumBad
deriving DecidableEq, Repr

/-- A condition of the table, of the state before the step. -/
def RowCond.holds : RowCond → RxCond → Bool
  | .always, _ => true
  | .room, c => c.room
  | .full, c => !c.room
  | .csumOk, c => c.csumOk
  | .csumBad, c => !c.csumOk

/-- One row of format RXB: `match`, `mask`, `cond`, and the operation for the byte of the key. -/
structure RxRow where
  /-- the table's `match` -/
  value : Key
  /-- the table's `mask` -/
  mask : Key
  /-- the table's `cond` -/
  cond : RowCond
  /-- the row's operation, given the key's byte -/
  make : Byte → Instr

/-- The rows of states `IDLE` and `CHAR`. -/
def rxTableIdleChar : List RxRow :=
  [ ⟨0x024#11, 0x7FF#11, .always, fun _ => .rxIdleStart⟩,
    ⟨0x003#11, 0x7FF#11, .always, fun _ => .rxIdleHalt⟩,
    ⟨0x000#11, 0x700#11, .always, .rxIdleIgnore⟩,
    ⟨0x124#11, 0x7FF#11, .always, fun _ => .rxCharRestart⟩,
    ⟨0x123#11, 0x7FF#11, .always, fun _ => .rxCharEnd⟩,
    ⟨0x17D#11, 0x7FF#11, .always, fun _ => .rxCharEscape⟩,
    ⟨0x100#11, 0x700#11, .room, .rxCharData⟩,
    ⟨0x100#11, 0x700#11, .full, .rxCharOverflow⟩ ]

/-- The rows of states `ESC`, `CSUM1`, `CSUM2` and `ACK_WAIT`. -/
def rxTableRest : List RxRow :=
  [ ⟨0x200#11, 0x700#11, .room, .rxEscData⟩,
    ⟨0x200#11, 0x700#11, .full, .rxEscOverflow⟩,
    ⟨0x300#11, 0x700#11, .always, .rxCsum1Capture⟩,
    ⟨0x400#11, 0x700#11, .csumOk, .rxCsum2Good⟩,
    ⟨0x400#11, 0x700#11, .csumBad, .rxCsum2Bad⟩,
    ⟨0x52B#11, 0x7FF#11, .always, fun _ => .rxAckwAck⟩,
    ⟨0x52D#11, 0x7FF#11, .always, fun _ => .rxAckwNack⟩,
    ⟨0x524#11, 0x7FF#11, .always, fun _ => .rxAckwStart⟩,
    ⟨0x500#11, 0x700#11, .always, .rxAckwIgnore⟩ ]

/-- The seventeen rows of format RXB, in table order (R102). -/
def rxTable : List RxRow := rxTableIdleChar ++ rxTableRest

/-- A row matches when `(key AND mask) = match` and its condition holds (R102). -/
def RxRow.hits (r : RxRow) (c : RxCond) (k : Key) : Bool :=
  decide (k &&& r.mask = r.value) && r.cond.holds c

/-- The first row that matches (R102). -/
def firstMatch (c : RxCond) (k : Key) : Option Instr :=
  match rxTable.find? (fun r => r.hits c k) with
  | some r => some (r.make (k.setWidth 8))
  | none => none

/-- The key of R101: the state code in bits 10 to 8, the byte in bits 7 to 0. -/
def keyOf (st : RxState) (b : Byte) : Key :=
  (st.code.setWidth 11 <<< 8) ||| b.setWidth 11

/-! ### The words of opcode_table.json -/

/-- The condition the six conditional rows are decoded under when only the bits of a word are given: that of a
receive step right after reset (room in the store, no matching checksum) (log 5). -/
def RxCond.afterReset : RxCond where
  room := true
  csumOk := false

/-- The operand bytes an operation has when they are all zero (log 4): a queue and a byte, a byte, a queue, or
nothing. -/
def zeroOperands (selector : Byte) : List Byte :=
  if selector = 0x02#8 then [0x00#8]
  else if selector = 0x10#8 then [0x00#8, 0x00#8]
  else if selector = 0x11#8 then [0x00#8]
  else if selector = 0x12#8 then [0x00#8]
  else []

/-- The bytes of a table word and their format: a row of at most 8 bits is an `OP` selector, with operands of
zeros; a longer row is a receive key, its byte first. -/
def tableWordBytes (nbits w : Nat) : Format × List Byte :=
  if nbits ≤ 8 then (.op, BitVec.ofNat 8 w :: zeroOperands (BitVec.ofNat 8 w))
  else (.rxb, [BitVec.ofNat 8 w, BitVec.ofNat 8 (w / 256)])

/-- What the decoder reads from a word of opcode_table.json (log 5). -/
def decodeTableWord (nbits w : Nat) : Option Instr :=
  match decode (tableWordBytes nbits w).1 RxCond.afterReset (tableWordBytes nbits w).2 with
  | .ok i => some i
  | .error _ => none

end Sys2Proof
end

