-- ==== Sys2Proof/Machine/State.lean ====
section
/-! DEFINITION. The state of the block (10_state.md R20), the inputs a run is given, the outputs it has produced,
and the reasons a step can stop. All of it is plain data. -/

namespace Sys2Proof.Machine

/-- The contents of a store: the bytes that have been written, by index, in rising order. An index that is not
listed holds no value (log 3). -/
abbrev Memory := List Host.Cell

/-- The canonical form of a memory: indices strictly rising. An unlisted index reads as no value, so no entry can
equal what an unlisted index reads as. -/
def Memory.wf : Memory → Bool
  | [] => true
  | [_] => true
  | c :: d :: m => decide (c.1 < d.1) && Memory.wf (d :: m)

/-- The three stores (20_memory.md R60). -/
inductive StoreId where
  | pkt | rxqMem | txqMem
deriving DecidableEq, Repr

/-- A byte FIFO (10_state.md R28): its store, the index the next push writes and the index the next pop reads. -/
structure Fifo where
  mem : Memory
  head : Nat
  tail : Nat
deriving DecidableEq, Repr

/-- The transport selection (10_state.md R34). -/
inductive Session where
  | inactive | stream | net
deriving DecidableEq, Repr

/-- Where an `XPORT.POLL` in progress stands (43_transport.md R203, R204; log 8). -/
inductive Poll where
  /-- No poll is in progress. -/
  | idle
  /-- The bytes of one `be_read` that are still to be stepped (R203). -/
  | stream (rest : List Byte)
  /-- The loop of R204, before its next pop. -/
  | netPop
  /-- The loop of R204, after a pop whose result stands in `State.popped`. -/
  | netTake
deriving DecidableEq, Repr

/-- The two execution contexts (60_exceptions.md R259). -/
inductive Context where
  | service | delivery
deriving DecidableEq, Repr

/-- One answer of the stream backend to a poll: `be_read_ready()` false, or the result of `be_read()` (R200). -/
inductive ReadAnswer where
  | notReady
  | bytes (s : List Byte)
  | error
deriving DecidableEq, Repr

/-- One answer of a backend to `be_write`: how many bytes it takes from the front, or `error` (R200). -/
inductive WriteAnswer where
  | takes (k : Nat)
  | error
deriving DecidableEq, Repr

/-- Who asks for an operation in the service context (00_scope.md R11). -/
inductive Asker where
  /-- The interpreter during a dispatch; outside one the scheduler, the configuration host or another collaborator. -/
  | caller
  /-- The transport backend, which reports a connection, a disconnection or a failure (R200, R252). -/
  | backend
deriving DecidableEq, Repr

/-- An operation asked for in the service context: who asks, and the operation's message (R103; logs 4 and 7). -/
structure Request where
  asker : Asker
  message : List Byte
deriving DecidableEq, Repr

/-- A call of the network backend's delivery path in progress (43_transport.md R207; log 8): the bytes still to push,
and how many of its bytes were accepted so far. -/
structure Delivery where
  rest : List Byte
  accepted : Nat
deriving DecidableEq, Repr

/-- The output events of 10_state.md R37. -/
inductive Event where
  | haltReq
  | ackFail
  /-- `dispatch(pkt, len)`: what the interpreter finds at `pkt[0 .. len-1]`, and `len` (log 11). -/
  | dispatch (payload : List (Option Byte)) (len : Nat)
  | targetListReset
  | displayMsg
  | beWrite (bytes : List Byte)
deriving DecidableEq, Repr

/-- Why the machine stops. Both are the model's own and both are safe: the spec gives the hardware no such stop,
and no run from reset reaches one (logs 3 and 17). -/
inductive Fault where
  /-- Raised by `FIFO.POP` and by what contains it (a flush, a poll) when it reads a byte that nothing has written
  since power-on (R41: the model gives such a byte no value). Safe. -/
  | unwrittenByte (store : StoreId) (index : Nat)
  /-- Raised by a push, a pop or a write of `pkt` at an index the store does not have (R60). Safe. -/
  | outsideStore (store : StoreId) (index : Nat)
deriving DecidableEq, Repr

/-- Requests the model gives no meaning (60_exceptions.md R249). Each is safe: a run that holds one says nothing of
the hardware. -/
inductive Refusal where
  /-- Raised by `exec`'s arm of an instruction that has no meaning in this model. Safe. -/
  | notModelled (mnemonic : String)
  /-- Raised by the fetch when a request's bytes are no operation. Safe. -/
  | badRequest (reason : DecodeError)
  /-- Raised by a receive row whose key or condition does not hold of the state: another row is the step taken
  (R120; log 16). Safe. -/
  | rowNotSelected
  /-- Raised by a receive step and by a session operation other than `SESSION.ERROR` during a dispatch (R249). Safe. -/
  | dispatchInProgress
  /-- Raised by `DISPATCH.OK` and `DISPATCH.FAULT` with nothing to complete (R249). Safe. -/
  | noDispatch
  /-- Raised by every operation that sends, with no backend linked (R249). Safe. -/
  | notLinked
  /-- Raised by `TX.SEND_FMT`: the format language is not defined (R162). Safe. -/
  | formatUndefined
  /-- Raised by `XPORT.POLL` and `XPORT.SERVICE` during a dispatch or during a poll or a service pass, and by
  `XPORT.DELIVER` during a delivery (R249; log 18). Safe. -/
  | reentry
  /-- Raised by `SESSION.INIT_STREAM` and `SESSION.INIT_NET` while a session is active (R249). Safe. -/
  | sessionActive
  /-- Raised by `SESSION.ACCEPT` and `SESSION.DISCONNECT` while `session` is not `NET` (R249). Safe. -/
  | noListener
  /-- Raised by `SESSION.DISCONNECT` with no peer (R249). Safe. -/
  | noConnection
  /-- Raised by `XPORT.DELIVER` with no peer to deliver from (R249). Safe. -/
  | noPeer
  /-- Raised by the fetch when the one who asks has no right to the operation: a write of the block's state from
  outside it (R215, R249, R258; log 19). Safe. -/
  | notAllowed
deriving DecidableEq, Repr

/-- The state. -/
structure State where
  /-- The parameters of 00_scope.md R5 to R8: arguments of the model, written by no step (log 1). -/
  params : Params
  /-- `rx_state` (R21). -/
  rxState : RxState
  /-- `rx_size` (R22). -/
  rxSize : Nat
  /-- `rx_csum` (R23). -/
  rxCsum : Byte
  /-- `rx_c1` (R24). -/
  rxC1 : Byte
  /-- `pkt[0 .. PKT_MAX]` (R25). -/
  pkt : Memory
  /-- `dispatch_pending` (R26). -/
  dispatchPending : Bool
  /-- The receive FIFO (R29). -/
  rxq : Fifo
  /-- The transmit FIFO (R30). -/
  txq : Fifo
  /-- `flush_req` (R33). -/
  flushReq : Bool
  /-- `session` (R34). -/
  session : Session
  /-- `peer` (R35). -/
  peer : Bool
  /-- `tx_fault` (R36). -/
  txFault : Bool
  /-- Where a poll in progress stands (log 8). -/
  poll : Poll
  /-- A service pass is in its poll, and flushes after it if `flush_req` is set (R206; log 8). -/
  servicing : Bool
  /-- The delivery in progress, if there is one (R207; log 8). -/
  delivering : Option Delivery
  /-- Input: the operations asked for in the service context, in order (R103; logs 4 and 7). -/
  requests : List Request
  /-- Input: the calls of the delivery path still to come, in order, each the bytes it delivers (R207; log 7). -/
  deliveries : List (List Byte)
  /-- Input: which context takes the next steps (R70; log 7). -/
  turns : List Context
  /-- Input: the backend's answers to reads (R200; log 6). -/
  beReads : List ReadAnswer
  /-- Input: the backend's answers to writes (R200; log 6). -/
  beWrites : List WriteAnswer
  /-- Output: the events so far, oldest first (R37; log 10). -/
  events : List Event
  /-- Output: the result of the last `FIFO.PUSH` (R180; log 10). -/
  accepted : Bool
  /-- Output: the result of the last `FIFO.POP` (R181; log 10). -/
  popped : Option Byte
  /-- Output: the result of the last `XPORT.WRITE` (R201; log 10). -/
  bytesAccepted : Nat
  /-- Output: the result of the last `XPORT.DELIVER` (R207; log 10). -/
  delivered : Nat
deriving DecidableEq, Repr

/-- An empty FIFO at index 0 whose store nothing has written (R41). -/
def Fifo.reset : Fifo where
  mem := []
  head := 0
  tail := 0

/-- The block with parameters `p` right after power-on (10_state.md R20 and R41): no input waits, no event has been
emitted. `rx_c1` is unspecified by the spec and 0 here (log 2). -/
def State.resetWith (p : Params) : State where
  params := p
  rxState := .idle
  rxSize := 0
  rxCsum := 0x00#8
  rxC1 := 0x00#8
  pkt := []
  dispatchPending := false
  rxq := Fifo.reset
  txq := Fifo.reset
  flushReq := false
  session := .inactive
  peer := false
  txFault := false
  poll := .idle
  servicing := false
  delivering := none
  requests := []
  deliveries := []
  turns := []
  beReads := []
  beWrites := []
  events := []
  accepted := false
  popped := none
  bytesAccepted := 0
  delivered := 0

/-- The machine right after reset, with the parameters the spec leaves open (log 1). -/
def State.reset : State := State.resetWith Config.params

end Sys2Proof.Machine
end

