-- ==== Sys2Proof/Machine/Operands.lean ====
section
/-! DEFINITION. The wire format of 30_encoding.md: escape, checksum, hex digits, the bytes of a packet, and the
payload of a console packet. -/

namespace Sys2Proof.Machine

/-- The byte is one of `$`, `#` and the escape marker, so the encoder escapes it (R92). -/
def needsEscape (c : Byte) : Bool :=
  decide (c = 0x24#8 ∨ c = 0x23#8 ∨ c = 0x7D#8)

/-- Escaping and unescaping a byte: XOR with `0x20` (R92, R106). -/
def escapeXor (c : Byte) : Byte := c ^^^ 0x20#8

/-- The bytes a payload byte puts into a packet body (R92). -/
def escapeByte (c : Byte) : List Byte :=
  if needsEscape c then [0x7D#8, escapeXor c] else [c]

/-- The body of a packet: the payload with escapes applied (R90, R92). -/
def packetBody : List Byte → List Byte
  | [] => []
  | c :: p => escapeByte c ++ packetBody p

/-- The sum modulo 256 of on-wire bytes (R93). -/
def checksum : List Byte → Byte
  | [] => 0x00#8
  | b :: bs => b + checksum bs

/-- `hexdigit(n)` for `n` in `0 .. 15`: the `n`-th of `0` to `9`, `a` to `f` (R94). -/
def hexDigit (n : Nat) : Byte :=
  if n < 10 then BitVec.ofNat 8 (0x30 + n) else BitVec.ofNat 8 (0x61 + (n - 10))

/-- A byte as two hex digits, high digit first (R94; log 26). -/
def hexPair (c : Byte) : List Byte :=
  [hexDigit (c.toNat / 16), hexDigit (c.toNat % 16)]

/-- `hexval(c)`, none where `ishex(c)` is false (R95). -/
def hexVal (c : Byte) : Option Nat :=
  if 0x30 ≤ c.toNat ∧ c.toNat ≤ 0x39 then some (c.toNat - 0x30)
  else if 0x61 ≤ c.toNat ∧ c.toNat ≤ 0x66 then some (c.toNat - 0x61 + 10)
  else if Config.hexAcceptUpper ∧ 0x41 ≤ c.toNat ∧ c.toNat ≤ 0x46 then some (c.toNat - 0x41 + 10)
  else none

/-- `ishex(c)` (R95). -/
def isHex (c : Byte) : Bool := (hexVal c).isSome

/-- `csum_ok` of R132: both characters are hex digits and spell the running checksum, the first being the high
digit. -/
def csumOk (c1 b csum : Byte) : Bool :=
  match hexVal c1, hexVal b with
  | some h, some l => decide (h * 16 + l = csum.toNat)
  | _, _ => false

/-- The bytes `TX.SEND_PACKET` writes (R160): `$`, the body, `#`, the checksum of the body in two digits. -/
def packetBytes (p : List Byte) : List Byte :=
  0x24#8 :: (packetBody p ++ 0x23#8 :: hexPair (checksum (packetBody p)))

/-- The string part of a console payload: two hex digits a byte (R163). -/
def consoleHex : List Byte → List Byte
  | [] => []
  | c :: s => hexPair c ++ consoleHex s

/-- The payload of `TX.SEND_CONSOLE` (R163): `O`, then the string in hex. -/
def consolePayload (s : List Byte) : List Byte := 0x4F#8 :: consoleHex s

/-- The fixed error payload `EFF` (R105, R139). -/
def errorPayload : List Byte := [0x45#8, 0x46#8, 0x46#8]

/-- The positive acknowledgement (R91, R96). -/
def ackByte : Byte := 0x2B#8

/-- The negative acknowledgement (R91, R96). -/
def nakByte : Byte := 0x2D#8

end Sys2Proof.Machine
end

