-- ==== Sys2Proof/Machine/Flags.lean ====
section
/-! DEFINITION. The status values that are functions of the state: FIFO status (10_state.md R31), `linked`
(43_transport.md), the near-full test (R165), the conditions of the receive rows (R102) and who may act. -/

namespace Sys2Proof.Machine

/-- `next_CAP(i)`: the index after `i` (R106). -/
def nextIndex (cap i : Nat) : Nat := (i + 1) % cap

/-- `empty(q)` (R31). -/
def Fifo.isEmpty (f : Fifo) : Bool := decide (f.head = f.tail)

/-- `full(q)` (R31). -/
def Fifo.isFull (cap : Nat) (f : Fifo) : Bool := decide (nextIndex cap f.head = f.tail)

/-- `count(q)`: `(head - tail) mod CAP`, non-negative (R31). -/
def Fifo.count (cap : Nat) (f : Fifo) : Nat := (f.head + cap - f.tail) % cap

/-- The slot count of a FIFO (R6). -/
def slots (p : Params) : Queue → Nat
  | .rxq => p.rxCap
  | .txq => p.txCap

/-- The store of a FIFO. -/
def storeOf : Queue → StoreId
  | .rxq => .rxqMem
  | .txq => .txqMem

/-- The FIFO an operation names. -/
def State.fifo (s : State) : Queue → Fifo
  | .rxq => s.rxq
  | .txq => s.txq

/-- `linked`: a backend is there to carry bytes (43_transport.md). -/
def State.linked (s : State) : Bool :=
  decide (s.session = .stream) || (decide (s.session = .net) && s.peer)

/-- A delivery can run: `session = NET` and `peer = 1` (R207, R251). -/
def State.deliverable (s : State) : Bool :=
  decide (s.session = .net) && s.peer

/-- The transmit FIFO is near-full: a requested flush is carried out at once (R165). -/
def State.nearFull (s : State) : Bool :=
  decide (s.params.txNearFull ≤ s.txq.count s.params.txCap)

/-- The conditions of R102 for byte `b`, of the state before the step (log 17). -/
def State.rxCond (s : State) (b : Byte) : RxCond where
  room := !decide (s.params.pktMax ≤ s.rxSize)
  csumOk := csumOk s.rxC1 b s.rxCsum

/-- The row a receive step of `b` takes (R120). -/
def State.rowFor (s : State) (b : Byte) : Instr := selectRow (s.rxCond b) s.rxState b

/-- Whether the one who asks may have operation `i` in the service context, during a dispatch or outside one (R11,
R215, R258). What R249 refuses on the state, `exec` refuses under its own name. `RX.STEP` is the poll's (R120);
`FIFO.PUSH` and `FIFO.POP` are parts of other operations (R187), `FIFO.RESET` of `RESET_ALL` (R182); `XPORT.DELIVER` is
the delivery context's (R207); `SESSION.ERROR` is the backend's report, and no step of its own in a dispatch (R213,
R252). Log 19. -/
def Asker.may (a : Asker) (dispatch : Bool) : Instr → Bool
  | .rxIdleStart | .rxIdleHalt | .rxIdleIgnore _ | .rxCharRestart | .rxCharEnd | .rxCharEscape => false
  | .rxCharData _ | .rxCharOverflow _ | .rxEscData _ | .rxEscOverflow _ | .rxCsum1Capture _ => false
  | .rxCsum2Good _ | .rxCsum2Bad _ | .rxAckwAck | .rxAckwNack | .rxAckwStart | .rxAckwIgnore _ => false
  | .fifoPush _ _ | .fifoPop _ | .fifoReset _ | .xportDeliver _ => false
  | .sessionError => decide (a = .backend) && !dispatch
  | .sessionAccept | .sessionDisconnect => true
  | .txSendPacket _ | .txSendByte _ | .txSendFmt _ | .txSendConsole _ => decide (a = .caller)
  | .xportWrite _ | .xportFlush | .xportPoll | .xportService => decide (a = .caller)
  | .sessionInitStream _ | .sessionInitNet _ | .sessionDeinit => decide (a = .caller)
  | .dispatchOk | .dispatchFault => decide (a = .caller)

/-- A poll or a service pass is in progress (log 8). -/
def State.polling (s : State) : Bool := decide (s.poll ≠ .idle) || s.servicing

end Sys2Proof.Machine
end

