-- ==== Sys2Proof/Machine/Ops.lean ====
section
/-! DEFINITION. The shared operations: the byte accesses of the three stores, the FIFO, the encoder's `put` and
`request_flush`, the flush, the recovery paths (framing error, transport error), `RESET_ALL`, the start of a frame
and the start of a poll. An operation that reads or writes a store answers a `Fault` only where the store has no
such byte; the operations refuse nothing. -/

namespace Sys2Proof.Machine

/-- What a meaning answers. -/
abbrev Answer := Host.Outcome State Fault Refusal

/-- An operation's result as a meaning's answer. -/
def answer (r : Except Fault State) : Answer :=
  match r with
  | .ok s => .next s
  | .error f => .fault f

/-! ### Stores (20_memory.md R60 to R63) -/

/-- The byte at an index, none where nothing has been written. -/
def Memory.read : Memory → Nat → Option Byte
  | [], _ => none
  | c :: m, a => if c.1 = a then some c.2 else Memory.read m a

/-- Writing a byte keeps the indices strictly rising. -/
def Memory.write : Memory → Nat → Byte → Memory
  | [], a, b => [(a, b)]
  | c :: m, a, b =>
    if a < c.1 then (a, b) :: c :: m
    else if a = c.1 then (a, b) :: m
    else c :: Memory.write m a b

/-- `MemRead(space, i, 1)` of a store of `size` bytes. -/
def readAt (st : StoreId) (size : Nat) (m : Memory) (i : Nat) : Except Fault Byte :=
  if i < size then
    match m.read i with
    | some b => .ok b
    | none => .error (.unwrittenByte st i)
  else .error (.outsideStore st i)

/-- `MemWrite(space, i, 1, b)` of a store of `size` bytes. -/
def writeAt (st : StoreId) (size : Nat) (m : Memory) (i : Nat) (b : Byte) : Except Fault Memory :=
  if i < size then .ok (m.write i b) else .error (.outsideStore st i)

/-- The payload store has `PKT_MAX + 1` bytes (R25). -/
def State.writePkt (s : State) (i : Nat) (b : Byte) : Except Fault State :=
  match writeAt .pkt (s.params.pktMax + 1) s.pkt i b with
  | .ok m => .ok { s with pkt := m }
  | .error f => .error f

/-- What stands at `pkt[0 .. len-1]` (log 11). -/
def Memory.slice (m : Memory) (len : Nat) : List (Option Byte) := (List.range len).map m.read

/-- Producing an output event (R37). -/
def State.emit (s : State) (e : Event) : State := { s with events := s.events ++ [e] }

/-! ### The FIFO (42_fifo.md R180 to R182) -/

/-- Replacing a FIFO. -/
def State.setFifo (s : State) (q : Queue) (f : Fifo) : State :=
  match q with
  | .rxq => { s with rxq := f }
  | .txq => { s with txq := f }

/-- `FIFO.PUSH(q, b)`: whether the byte was accepted, and the state after (R180). -/
def push (q : Queue) (b : Byte) (s : State) : Except Fault (Bool × State) :=
  if (s.fifo q).isFull (slots s.params q) then .ok (false, s)
  else
    match writeAt (storeOf q) (slots s.params q) (s.fifo q).mem (s.fifo q).head b with
    | .ok m =>
      .ok (true, s.setFifo q
        { s.fifo q with mem := m, head := nextIndex (slots s.params q) (s.fifo q).head })
    | .error f => .error f

/-- `FIFO.POP(q)`: the oldest byte, none when the FIFO is empty, and the state after (R181). -/
def pop (q : Queue) (s : State) : Except Fault (Option Byte × State) :=
  if (s.fifo q).isEmpty then .ok (none, s)
  else
    match readAt (storeOf q) (slots s.params q) (s.fifo q).mem (s.fifo q).tail with
    | .ok b =>
      .ok (some b, s.setFifo q
        { s.fifo q with tail := nextIndex (slots s.params q) (s.fifo q).tail })
    | .error f => .error f

/-- `FIFO.RESET(q)`: both indices 0, the store as it is (R182). -/
def resetFifo (q : Queue) (s : State) : State :=
  s.setFifo q { s.fifo q with head := 0, tail := 0 }

/-- A write of several bytes: single pushes in order, stopping at the first rejection; the count accepted (R185). -/
def pushAll (q : Queue) : List Byte → State → Except Fault (Nat × State)
  | [], s => .ok (0, s)
  | b :: bs, s =>
    match push q b s with
    | .error f => .error f
    | .ok (false, t) => .ok (0, t)
    | .ok (true, t) =>
      match pushAll q bs t with
      | .error f => .error f
      | .ok (n, u) => .ok (n + 1, u)

/-- `FIFO.POP(q)`, `n` times: the bytes, oldest first. It stops early at an empty FIFO. -/
def popMany (q : Queue) : Nat → State → Except Fault (List Byte × State)
  | 0, s => .ok ([], s)
  | n + 1, s =>
    match pop q s with
    | .error f => .error f
    | .ok (none, t) => .ok ([], t)
    | .ok (some b, t) =>
      match popMany q n t with
      | .error f => .error f
      | .ok (bs, u) => .ok (b :: bs, u)

/-! ### Reset and the transport error (43_transport.md R213, R214) -/

/-- `RESET_ALL` (R214). -/
def resetAll (s : State) : State :=
  { s with
    rxState := .idle
    rxSize := 0
    rxCsum := 0x00#8
    rxq := { s.rxq with head := 0, tail := 0 }
    txq := { s.txq with head := 0, tail := 0 }
    flushReq := false }

/-- Taking a `TransportError`: `SESSION.ERROR` (R213, R247). A stream ends; a network session keeps its listener and
loses its peer. -/
def sessionError (s : State) : State :=
  match s.session with
  | .stream => { resetAll s with session := .inactive }
  | .net => { resetAll s with peer := false }
  | .inactive => resetAll s

/-! ### Flush (43_transport.md R202) -/

/-- The backend's answer to a `be_write`: the next one given, or "no more capacity" when none is left (log 6). -/
def drawWrite (s : State) : WriteAnswer × State :=
  match s.beWrites with
  | [] => (.takes 0, s)
  | a :: rest => (a, { s with beWrites := rest })

/-- The last line of R202: whether the flush request survives. -/
def endFlush (s : State) : State :=
  { s with flushReq := s.params.flushKeepsReq && !s.txq.isEmpty }

/-- The loop of R202. Each pass takes at least one byte out of `txq` or stops, so `count(txq) + 1` passes suffice
(log 31). -/
def flushLoop : Nat → State → Except Fault State
  | 0, s => .ok (endFlush s)
  | n + 1, s =>
    if s.txq.isEmpty then .ok (endFlush s)
    else
      match drawWrite s with
      | (.error, t) => .ok (sessionError t)
      | (.takes k, t) =>
        match popMany .txq (min k (t.txq.count t.params.txCap)) t with
        | .error f => .error f
        | .ok (sent, u) =>
          if sent.isEmpty then .ok (endFlush (u.emit (.beWrite sent)))
          else flushLoop n (u.emit (.beWrite sent))

/-- `XPORT.FLUSH()` (R202). -/
def flush (s : State) : Except Fault State :=
  if s.linked then flushLoop (s.txq.count s.params.txCap + 1) s else .ok s

/-! ### The transmit encoder's shared pieces (41_tx_encoder.md R164 to R166) -/

/-- `put(b)`: a byte offered to a full `txq` is not stored and sets `tx_fault` (R164). -/
def put (b : Byte) (s : State) : Except Fault State :=
  match push .txq b s with
  | .ok (true, t) => .ok t
  | .ok (false, t) => .ok { t with txFault := true }
  | .error f => .error f

/-- `put` of each byte in turn. A byte that finds `txq` full does not stop the ones after it (R164). -/
def putAll : List Byte → State → Except Fault State
  | [], s => .ok s
  | b :: bs, s =>
    match put b s with
    | .ok t => putAll bs t
    | .error f => .error f

/-- `request_flush()`: at once when near-full, else left to the service pass (R165). -/
def requestFlush (s : State) : Except Fault State :=
  if s.nearFull then flush s else .ok { s with flushReq := true }

/-- `TX.SEND_BYTE(b)` with a backend linked (R161). -/
def sendByte (b : Byte) (s : State) : Except Fault State :=
  match put b s with
  | .ok t => requestFlush t
  | .error f => .error f

/-- `TX.SEND_PACKET(p, len(p))` with a backend linked (R160): the bytes, the arming of `ACK_WAIT` (R166), the flush
request. -/
def sendPacket (p : List Byte) (s : State) : Except Fault State :=
  match putAll (packetBytes p) s with
  | .ok t => requestFlush { t with rxState := .ackWait }
  | .error f => .error f

/-- What follows a send inside one step. A send whose flush met a backend error has taken `SESSION.ERROR`, which
leaves no backend linked, and the step does nothing more (R202, R213, D34; log 12). -/
def afterSend (rest : State → Except Fault State) (sent : Except Fault State) : Except Fault State :=
  match sent with
  | .ok t => if t.linked then rest t else .ok t
  | .error f => .error f

/-! ### The receive framer's shared pieces (40_rx_framer.md) -/

/-- Starting a frame (R121, R124, R136): size and checksum are reset together (R27). -/
def startFrame (s : State) : State :=
  { s with rxSize := 0, rxCsum := 0x00#8, rxState := .char }

/-- Taking a framing error (R255; R128, R130, R133): one negative acknowledgement, and `rx_state <- IDLE`, which a
`SESSION.ERROR` inside the send has done already (R214). -/
def rejectFrame (s : State) : Except Fault State :=
  match sendByte nakByte s with
  | .ok t => .ok { t with rxState := .idle }
  | .error f => .error f

/-- The dispatch of an accepted frame, after its `+` (R132): the null, `rx_state <- IDLE`, the hand-over. -/
def dispatchFrame (s : State) : Except Fault State :=
  match s.writePkt s.rxSize 0x00#8 with
  | .error f => .error f
  | .ok t =>
    .ok ({ t with rxState := .idle, dispatchPending := true }.emit (.dispatch (t.pkt.slice t.rxSize) t.rxSize))

/-- Accepting a frame (R132), in the order of R253: `+`, then the dispatch. -/
def acceptFrame (s : State) : Except Fault State := afterSend dispatchFrame (sendByte ackByte s)

/-- Taking a `CommandFault` (R139, R246), in the order of R253: the error packet, the two events, the completion. -/
def commandFault (s : State) : Except Fault State :=
  afterSend
    (fun t => .ok { (t.emit .targetListReset).emit .displayMsg with dispatchPending := false })
    (sendPacket errorPayload s)

/-- Storing a byte of the body: `c` into the store, `b` into the checksum (R127, R129). -/
def storeByte (c b : Byte) (s : State) : Except Fault State :=
  match s.writePkt s.rxSize c with
  | .error f => .error f
  | .ok t => .ok { t with rxSize := t.rxSize + 1, rxCsum := t.rxCsum + b, rxState := .char }

/-- A receive step of row `i` on byte `b`: refused during a dispatch (R120, R249) and where another row is the step
taken (log 16). -/
def receive (i : Instr) (b : Byte) (s : State) (effect : Answer) : Answer :=
  if s.dispatchPending then .refused .dispatchInProgress
  else if s.rowFor b = i then effect
  else .refused .rowNotSelected

/-- An operation that sends needs a linked backend (R160, R161, R249). -/
def whenLinked (s : State) (effect : Answer) : Answer :=
  if s.linked then effect else .refused .notLinked

/-! ### Polling (43_transport.md R203 to R205) -/

/-- The stream backend's answer to a poll: the next one given, or "nothing to read" when none is left (log 6). -/
def drawRead (s : State) : ReadAnswer × State :=
  match s.beReads with
  | [] => (.notReady, s)
  | a :: rest => (a, { s with beReads := rest })

/-- The start of `XPORT.POLL()`: the read of the stream backend, or the entry into the loop of the network backend.
The receive steps are the machine's later steps (log 8). -/
def startPoll (s : State) : State :=
  match s.session with
  | .inactive => s
  | .stream =>
    match drawRead s with
    | (.notReady, t) => t
    | (.bytes bs, t) => { t with poll := .stream bs }
    | (.error, t) => sessionError t
  | .net => if s.peer then { s with poll := .netPop } else s

end Sys2Proof.Machine
end

