-- ==== Sys2Proof/Machine/ByteFifo.lean ====
section
/-! DEFINITION. The meanings of the FIFO operations (42_fifo.md R180 to R182). -/

namespace Sys2Proof.Machine

/-- `FIFO.PUSH(q, b)` (R180); its result stands in `accepted`. -/
def execFifoPush (q : Queue) (b : Byte) (s : State) : Answer :=
  match push q b s with
  | .ok (r, t) => .next { t with accepted := r }
  | .error f => .fault f

/-- `FIFO.POP(q)` (R181); its result stands in `popped`. -/
def execFifoPop (q : Queue) (s : State) : Answer :=
  match pop q s with
  | .ok (r, t) => .next { t with popped := r }
  | .error f => .fault f

/-- `FIFO.RESET(q)` (R182). -/
def execFifoReset (q : Queue) (s : State) : Answer :=
  .next (resetFifo q s)

end Sys2Proof.Machine
end

