-- ==== Sys2Proof/Machine/Completion.lean ====
section
/-! DEFINITION. The meanings of the two completions of a dispatch (40_rx_framer.md R138, R139). -/

namespace Sys2Proof.Machine

/-- `DISPATCH.OK` (R138). -/
def execDispatchOk (s : State) : Answer :=
  if s.dispatchPending then .next { s with dispatchPending := false } else .refused .noDispatch

/-- `DISPATCH.FAULT` (R139): taking a `CommandFault` (R246). -/
def execDispatchFault (s : State) : Answer :=
  if s.dispatchPending then
    whenLinked s (answer (commandFault s))
  else .refused .noDispatch

end Sys2Proof.Machine
end

