-- ==== Sys2Proof/Machine/RxFramer.lean ====
section
/-! DEFINITION. The meanings of the seventeen receive rows (40_rx_framer.md R121 to R137). Each is a receive step
(`receive`): refused during a dispatch, and where the row is not the one the state and byte select. -/

namespace Sys2Proof.Machine

/-- `RX.IDLE.START` (R121). -/
def execRxIdleStart (s : State) : Answer :=
  receive .rxIdleStart 0x24#8 s (.next (startFrame s))

/-- `RX.IDLE.HALT` (R122): `halt_req`, and nothing else. -/
def execRxIdleHalt (s : State) : Answer :=
  receive .rxIdleHalt 0x03#8 s (.next (s.emit .haltReq))

/-- `RX.IDLE.IGNORE` (R123): nothing. -/
def execRxIdleIgnore (b : Byte) (s : State) : Answer :=
  receive (.rxIdleIgnore b) b s (.next s)

/-- `RX.CHAR.RESTART` (R124). -/
def execRxCharRestart (s : State) : Answer :=
  receive .rxCharRestart 0x24#8 s (.next (startFrame s))

/-- `RX.CHAR.END` (R125). -/
def execRxCharEnd (s : State) : Answer :=
  receive .rxCharEnd 0x23#8 s (.next { s with rxState := .csum1 })

/-- `RX.CHAR.ESCAPE` (R126): the marker is summed and not stored. -/
def execRxCharEscape (s : State) : Answer :=
  receive .rxCharEscape 0x7D#8 s
    (.next { s with rxCsum := s.rxCsum + 0x7D#8, rxState := .esc })

/-- `RX.CHAR.DATA` (R127). -/
def execRxCharData (b : Byte) (s : State) : Answer :=
  receive (.rxCharData b) b s (answer (storeByte b b s))

/-- `RX.CHAR.OVERFLOW` (R128): `BufferOverflow` (R243). -/
def execRxCharOverflow (b : Byte) (s : State) : Answer :=
  receive (.rxCharOverflow b) b s (whenLinked s (answer (rejectFrame s)))

/-- `RX.ESC.DATA` (R129): unescaped into the store, summed as received. -/
def execRxEscData (b : Byte) (s : State) : Answer :=
  receive (.rxEscData b) b s (answer (storeByte (escapeXor b) b s))

/-- `RX.ESC.OVERFLOW` (R130): `BufferOverflow` (R243). -/
def execRxEscOverflow (b : Byte) (s : State) : Answer :=
  receive (.rxEscOverflow b) b s (whenLinked s (answer (rejectFrame s)))

/-- `RX.CSUM1.CAPTURE` (R131). -/
def execRxCsum1Capture (b : Byte) (s : State) : Answer :=
  receive (.rxCsum1Capture b) b s (.next { s with rxC1 := b, rxState := .csum2 })

/-- `RX.CSUM2.GOOD` (R132). -/
def execRxCsum2Good (b : Byte) (s : State) : Answer :=
  receive (.rxCsum2Good b) b s (whenLinked s (answer (acceptFrame s)))

/-- `RX.CSUM2.BAD` (R133): `ChecksumMismatch` (R241) or `BadChecksumDigit` (R242). -/
def execRxCsum2Bad (b : Byte) (s : State) : Answer :=
  receive (.rxCsum2Bad b) b s (whenLinked s (answer (rejectFrame s)))

/-- `RX.ACKW.ACK` (R134). -/
def execRxAckwAck (s : State) : Answer :=
  receive .rxAckwAck 0x2B#8 s (.next { s with rxState := .idle })

/-- `RX.ACKW.NACK` (R135): `AckFailure` (R245). -/
def execRxAckwNack (s : State) : Answer :=
  receive .rxAckwNack 0x2D#8 s (.next ({ s with rxState := .idle }.emit .ackFail))

/-- `RX.ACKW.START` (R136). -/
def execRxAckwStart (s : State) : Answer :=
  receive .rxAckwStart 0x24#8 s (.next (startFrame s))

/-- `RX.ACKW.IGNORE` (R137): nothing; the wait goes on. -/
def execRxAckwIgnore (b : Byte) (s : State) : Answer :=
  receive (.rxAckwIgnore b) b s (.next s)

end Sys2Proof.Machine
end

