-- ==== Sys2Proof/Machine/SessionControl.lean ====
section
/-! DEFINITION. The meanings of the session operations (43_transport.md R208 to R213). -/

namespace Sys2Proof.Machine

/-- Every session operation but `SESSION.ERROR` is refused during a dispatch (R249). -/
def outsideDispatch (s : State) (effect : Answer) : Answer :=
  if s.dispatchPending then .refused .dispatchInProgress else effect

/-- `SESSION.INIT_STREAM(handle)` (R208). -/
def execSessionInitStream (_handle : List Byte) (s : State) : Answer :=
  outsideDispatch s <|
    if s.session = .inactive then .next { resetAll s with session := .stream }
    else .refused .sessionActive

/-- `SESSION.INIT_NET(port)` (R209). -/
def execSessionInitNet (_port : List Byte) (s : State) : Answer :=
  outsideDispatch s <|
    if s.session = .inactive then .next { resetAll s with session := .net, peer := false }
    else .refused .sessionActive

/-- `SESSION.DEINIT()` (R210). -/
def execSessionDeinit (s : State) : Answer :=
  outsideDispatch s (.next { resetAll s with session := .inactive, peer := false })

/-- `SESSION.ACCEPT()` (R211). -/
def execSessionAccept (s : State) : Answer :=
  outsideDispatch s <|
    if s.session = .net then .next { resetAll s with peer := true } else .refused .noListener

/-- `SESSION.DISCONNECT()` (R212). -/
def execSessionDisconnect (s : State) : Answer :=
  outsideDispatch s <|
    if s.session = .net then
      if s.peer then .next { resetAll s with peer := false } else .refused .noConnection
    else .refused .noListener

/-- `SESSION.ERROR()` (R213), the one session operation a dispatch can hold. -/
def execSessionError (s : State) : Answer := .next (sessionError s)

end Sys2Proof.Machine
end

