-- ==== Sys2Proof/Machine/Transport.lean ====
section
/-! DEFINITION. The meanings of the transport operations (43_transport.md R201 to R207). A poll, a service pass and a
delivery are composite: their meanings start them, and the machine's later steps are their atomic parts (Fetch.lean;
log 8). -/

namespace Sys2Proof.Machine

/-- `XPORT.WRITE(bytes)` (R201); its result stands in `bytesAccepted`. With no backend linked nothing is accepted. -/
def execXportWrite (bytes : List Byte) (s : State) : Answer :=
  if s.linked then
    match pushAll .txq bytes s with
    | .ok (n, t) => .next { t with bytesAccepted := n }
    | .error f => .fault f
  else .next { s with bytesAccepted := 0 }

/-- `XPORT.FLUSH()` (R202). -/
def execXportFlush (s : State) : Answer := answer (flush s)

/-- `XPORT.POLL()` (R203 to R205); not re-entrant (R249, R296; log 18). -/
def execXportPoll (s : State) : Answer :=
  if s.dispatchPending || s.polling then .refused .reentry else .next (startPoll s)

/-- `XPORT.SERVICE()` (R206): a poll, and after it a flush if one is requested. -/
def execXportService (s : State) : Answer :=
  if s.dispatchPending || s.polling then .refused .reentry
  else .next { startPoll s with servicing := true }

/-- `XPORT.DELIVER(bytes)` (R207): the call begins, and its pushes are later turns of the delivery context. -/
def execXportDeliver (bytes : List Byte) (s : State) : Answer :=
  if s.deliverable then
    if s.delivering.isSome then .refused .reentry
    else .next { s with delivering := some { rest := bytes, accepted := 0 } }
  else .refused .noPeer

end Sys2Proof.Machine
end

