-- ==== Sys2Proof/Machine/TxEncoder.lean ====
section
/-! DEFINITION. The meanings of the transmit operations (41_tx_encoder.md R160 to R163). -/

namespace Sys2Proof.Machine

/-- `TX.SEND_PACKET(payload, length)` (R160). -/
def execTxSendPacket (payload : List Byte) (s : State) : Answer :=
  whenLinked s (answer (sendPacket payload s))

/-- `TX.SEND_BYTE(b)` (R161). -/
def execTxSendByte (b : Byte) (s : State) : Answer :=
  whenLinked s (answer (sendByte b s))

/-- `TX.SEND_FMT(format, args)` (R162): the format language is not defined and the spec has the model refuse the
operation (R249; log 34). -/
def execTxSendFmt (_operands : List Byte) (_s : State) : Answer :=
  .refused .formatUndefined

/-- `TX.SEND_CONSOLE(s)` (R163): the packet of the console payload. -/
def execTxSendConsole (string : List Byte) (s : State) : Answer :=
  whenLinked s (answer (sendPacket (consolePayload string) s))

end Sys2Proof.Machine
end

