-- ==== Sys2Proof/Machine/Dispatch.lean ====
section
/-! DEFINITION. One arm per operation of spec/opcode_table.json, in the table's order. -/

namespace Sys2Proof.Machine

def exec (i : Instr) (s : State) : Host.Outcome State Fault Refusal :=
  match i with
  | .rxIdleStart => Sys2Proof.Machine.execRxIdleStart s
  | .rxIdleHalt => Sys2Proof.Machine.execRxIdleHalt s
  | .rxIdleIgnore b => Sys2Proof.Machine.execRxIdleIgnore b s
  | .rxCharRestart => Sys2Proof.Machine.execRxCharRestart s
  | .rxCharEnd => Sys2Proof.Machine.execRxCharEnd s
  | .rxCharEscape => Sys2Proof.Machine.execRxCharEscape s
  | .rxCharData b => Sys2Proof.Machine.execRxCharData b s
  | .rxCharOverflow b => Sys2Proof.Machine.execRxCharOverflow b s
  | .rxEscData b => Sys2Proof.Machine.execRxEscData b s
  | .rxEscOverflow b => Sys2Proof.Machine.execRxEscOverflow b s
  | .rxCsum1Capture b => Sys2Proof.Machine.execRxCsum1Capture b s
  | .rxCsum2Good b => Sys2Proof.Machine.execRxCsum2Good b s
  | .rxCsum2Bad b => Sys2Proof.Machine.execRxCsum2Bad b s
  | .rxAckwAck => Sys2Proof.Machine.execRxAckwAck s
  | .rxAckwNack => Sys2Proof.Machine.execRxAckwNack s
  | .rxAckwStart => Sys2Proof.Machine.execRxAckwStart s
  | .rxAckwIgnore b => Sys2Proof.Machine.execRxAckwIgnore b s
  | .txSendPacket p => Sys2Proof.Machine.execTxSendPacket p s
  | .txSendByte b => Sys2Proof.Machine.execTxSendByte b s
  | .txSendFmt p => Sys2Proof.Machine.execTxSendFmt p s
  | .txSendConsole p => Sys2Proof.Machine.execTxSendConsole p s
  | .fifoPush q b => Sys2Proof.Machine.execFifoPush q b s
  | .fifoPop q => Sys2Proof.Machine.execFifoPop q s
  | .fifoReset q => Sys2Proof.Machine.execFifoReset q s
  | .xportWrite p => Sys2Proof.Machine.execXportWrite p s
  | .xportFlush => Sys2Proof.Machine.execXportFlush s
  | .xportPoll => Sys2Proof.Machine.execXportPoll s
  | .xportService => Sys2Proof.Machine.execXportService s
  | .xportDeliver p => Sys2Proof.Machine.execXportDeliver p s
  | .sessionInitStream h => Sys2Proof.Machine.execSessionInitStream h s
  | .sessionInitNet p => Sys2Proof.Machine.execSessionInitNet p s
  | .sessionDeinit => Sys2Proof.Machine.execSessionDeinit s
  | .sessionAccept => Sys2Proof.Machine.execSessionAccept s
  | .sessionDisconnect => Sys2Proof.Machine.execSessionDisconnect s
  | .sessionError => Sys2Proof.Machine.execSessionError s
  | .dispatchOk => Sys2Proof.Machine.execDispatchOk s
  | .dispatchFault => Sys2Proof.Machine.execDispatchFault s

end Sys2Proof.Machine
end

