-- ==== Sys2Proof/Machine/Fetch.lean ====
section
/-! DEFINITION. What the machine does next: which context moves (20_memory.md R70), and which operation it runs.
In the service context that is, in this order: during a dispatch, the interpreter's next request; the next atomic
part of a poll in progress (43_transport.md R203, R204); the flush that ends a service pass (R206); the next request.
In the delivery context it is the next push of the delivery in progress, or the next delivery (R207). Who has no right
to an operation does not get it (R258). Logs 7, 8, 9, 15, 19. -/

namespace Sys2Proof.Machine

/-- What a step does. -/
inductive Fetched where
  /-- It runs an operation, in a state whose inputs and control fields have moved on. -/
  | run (i : Instr) (s : State)
  /-- It runs no operation. -/
  | quiet (s : State)
  /-- It refuses a request. -/
  | refuse (reason : Refusal)
deriving DecidableEq, Repr

/-- The next request of the service context (R103), for one who may have it (R258). With none, the block does nothing
of its own accord (R283). -/
def fetchRequest (s : State) : Fetched :=
  match s.requests with
  | [] => .quiet s
  | r :: rest =>
    match decode .op RxCond.afterReset r.message with
    | .ok i =>
      if r.asker.may s.dispatchPending i then .run i { s with requests := rest } else .refuse .notAllowed
    | .error e => .refuse (.badRequest e)

/-- The next part of the service context's work. -/
def fetchService (s : State) : Fetched :=
  if s.dispatchPending then fetchRequest s
  else
    match s.poll with
    | .stream [] => .quiet { s with poll := .idle }
    | .stream (b :: rest) =>
      if s.linked then .run (s.rowFor b) { s with poll := .stream rest }
      else .quiet { s with poll := .idle }
    | .netPop =>
      if s.linked then .run (.fifoPop .rxq) { s with poll := .netTake }
      else .quiet { s with poll := .idle }
    | .netTake =>
      match s.popped with
      | some b => .run (s.rowFor b) { s with poll := .netPop }
      | none => .quiet { s with poll := .idle }
    | .idle =>
      if s.servicing then
        if s.flushReq then .run .xportFlush { s with servicing := false }
        else .quiet { s with servicing := false }
      else fetchRequest s

/-- What the delivery context does: the next push of the delivery in progress, which ends with its last byte or with
the first rejected one (R207), and waits while there is no peer (R251, R259; log 9); else the next call. -/
def fetchDelivery (s : State) : Fetched :=
  match s.delivering with
  | none =>
    match s.deliveries with
    | [] => .quiet s
    | bytes :: later => .run (.xportDeliver bytes) { s with deliveries := later }
  | some d =>
    if s.deliverable then
      match d.rest with
      | [] => .quiet { s with delivering := none, delivered := d.accepted }
      | b :: rest =>
        if s.rxq.isFull s.params.rxCap then
          .run (.fifoPush .rxq b) { s with delivering := none, delivered := d.accepted }
        else
          .run (.fifoPush .rxq b) { s with delivering := some { rest := rest, accepted := d.accepted + 1 } }
    else .quiet s

/-- The step's context and what it does there. -/
def fetch (s : State) : Fetched :=
  match s.turns with
  | [] => fetchService s
  | .service :: later => fetchService { s with turns := later }
  | .delivery :: later => fetchDelivery { s with turns := later }

/-- A state in which the service context finds a request next (log 20). -/
def placeRequest (a : Asker) (message : List Byte) (s : State) : State :=
  { s with
    turns := .service :: s.turns
    requests := { asker := a, message := message } :: s.requests
    poll := .idle
    servicing := false }

/-- A state in which the delivery context has the next turn, with a peer to deliver from (log 20). -/
def placeDelivery (d : Option Delivery) (calls : List (List Byte)) (s : State) : State :=
  { s with turns := .delivery :: s.turns, session := .net, peer := true, delivering := d, deliveries := calls }

/-- A state in which `fetch` finds a named operation next, where the one whose operation it is asks for it (R11; log
20): a push of `rxq` in a delivery, a pop of `rxq` in a poll, `XPORT.DELIVER` as a call of the delivery path,
`SESSION.ERROR` as the backend's report, any other operation as a collaborator's request. -/
def placeOp (message : List Byte) (s : State) : State :=
  match decode .op RxCond.afterReset message with
  | .ok (.fifoPush .rxq b) => placeDelivery (some { rest := [b], accepted := 0 }) s.deliveries s
  | .ok (.xportDeliver bytes) => placeDelivery none (bytes :: s.deliveries) s
  | .ok (.fifoPop .rxq) =>
    { s with
      turns := .service :: s.turns, dispatchPending := false, session := .net, peer := true, poll := .netPop }
  | .ok .sessionError => placeRequest .backend message s
  | _ => placeRequest .caller message s

/-- A state in which `fetch` finds the given bytes next: a named operation by `placeOp`, a receive key as the one byte
of a stream poll, with the framer in the key's state (log 20). -/
def placeBytes (f : Format) (bytes : List Byte) (s : State) : State :=
  match f with
  | .op => placeOp bytes s
  | .rxb =>
    match bytes with
    | [b, code] =>
      match RxState.ofCode code with
      | some st =>
        { s with
          turns := .service :: s.turns
          dispatchPending := false
          session := .stream
          rxState := st
          poll := .stream [b] }
      | none => s
    | _ => s

end Sys2Proof.Machine
end

