-- ==== Sys2Proof/Machine/Step.lean ====
section
/-! DEFINITION. One step: run the operation the machine fetches (Fetch.lean), or do nothing where it fetches none. -/

namespace Sys2Proof.Machine

/-- One atomic step of the block (00_scope.md R10). -/
def step (s : State) : Host.Outcome State Fault Refusal :=
  match fetch s with
  | .run i t => exec i t
  | .quiet t => .next t
  | .refuse r => .refused r

/-- The state with the operation of a table word placed where `step` fetches next (log 20). -/
def State.withFetchWord (s : State) (nbits w : Nat) : State :=
  placeBytes (tableWordBytes nbits w).1 (tableWordBytes nbits w).2 s

end Sys2Proof.Machine
end

