-- ==== Sys2Proof/Safety.lean ====
section
/-! DEFINITION. The terms claims about the block use: what a FIFO holds, what a stream of received bytes does, what
the wire has carried, the invariant of the state, and the quiescent states of 70_reset_and_hazards.md R299. -/

namespace Sys2Proof.Machine

/-! ### Answers -/

/-- An answer with its next state changed. -/
def mapNext (f : State → State) : Answer → Answer
  | .next s => .next (f s)
  | .fault r => .fault r
  | .refused r => .refused r

/-! ### Received streams (30_encoding.md R104) -/

/-- `RX.STEP(b)` (R120): the row the state and the byte select, run. -/
def rxStep (b : Byte) (s : State) : Answer := exec (s.rowFor b) s

/-- `RX <- bytes` (R104): one receive step per byte, in order. -/
def rxRun : List Byte → State → Answer
  | [], s => .next s
  | b :: bs, s =>
    match rxStep b s with
    | .next t => rxRun bs t
    | .fault f => .fault f
    | .refused r => .refused r

/-- `n` steps of the machine. -/
def steps : Nat → State → Answer
  | 0, s => .next s
  | n + 1, s =>
    match step s with
    | .next t => steps n t
    | .fault f => .fault f
    | .refused r => .refused r

/-! ### FIFOs -/

/-- A FIFO after an accepted push (R180). -/
def Fifo.pushed (cap : Nat) (b : Byte) (f : Fifo) : Fifo where
  mem := f.mem.write f.head b
  head := nextIndex cap f.head
  tail := f.tail

/-- A FIFO after a run of accepted pushes. -/
def Fifo.pushedAll (cap : Nat) : List Byte → Fifo → Fifo
  | [], f => f
  | b :: bs, f => Fifo.pushedAll cap bs (f.pushed cap b)

/-- A byte offered by the encoder to `txq` (R164): a full one does not store it and raises `tx_fault`. -/
def State.offered (s : State) (b : Byte) : State :=
  if s.txq.isFull s.params.txCap then { s with txFault := true }
  else { s with txq := s.txq.pushed s.params.txCap b }

/-- What a FIFO holds, oldest first; none for a byte nothing has written. -/
def Fifo.contents (cap : Nat) (f : Fifo) : List (Option Byte) :=
  (List.range (f.count cap)).map fun k => f.mem.read ((f.tail + k) % cap)

/-- What is true of a FIFO of `cap` slots in every run: its indices are in range (R28), its store is in canonical
form and no larger than `cap`, and every slot from `tail` to `head` has been written (R181). -/
structure Fifo.Ok (cap : Nat) (f : Fifo) : Prop where
  head_lt : f.head < cap
  tail_lt : f.tail < cap
  mem_wf : f.mem.wf = true
  mem_lt : ∀ a b, f.mem.read a = some b → a < cap
  written : ∀ k, k < f.count cap → (f.mem.read ((f.tail + k) % cap)).isSome = true

/-- There is room for `n` more bytes. -/
def Fifo.fits (cap n : Nat) (f : Fifo) : Prop :=
  Fifo.Ok cap f ∧ f.count cap + n ≤ cap - 1

/-! ### The wire -/

/-- The bytes the backend has taken, in order (R37: `be_write`). -/
def wire : List Event → List Byte
  | [] => []
  | .beWrite bs :: es => bs ++ wire es
  | .haltReq :: es => wire es
  | .ackFail :: es => wire es
  | .dispatch _ _ :: es => wire es
  | .targetListReset :: es => wire es
  | .displayMsg :: es => wire es

/-! ### Invariant and quiescence -/

/-- What every state of a run from reset meets. -/
structure State.Inv (s : State) : Prop where
  params_valid : s.params.valid = true
  rxSize_le : s.rxSize ≤ s.params.pktMax
  rxq_ok : Fifo.Ok s.params.rxCap s.rxq
  txq_ok : Fifo.Ok s.params.txCap s.txq
  pkt_wf : s.pkt.wf = true
  pkt_le : ∀ a b, s.pkt.read a = some b → a ≤ s.params.pktMax
  pkt_written : ∀ k, k < s.rxSize → (s.pkt.read k).isSome = true
  dispatch_state : s.dispatchPending = true → s.rxState = .idle ∨ s.rxState = .ackWait
  peer_net : s.peer = true → s.session = .net
  rxq_idle : s.deliverable = false → s.rxq.head = s.rxq.tail

/-- The backend of the session has a byte to offer (log 36): on a stream its next answer to a read brings one, on a
network session with a peer a call of the delivery path still to come does; with no backend linked there is none. -/
def State.byteOffered (s : State) : Bool :=
  match s.session with
  | .inactive => false
  | .stream =>
    match s.beReads with
    | .bytes (_ :: _) :: _ => true
    | .bytes [] :: _ | .notReady :: _ | .error :: _ | [] => false
  | .net => s.peer && s.deliveries.any (fun bytes => !bytes.isEmpty)

/-- A poll in progress holds a byte it has read or popped and will step (R203, R204; log 36). -/
def State.byteHeld (s : State) : Bool :=
  match s.poll with
  | .stream (_ :: _) => s.linked
  | .netTake => s.popped.isSome
  | .stream [] | .netPop | .idle => false

/-- A quiescent state (R299): nothing waits in the block, a poll's own bytes included, no delivery is in progress and
the backend has no byte to offer. It is no halt (the spec's decision D37; logs 35 and 36). -/
def State.quiescent (s : State) : Bool :=
  !s.dispatchPending && !s.txFault && s.rxq.isEmpty && s.txq.isEmpty && !s.flushReq
    && s.delivering.isNone && !s.byteHeld && !s.byteOffered

/-- The premise of every claim about the hardware (R248): the model's own overflow fault has not been raised. -/
def State.sound (s : State) : Bool := !s.txFault

end Sys2Proof.Machine
end

