-- ==== Sys2Proof/Certificates/Slice0/Obligations.lean ====
section
/-! DEFINITION. The statements for the provers, each from the numbered rules of spec/. A statement that gives a
next state as the old one with named fields changed states its frame too: every field not named is as it was. -/

open Sys2Proof Sys2Proof.Machine

/-! ### Encoding -/

/-- Decoding the bytes of a well-formed operation gives it back, under every condition its row admits. -/
def Obligations.DecodeOfEncodeIsIdentity : Prop :=
  ∀ (c : RxCond) (i : Instr), i.wf = true → i.admits c = true →
    decode i.format c (encode i) = .ok i

/-- Bytes that decode have one reading: the operation decoded is well-formed, its row admits the condition, and it
encodes to those bytes. -/
def Obligations.DecodedBytesHaveOneReading : Prop :=
  ∀ (f : Format) (c : RxCond) (bytes : List Byte) (i : Instr), decode f c bytes = .ok i →
    i.wf = true ∧ i.admits c = true ∧ i.format = f ∧ encode i = bytes

/-- R102: the row the decoder selects is the first row of the table that matches the key and whose condition
holds, so every state, byte and condition has one. -/
def Obligations.SelectedRowIsFirstTableMatch : Prop :=
  ∀ (c : RxCond) (st : RxState) (b : Byte), firstMatch c (keyOf st b) = some (selectRow c st b)

/-- R101: codes 6 and 7 name no state: no row of the table matches a key with one, and the decoder rejects it. -/
def Obligations.CodesSixAndSevenNameNoState : Prop :=
  ∀ (c : RxCond) (b code : Byte), code = 0x06#8 ∨ code = 0x07#8 →
    firstMatch c ((code.setWidth 11 <<< 8) ||| b.setWidth 11) = none ∧
    decode .rxb c [b, code] = .error (.noSuchState code)

/-- Words written out from the tables of R102 and R103 decode to the operations they stand for. The codes and
selectors are the spec's decision D21 (log 35). That a key is two bytes, and that `0x270`, which both rows of `ESC`
match, is read with the conditions right after reset, is the model's choice (log 5), as are the operands of zeros (log
4). -/
def Obligations.WrittenOutWordsDecode : Prop :=
  decodeTableWord 16 0x024 = some .rxIdleStart ∧
  decodeTableWord 16 0x17D = some .rxCharEscape ∧
  decodeTableWord 16 0x270 = some (.rxEscData 0x70#8) ∧
  decodeTableWord 16 0x52D = some .rxAckwNack ∧
  decodeTableWord 8 0x02 = some (.txSendByte 0x00#8) ∧
  decodeTableWord 8 0x11 = some (.fifoPop .rxq) ∧
  decodeTableWord 8 0x21 = some .xportFlush ∧
  decodeTableWord 8 0x33 = some .sessionAccept ∧
  decodeTableWord 8 0x41 = some .dispatchFault

/-! ### The receive framer -/

/-- R121, R122, R123: what a byte does in `IDLE`. -/
def Obligations.IdleRows : Prop :=
  ∀ (s : State), s.dispatchPending = false → s.rxState = .idle →
    exec .rxIdleStart s = .next { s with rxSize := 0, rxCsum := 0x00#8, rxState := .char } ∧
    exec .rxIdleHalt s = .next { s with events := s.events ++ [.haltReq] } ∧
    ∀ b, b ≠ 0x24#8 → b ≠ 0x03#8 → exec (.rxIdleIgnore b) s = .next s

/-- R124, R125, R126: what `$`, `#` and the escape marker do in `CHAR`, whatever `rx_size` is (at `PKT_MAX` by the
spec's decision D5; that a restart emits nothing is D26; logs 27 and 35). -/
def Obligations.CharDelimiterRows : Prop :=
  ∀ (s : State), s.dispatchPending = false → s.rxState = .char →
    exec .rxCharRestart s = .next { s with rxSize := 0, rxCsum := 0x00#8, rxState := .char } ∧
    exec .rxCharEnd s = .next { s with rxState := .csum1 } ∧
    exec .rxCharEscape s = .next { s with rxCsum := s.rxCsum + 0x7D#8, rxState := .esc }

/-- R127: an ordinary body byte is stored at `rx_size`, counted and summed; every other byte of `pkt` is as it was. -/
def Obligations.CharDataStoresTheByte : Prop :=
  ∀ (s : State) (b : Byte), s.dispatchPending = false → s.rxState = .char →
    b ≠ 0x24#8 → b ≠ 0x23#8 → b ≠ 0x7D#8 → s.rxSize < s.params.pktMax →
    ∃ m, exec (.rxCharData b) s =
        .next { s with pkt := m, rxSize := s.rxSize + 1, rxCsum := s.rxCsum + b } ∧
      m.read s.rxSize = some b ∧ ∀ a, a ≠ s.rxSize → m.read a = s.pkt.read a

/-- R129: the byte after an escape marker is stored with bit 5 flipped and summed as received. -/
def Obligations.EscDataStoresTheUnescapedByte : Prop :=
  ∀ (s : State) (b : Byte), s.dispatchPending = false → s.rxState = .esc → s.rxSize < s.params.pktMax →
    ∃ m, exec (.rxEscData b) s =
        .next { s with pkt := m, rxSize := s.rxSize + 1, rxCsum := s.rxCsum + b, rxState := .char } ∧
      m.read s.rxSize = some (b ^^^ 0x20#8) ∧ ∀ a, a ≠ s.rxSize → m.read a = s.pkt.read a

/-- R131: the first checksum character is kept. That it is kept raw, a hex digit or not, and judged in `CSUM2`, is the
spec's decision D7 (log 21). -/
def Obligations.Csum1KeepsTheCharacter : Prop :=
  ∀ (s : State) (b : Byte), s.dispatchPending = false → s.rxState = .csum1 →
    exec (.rxCsum1Capture b) s = .next { s with rxC1 := b, rxState := .csum2 }

/-- R134, R135, R136: what `+`, `-` and `$` do in `ACK_WAIT`. -/
def Obligations.AckWaitRows : Prop :=
  ∀ (s : State), s.dispatchPending = false → s.rxState = .ackWait →
    exec .rxAckwAck s = .next { s with rxState := .idle } ∧
    exec .rxAckwNack s = .next { s with rxState := .idle, events := s.events ++ [.ackFail] } ∧
    exec .rxAckwStart s = .next { s with rxSize := 0, rxCsum := 0x00#8, rxState := .char }

/-- Any other byte in `ACK_WAIT` is dropped and the wait goes on: the spec's decision D9, stated by R137 (log 22). -/
def Obligations.AckWaitIgnoresOtherBytes : Prop :=
  ∀ (s : State) (b : Byte), s.dispatchPending = false → s.rxState = .ackWait →
    b ≠ 0x2B#8 → b ≠ 0x2D#8 → b ≠ 0x24#8 → exec (.rxAckwIgnore b) s = .next s

/-- R128, R130, R133: a full store, and a checksum that does not match, are answered by `TX.SEND_BYTE(0x2D)` and the
return to `IDLE`, and by nothing else: the rows are that send with `rx_state` changed, whatever the send does (the
spec's decisions D4 to D7; logs 21, 27 and 35). -/
def Obligations.RejectingRowsSendNakAndGoIdle : Prop :=
  ∀ (s : State) (b : Byte), s.dispatchPending = false →
    (s.rxState = .char → b ≠ 0x24#8 → b ≠ 0x23#8 → b ≠ 0x7D#8 → s.rxSize = s.params.pktMax →
      exec (.rxCharOverflow b) s =
        mapNext (fun t => { t with rxState := .idle }) (exec (.txSendByte 0x2D#8) s)) ∧
    (s.rxState = .esc → s.rxSize = s.params.pktMax →
      exec (.rxEscOverflow b) s =
        mapNext (fun t => { t with rxState := .idle }) (exec (.txSendByte 0x2D#8) s)) ∧
    (s.rxState = .csum2 → csumOk s.rxC1 b s.rxCsum = false →
      exec (.rxCsum2Bad b) s =
        mapNext (fun t => { t with rxState := .idle }) (exec (.txSendByte 0x2D#8) s))

/-- Where the three rejecting rows complete without a flush: with a backend linked, room in `txq` and the occupancy
after the push below `TX_NEAR_FULL`, the `-` is in `txq`, a flush is requested, and the framer is in `IDLE`. -/
def Obligations.RejectingRowsComplete : Prop :=
  ∀ (s : State) (b : Byte), s.dispatchPending = false → s.linked = true →
    s.txq.head < s.params.txCap → s.txq.isFull s.params.txCap = false →
    (s.txq.pushed s.params.txCap 0x2D#8).count s.params.txCap < s.params.txNearFull →
    (s.rxState = .char → b ≠ 0x24#8 → b ≠ 0x23#8 → b ≠ 0x7D#8 → s.rxSize = s.params.pktMax →
      exec (.rxCharOverflow b) s =
        .next { s with txq := s.txq.pushed s.params.txCap 0x2D#8, flushReq := true, rxState := .idle }) ∧
    (s.rxState = .esc → s.rxSize = s.params.pktMax →
      exec (.rxEscOverflow b) s =
        .next { s with txq := s.txq.pushed s.params.txCap 0x2D#8, flushReq := true, rxState := .idle }) ∧
    (s.rxState = .csum2 → csumOk s.rxC1 b s.rxCsum = false →
      exec (.rxCsum2Bad b) s =
        .next { s with txq := s.txq.pushed s.params.txCap 0x2D#8, flushReq := true, rxState := .idle })

/-- R132: where the checksum matches, the `+` goes out by `TX.SEND_BYTE` first; then the null is written at
`pkt[rx_size]`, the framer is in `IDLE`, and the payload and its length are dispatched. The first part is about every
send of the `+`: one whose flush met a backend error has taken `SESSION.ERROR`, and the step does nothing more (the
spec's decision D34; that its "step" is the whole receive step is log 12, DEDUCED). The second says what the whole is
where the `+` does not force a flush. `IDLE` before the dispatch is the spec's decision D10 (log 23). -/
def Obligations.GoodChecksumDispatches : Prop :=
  ∀ (s : State) (b : Byte), s.dispatchPending = false → s.rxState = .csum2 →
    csumOk s.rxC1 b s.rxCsum = true → s.rxSize ≤ s.params.pktMax → s.linked = true →
    (∀ t, exec (.txSendByte 0x2B#8) s = .next t →
      (t.linked = true →
        ∃ m, exec (.rxCsum2Good b) s =
            .next { t with
              pkt := m
              rxState := .idle
              dispatchPending := true
              events := t.events ++ [.dispatch (s.pkt.slice s.rxSize) s.rxSize] } ∧
          m.read s.rxSize = some 0x00#8 ∧ ∀ a, a ≠ s.rxSize → m.read a = s.pkt.read a) ∧
      (t.linked = false → exec (.rxCsum2Good b) s = .next t)) ∧
    (s.txq.head < s.params.txCap → s.txq.isFull s.params.txCap = false →
      (s.txq.pushed s.params.txCap 0x2B#8).count s.params.txCap < s.params.txNearFull →
      ∃ m, exec (.rxCsum2Good b) s =
          .next { s with
            txq := s.txq.pushed s.params.txCap 0x2B#8
            flushReq := true
            pkt := m
            rxState := .idle
            dispatchPending := true
            events := s.events ++ [.dispatch (s.pkt.slice s.rxSize) s.rxSize] } ∧
        m.read s.rxSize = some 0x00#8 ∧ ∀ a, a ≠ s.rxSize → m.read a = s.pkt.read a)

/-- R95, R132, R133: a checksum is accepted exactly where both characters are hex digits and spell it, the first being
the high digit: any other character, and any other value, is rejected. R94: a checksum rendered in two digits is
accepted as itself. That a non-digit is a mismatch is the spec's decision D7, that `A` to `F` are digits D8 (log 21),
the codes and the order of the digits D29 and D30 (log 26). -/
def Obligations.ChecksumDigits : Prop :=
  ∀ (digit : Byte → Nat → Prop),
    (∀ c n, digit c n ↔
      (0x30 ≤ c.toNat ∧ c.toNat ≤ 0x39 ∧ c.toNat = 0x30 + n) ∨
      (0x61 ≤ c.toNat ∧ c.toNat ≤ 0x66 ∧ c.toNat = 0x61 - 10 + n) ∨
      (0x41 ≤ c.toNat ∧ c.toNat ≤ 0x46 ∧ c.toNat = 0x41 - 10 + n)) →
    (∀ c1 b csum : Byte, csumOk c1 b csum = true ↔
      ∃ high low, digit c1 high ∧ digit b low ∧ high * 16 + low = csum.toNat) ∧
    ∀ c : Byte, csumOk (hexDigit (c.toNat / 16)) (hexDigit (c.toNat % 16)) c = true

/-! ### The transmit encoder -/

/-- R161, R164, R165: `TX.SEND_BYTE` pushes the byte, or raises `tx_fault` where `txq` is full, and then requests a
flush: deferred below `TX_NEAR_FULL`, carried out at once otherwise. -/
def Obligations.SendBytePushesAndRequestsFlush : Prop :=
  ∀ (s : State) (b : Byte), s.linked = true → s.txq.head < s.params.txCap →
    ∀ t, t = s.offered b →
      (t.txq.count t.params.txCap < t.params.txNearFull →
        exec (.txSendByte b) s = .next { t with flushReq := true }) ∧
      (t.params.txNearFull ≤ t.txq.count t.params.txCap →
        exec (.txSendByte b) s = exec .xportFlush t)

/-- R160, R163, R164, R165, R166: with a backend linked, `TX.SEND_PACKET` offers each byte of the packet to `txq` in
turn, arms `ACK_WAIT` and then requests a flush, once, after its last byte (the spec's decision D14; log 28);
`TX.SEND_CONSOLE` does so for its payload. -/
def Obligations.SendPacketOffersTheFrame : Prop :=
  ∀ (s : State) (i : Instr) (p : List Byte),
    (i = .txSendPacket p ∨ ∃ c, i = .txSendConsole c ∧ p = consolePayload c) →
    s.linked = true → Fifo.Ok s.params.txCap s.txq →
    ∀ t, t = { (packetBytes p).foldl (fun u b => u.offered b) s with rxState := .ackWait } →
      (t.txq.count t.params.txCap < t.params.txNearFull → exec i s = .next { t with flushReq := true }) ∧
      (t.params.txNearFull ≤ t.txq.count t.params.txCap → exec i s = exec .xportFlush t)

/-- Where a packet completes without a fault and without a flush: with room for all its bytes and the occupancy after
them below `TX_NEAR_FULL`, its bytes stand in `txq` and the framer is in `ACK_WAIT`. -/
def Obligations.SendPacketWithRoomCompletes : Prop :=
  ∀ (s : State) (p : List Byte), s.linked = true →
    (s.txq.fits s.params.txCap (packetBytes p).length →
      s.txq.count s.params.txCap + (packetBytes p).length < s.params.txNearFull →
      exec (.txSendPacket p) s =
        .next { s with
          txq := s.txq.pushedAll s.params.txCap (packetBytes p), rxState := .ackWait, flushReq := true }) ∧
    (s.txq.fits s.params.txCap (packetBytes (consolePayload p)).length →
      s.txq.count s.params.txCap + (packetBytes (consolePayload p)).length < s.params.txNearFull →
      exec (.txSendConsole p) s =
        .next { s with
          txq := s.txq.pushedAll s.params.txCap (packetBytes (consolePayload p))
          rxState := .ackWait
          flushReq := true })

/-- R90, R92, R93, R94, R163: the bytes of a packet, written out: `$`, each payload byte as itself or as the escape
marker and the byte with bit 5 flipped, `#`, and the sum modulo 256 of the bytes between in two lower-case digits; and
the payload of a console packet. High digit first is general knowledge in the spec, the console's digits its decision
D24 (log 26). -/
def Obligations.PacketFormat : Prop :=
  ∀ (p : List Byte) (digits body : List Byte),
    digits = [0x30#8, 0x31#8, 0x32#8, 0x33#8, 0x34#8, 0x35#8, 0x36#8, 0x37#8, 0x38#8, 0x39#8,
      0x61#8, 0x62#8, 0x63#8, 0x64#8, 0x65#8, 0x66#8] →
    body = p.flatMap (fun c => if c = 0x24#8 ∨ c = 0x23#8 ∨ c = 0x7D#8 then [0x7D#8, c ^^^ 0x20#8] else [c]) →
    packetBytes p =
      [0x24#8] ++ body ++ [0x23#8] ++
        [digits.getD ((body.foldl (· + ·) 0x00#8).toNat / 16) 0x00#8,
         digits.getD ((body.foldl (· + ·) 0x00#8).toNat % 16) 0x00#8] ∧
    consolePayload p =
      [0x4F#8] ++ p.flatMap (fun c => [digits.getD (c.toNat / 16) 0x00#8, digits.getD (c.toNat % 16) 0x00#8])

/-- R164, R248, R295: without room for all its bytes a packet raises `tx_fault`, and the step still ends (the spec's
decision D13; log 13). -/
def Obligations.PacketWithoutRoomRaisesTxFault : Prop :=
  ∀ (s : State) (p : List Byte), s.linked = true → Fifo.Ok s.params.txCap s.txq →
    s.params.txCap - 1 < s.txq.count s.params.txCap + (packetBytes p).length →
    ∃ t, exec (.txSendPacket p) s = .next t ∧ t.txFault = true

/-- R160, R92, R168: the number of bytes of a packet is the length, four, and one for each payload byte that is `$`,
`#` or the escape marker; neither `$` nor `#` stands in its body, so the body ends where the `#` is. -/
def Obligations.PacketLengthAndBody : Prop :=
  ∀ p : List Byte,
    (packetBytes p).length = p.length + 4 + (p.filter needsEscape).length ∧
    0x24#8 ∉ packetBody p ∧ 0x23#8 ∉ packetBody p

/-- R162, R249: the formatted send is refused on every path. -/
def Obligations.FormattedSendIsRefused : Prop :=
  ∀ (s : State) (operands : List Byte), exec (.txSendFmt operands) s = .refused .formatUndefined

/-! ### The byte FIFO -/

/-- R180: a push into a full FIFO changes nothing; any other writes the byte at `head` and advances `head`. The
result is whether the byte was accepted. -/
def Obligations.FifoPushWritesAtHead : Prop :=
  ∀ (s : State) (b : Byte),
    ((s.rxq.isFull s.params.rxCap = true → exec (.fifoPush .rxq b) s = .next { s with accepted := false }) ∧
     (s.rxq.isFull s.params.rxCap = false → s.rxq.head < s.params.rxCap →
       exec (.fifoPush .rxq b) s =
         .next { s with rxq := s.rxq.pushed s.params.rxCap b, accepted := true })) ∧
    ((s.txq.isFull s.params.txCap = true → exec (.fifoPush .txq b) s = .next { s with accepted := false }) ∧
     (s.txq.isFull s.params.txCap = false → s.txq.head < s.params.txCap →
       exec (.fifoPush .txq b) s =
         .next { s with txq := s.txq.pushed s.params.txCap b, accepted := true }))

/-- R181: a pop of an empty FIFO gives none; any other gives the byte at `tail` and advances `tail`. -/
def Obligations.FifoPopReadsAtTail : Prop :=
  ∀ (s : State),
    ((s.rxq.head = s.rxq.tail → exec (.fifoPop .rxq) s = .next { s with popped := none }) ∧
     (s.rxq.head ≠ s.rxq.tail → s.rxq.tail < s.params.rxCap → ∀ b, s.rxq.mem.read s.rxq.tail = some b →
       exec (.fifoPop .rxq) s =
         .next { s with rxq := { s.rxq with tail := (s.rxq.tail + 1) % s.params.rxCap }, popped := some b })) ∧
    ((s.txq.head = s.txq.tail → exec (.fifoPop .txq) s = .next { s with popped := none }) ∧
     (s.txq.head ≠ s.txq.tail → s.txq.tail < s.params.txCap → ∀ b, s.txq.mem.read s.txq.tail = some b →
       exec (.fifoPop .txq) s =
         .next { s with txq := { s.txq with tail := (s.txq.tail + 1) % s.params.txCap }, popped := some b }))

/-- R182: a FIFO reset sets both indices to 0 (the value is the spec's decision D20; log 29) and keeps the store. -/
def Obligations.FifoResetEmpties : Prop :=
  ∀ (s : State),
    exec (.fifoReset .rxq) s = .next { s with rxq := { s.rxq with head := 0, tail := 0 } } ∧
    exec (.fifoReset .txq) s = .next { s with txq := { s.txq with head := 0, tail := 0 } }

/-- R183: what the three status values say of one another. -/
def Obligations.FifoStatusAgrees : Prop :=
  ∀ (cap : Nat) (f : Fifo), f.head < cap → f.tail < cap →
    f.count cap ≤ cap - 1 ∧ (f.isEmpty = true ↔ f.count cap = 0) ∧
    (f.isFull cap = true ↔ f.count cap = cap - 1)

/-- R71, R186: bytes come out of a FIFO in the order they went in: an accepted push adds its byte at the end of what
the FIFO holds, and a pop takes the oldest. -/
def Obligations.FifoKeepsOrder : Prop :=
  ∀ (s t : State) (q : Queue), Fifo.Ok (slots s.params q) (s.fifo q) →
    (∀ b, exec (.fifoPush q b) s = .next t → t.accepted = true →
      (t.fifo q).contents (slots t.params q) = (s.fifo q).contents (slots s.params q) ++ [some b]) ∧
    (∀ b, exec (.fifoPush q b) s = .next t → t.accepted = false →
      (t.fifo q).contents (slots t.params q) = (s.fifo q).contents (slots s.params q)) ∧
    (exec (.fifoPop q) s = .next t →
      (t.popped = none ∧ (s.fifo q).contents (slots s.params q) = [] ∧
        (t.fifo q).contents (slots t.params q) = []) ∨
      ∃ b, t.popped = some b ∧
        (s.fifo q).contents (slots s.params q) = some b :: (t.fifo q).contents (slots t.params q))

/-! ### Transport -/

/-- R201, R184, R185: a write accepts the longest run of its first bytes that fits, in order, and gives its length;
with no backend linked it accepts none (the spec's decision D16; log 30). -/
def Obligations.WriteAcceptsThePrefixThatFits : Prop :=
  ∀ (s : State) (bytes : List Byte),
    (s.linked = true → Fifo.Ok s.params.txCap s.txq →
      ∀ n, n = min bytes.length (s.params.txCap - 1 - s.txq.count s.params.txCap) →
        exec (.xportWrite bytes) s =
          .next { s with txq := s.txq.pushedAll s.params.txCap (bytes.take n), bytesAccepted := n }) ∧
    (s.linked = false → exec (.xportWrite bytes) s = .next { s with bytesAccepted := 0 })

/-- R207: a delivery begins where there is a peer to deliver from, and is refused where there is none. With no step of
the service context between its turns (one to begin, one for each byte accepted, one that ends it: log 8) it accepts the
longest run of its first bytes that fits into `rxq` and gives its length. -/
def Obligations.DeliverAcceptsThePrefixThatFits : Prop :=
  ∀ (s : State) (bytes : List Byte),
    (s.session = .net → s.peer = true → s.delivering = none →
      exec (.xportDeliver bytes) s = .next { s with delivering := some { rest := bytes, accepted := 0 } } ∧
      ∀ n turns later, Fifo.Ok s.params.rxCap s.rxq →
        n = min bytes.length (s.params.rxCap - 1 - s.rxq.count s.params.rxCap) →
        s.turns = List.replicate (n + 2) .delivery ++ turns → s.deliveries = bytes :: later →
        ∃ accepted, steps (n + 2) s =
          .next { s with
            turns := turns
            deliveries := later
            rxq := s.rxq.pushedAll s.params.rxCap (bytes.take n)
            accepted := accepted
            delivered := n }) ∧
    (s.session ≠ .net ∨ s.peer = false → exec (.xportDeliver bytes) s = .refused .noPeer)

/-- R202 with no error among the backend's answers: a flush always ends; what the backend took is a run of the first
bytes of `txq`, it is on the wire in order, the rest stays in `txq`, and the request survives only where
`FLUSH_KEEPS_REQ` holds and bytes are left. Nothing else of the block changes. -/
def Obligations.FlushMovesTheOldestBytesToTheWire : Prop :=
  ∀ (s : State), s.linked = true → Fifo.Ok s.params.txCap s.txq →
    (∀ a, a ∈ s.beWrites → a ≠ .error) →
    ∃ tail events answers sent,
      exec .xportFlush s =
        .next { s with
          txq := { s.txq with tail := tail }
          events := s.events ++ events
          beWrites := answers
          flushReq := s.params.flushKeepsReq && !decide (s.txq.head = tail) } ∧
      wire events = sent ∧
      s.txq.contents s.params.txCap =
        sent.map some ++ ({ s.txq with tail := tail } : Fifo).contents s.params.txCap

/-- R202, R205: a flush and a poll with no backend linked change nothing (the spec's decision D16; log 30). -/
def Obligations.NothingMovesWithNoBackend : Prop :=
  ∀ (s : State), s.linked = false →
    exec .xportFlush s = .next s ∧
    (s.dispatchPending = false → s.poll = .idle → s.servicing = false → exec .xportPoll s = .next s)

/-- R202, R213: a flush pass by pass. With no backend linked nothing changes. An empty `txq` ends it; an `error` is the
session's error and nothing more; a backend that takes nothing ends it; one that takes `k` bytes of those `txq` holds
gets the oldest of them, and the flush goes on with the rest. -/
def Obligations.FlushFollowsTheAnswers : Prop :=
  ∀ (s : State),
    (s.linked = false → exec .xportFlush s = .next s) ∧
    (s.linked = true → Fifo.Ok s.params.txCap s.txq →
      (s.txq.head = s.txq.tail → exec .xportFlush s = .next { s with flushReq := false }) ∧
      (s.txq.head ≠ s.txq.tail → ∀ rest, s.beWrites = .error :: rest →
        exec .xportFlush s = exec .sessionError { s with beWrites := rest }) ∧
      (s.txq.head ≠ s.txq.tail → ∀ rest, s.beWrites = .takes 0 :: rest →
        exec .xportFlush s =
          .next { s with
            beWrites := rest
            events := s.events ++ [.beWrite []]
            flushReq := s.params.flushKeepsReq }) ∧
      (∀ k rest, s.beWrites = .takes k :: rest → 0 < k → k ≤ s.txq.count s.params.txCap →
        ∃ sent, sent.map some = (s.txq.contents s.params.txCap).take k ∧
          exec .xportFlush s =
            exec .xportFlush { s with
              beWrites := rest
              events := s.events ++ [.beWrite sent]
              txq := { s.txq with tail := (s.txq.tail + k) % s.params.txCap } }))

/-- What the model does where it is given no further answer of the backend (log 6, a DESIGN CHOICE): nothing to read,
and no more capacity. -/
def Obligations.NoAnswerIsNothing : Prop :=
  ∀ (s : State),
    (s.session = .stream → s.beReads = [] → s.dispatchPending = false → s.poll = .idle → s.servicing = false →
      exec .xportPoll s = .next s ∧ exec .xportService s = .next { s with servicing := true }) ∧
    (s.linked = true → s.beWrites = [] → s.txq.head ≠ s.txq.tail →
      exec .xportFlush s =
        .next { s with events := s.events ++ [.beWrite []], flushReq := s.params.flushKeepsReq })

/-- R203, R204, R206: what a poll and a service pass start, by session; the read of a stream backend is the next of
its answers (logs 6 and 8). -/
def Obligations.PollStartsBySession : Prop :=
  ∀ (s : State), s.dispatchPending = false → s.poll = .idle → s.servicing = false →
    (s.session = .stream → ∀ bs rest, s.beReads = .bytes bs :: rest →
      exec .xportPoll s = .next { s with poll := .stream bs, beReads := rest } ∧
      exec .xportService s = .next { s with poll := .stream bs, beReads := rest, servicing := true }) ∧
    (s.session = .stream → ∀ rest, s.beReads = .notReady :: rest →
      exec .xportPoll s = .next { s with beReads := rest } ∧
      exec .xportService s = .next { s with beReads := rest, servicing := true }) ∧
    (s.session = .stream → ∀ rest, s.beReads = .error :: rest →
      exec .xportPoll s = exec .sessionError { s with beReads := rest } ∧
      exec .xportService s =
        mapNext (fun t => { t with servicing := true }) (exec .sessionError { s with beReads := rest })) ∧
    (s.session = .net → s.peer = true →
      exec .xportPoll s = .next { s with poll := .netPop } ∧
      exec .xportService s = .next { s with poll := .netPop, servicing := true }) ∧
    (s.linked = false → exec .xportService s = .next { s with servicing := true })

/-! ### Steps -/

/-- A step runs the decoded request: where the service context moves, with a dispatch in progress or no poll and no
service pass, the next request's operation runs in the state without that request. R182, R187, R207, R213, R215, R249:
barred, and so refused, are the FIFO operations and a delivery, which are no requests of the service context,
`SESSION.ERROR` but as the backend's report outside a dispatch, and any other operation but the handling of a
connection or a disconnection where the backend is the one who asks (log 19). -/
def Obligations.StepRunsTheDecodedRequest : Prop :=
  ∀ (s : State) (r : Request) (rest : List Request) (i : Instr) (barred : Prop),
    s.turns.head? ≠ some .delivery → s.requests = r :: rest →
    decode .op RxCond.afterReset r.message = .ok i →
    (s.dispatchPending = true ∨ (s.poll = .idle ∧ s.servicing = false)) →
    (barred ↔
      (∃ q b, i = .fifoPush q b) ∨ (∃ q, i = .fifoPop q) ∨ (∃ q, i = .fifoReset q) ∨
      (∃ bytes, i = .xportDeliver bytes) ∨
      (i = .sessionError ∧ (r.asker = .caller ∨ s.dispatchPending = true)) ∨
      (r.asker = .backend ∧ i ≠ .sessionError ∧ i ≠ .sessionAccept ∧ i ≠ .sessionDisconnect)) →
    (¬barred → step s = exec i { s with turns := s.turns.tail, requests := rest }) ∧
    (barred → step s = .refused .notAllowed)

/-- R203: a step of a stream poll runs the receive step of the next byte while a backend is linked, and ends the poll
otherwise or after the last byte. -/
def Obligations.StepRunsTheStreamPoll : Prop :=
  ∀ (s : State), s.turns.head? ≠ some .delivery → s.dispatchPending = false →
    (∀ b rest, s.poll = .stream (b :: rest) → s.linked = true →
      step s = rxStep b { s with turns := s.turns.tail, poll := .stream rest }) ∧
    (∀ b rest, s.poll = .stream (b :: rest) → s.linked = false →
      step s = .next { s with turns := s.turns.tail, poll := .idle }) ∧
    (s.poll = .stream [] → step s = .next { s with turns := s.turns.tail, poll := .idle })

/-- R204, R206: a network poll pops one byte, runs its receive step, and pops again; it ends at the first pop that
finds `rxq` empty, and where no peer is left. A service pass flushes after its poll if a flush is requested. -/
def Obligations.StepRunsTheNetworkPoll : Prop :=
  ∀ (s : State), s.turns.head? ≠ some .delivery → s.dispatchPending = false →
    (s.poll = .netPop → s.linked = true →
      step s = exec (.fifoPop .rxq) { s with turns := s.turns.tail, poll := .netTake }) ∧
    (s.poll = .netPop → s.linked = false → step s = .next { s with turns := s.turns.tail, poll := .idle }) ∧
    (s.poll = .netTake → ∀ b, s.popped = some b →
      step s = rxStep b { s with turns := s.turns.tail, poll := .netPop }) ∧
    (s.poll = .netTake → s.popped = none → step s = .next { s with turns := s.turns.tail, poll := .idle }) ∧
    (s.poll = .idle → s.servicing = true → s.flushReq = true →
      step s = exec .xportFlush { s with turns := s.turns.tail, servicing := false }) ∧
    (s.poll = .idle → s.servicing = true → s.flushReq = false →
      step s = .next { s with turns := s.turns.tail, servicing := false })

/-- R283: the block does nothing of its own accord (log 15): with no request, no poll, no service pass and no turn of the
delivery context a step changes nothing but the schedule it reads. -/
def Obligations.NothingHappensUnasked : Prop :=
  ∀ (s : State), s.turns.head? ≠ some .delivery → s.requests = [] →
    (s.dispatchPending = true ∨ (s.poll = .idle ∧ s.servicing = false)) →
    step s = .next { s with turns := s.turns.tail }

/-- R207, R217: a turn of the delivery context changes nothing of the block but `rxq.head` and `rxq.mem`. With no
delivery in progress it begins the next one, which is refused where there is no peer (R249). With one in progress it
pushes the next byte; a rejected byte ends the delivery, and so does the end of its bytes; with no peer the delivery
waits (log 9, DEDUCED). -/
def Obligations.DeliveryTurnOnlyPushes : Prop :=
  ∀ (s : State) (turns : List Context), s.turns = .delivery :: turns → Fifo.Ok s.params.rxCap s.rxq →
    (s.delivering = none → s.deliveries = [] → step s = .next { s with turns := turns }) ∧
    (s.delivering = none → ∀ bytes later, s.deliveries = bytes :: later →
      (s.session = .net → s.peer = true →
        step s = .next { s with
          turns := turns, deliveries := later, delivering := some { rest := bytes, accepted := 0 } }) ∧
      (s.session ≠ .net ∨ s.peer = false → step s = .refused .noPeer)) ∧
    (∀ d, s.delivering = some d →
      (s.session ≠ .net ∨ s.peer = false → step s = .next { s with turns := turns }) ∧
      (s.session = .net → s.peer = true →
        (d.rest = [] →
          step s = .next { s with turns := turns, delivering := none, delivered := d.accepted }) ∧
        (∀ b rest, d.rest = b :: rest → s.rxq.isFull s.params.rxCap = true →
          step s = .next { s with
            turns := turns, delivering := none, delivered := d.accepted, accepted := false }) ∧
        (∀ b rest, d.rest = b :: rest → s.rxq.isFull s.params.rxCap = false →
          step s = .next { s with
            turns := turns
            delivering := some { rest := rest, accepted := d.accepted + 1 }
            rxq := s.rxq.pushed s.params.rxCap b
            accepted := true })))

/-! ### Sessions, reset and completions -/

/-- R214 and R208 to R212: each session operation resets the framer, both FIFOs and the flush request, and writes
`session` and `peer`; everything else is as it was (the values are the spec's decision D20, what outlives a disconnect
its decision D18; logs 29 and 30). -/
def Obligations.SessionOperationsReset : Prop :=
  ∀ (s r : State), s.dispatchPending = false →
    r = { s with
      rxState := .idle, rxSize := 0, rxCsum := 0x00#8
      rxq := { s.rxq with head := 0, tail := 0 }
      txq := { s.txq with head := 0, tail := 0 }
      flushReq := false } →
    (s.session = .inactive → ∀ h, exec (.sessionInitStream h) s = .next { r with session := .stream }) ∧
    (s.session = .inactive → ∀ p,
      exec (.sessionInitNet p) s = .next { r with session := .net, peer := false }) ∧
    exec .sessionDeinit s = .next { r with session := .inactive, peer := false } ∧
    (s.session = .net → exec .sessionAccept s = .next { r with peer := true }) ∧
    (s.session = .net → s.peer = true → exec .sessionDisconnect s = .next { r with peer := false })

/-- R213: a transport error resets the block and ends the stream session or the connection, inside a dispatch too;
`dispatch_pending` is left as it is. Where it leaves the session is the spec's decision D19 (log 30). -/
def Obligations.SessionErrorTearsDown : Prop :=
  ∀ (s r : State),
    r = { s with
      rxState := .idle, rxSize := 0, rxCsum := 0x00#8
      rxq := { s.rxq with head := 0, tail := 0 }
      txq := { s.txq with head := 0, tail := 0 }
      flushReq := false } →
    (s.session = .stream → exec .sessionError s = .next { r with session := .inactive }) ∧
    (s.session = .net → exec .sessionError s = .next { r with peer := false }) ∧
    (s.session = .inactive → exec .sessionError s = .next r)

/-- R138: the completion without a fault. -/
def Obligations.DispatchOkCompletes : Prop :=
  ∀ (s : State), s.dispatchPending = true →
    exec .dispatchOk s = .next { s with dispatchPending := false }

/-- R139: the completion with a fault sends the packet `EFF` by `TX.SEND_PACKET`, emits its two events in order and
ends the dispatch (route and order are the spec's decision D12; log 28). The first part is about every send of that
packet: one whose flush met a backend error has taken `SESSION.ERROR`, and the step does nothing more (the spec's
decision D34; that its "step" is the whole completion is log 12, DEDUCED). The second says what the whole is with room
for seven bytes and no forced flush: `$EFF#d1` stands in `txq` and the framer is in `ACK_WAIT`. -/
def Obligations.DispatchFaultSendsTheErrorPacket : Prop :=
  ∀ (s : State), s.dispatchPending = true →
    (∀ t, exec (.txSendPacket [0x45#8, 0x46#8, 0x46#8]) s = .next t →
      (t.linked = true →
        exec .dispatchFault s =
          .next { t with
            events := t.events ++ [.targetListReset, .displayMsg], dispatchPending := false }) ∧
      (t.linked = false → exec .dispatchFault s = .next t)) ∧
    (s.linked = true → s.txq.fits s.params.txCap 7 →
      s.txq.count s.params.txCap + 7 < s.params.txNearFull →
      exec .dispatchFault s =
        .next { s with
          txq := s.txq.pushedAll s.params.txCap
            [0x24#8, 0x45#8, 0x46#8, 0x46#8, 0x23#8, 0x64#8, 0x31#8]
          rxState := .ackWait
          flushReq := true
          dispatchPending := false
          events := s.events ++ [.targetListReset, .displayMsg] })

/-- R249, R213: what is refused, and where: the operations themselves; who may ask for one is
StepRunsTheDecodedRequest (the spec's decisions D11, D16, D17 and D25; logs 25 and 30). With no backend linked that is
every operation that sends: the receive rows that send `+` or `-` and the completion with a fault too. -/
def Obligations.RefusedRequests : Prop :=
  ∀ (s : State) (b : Byte) (l : List Byte),
    (s.dispatchPending = true →
      rxStep b s = .refused .dispatchInProgress ∧
      exec .xportPoll s = .refused .reentry ∧
      exec .xportService s = .refused .reentry ∧
      exec (.sessionInitStream l) s = .refused .dispatchInProgress ∧
      exec (.sessionInitNet l) s = .refused .dispatchInProgress ∧
      exec .sessionDeinit s = .refused .dispatchInProgress ∧
      exec .sessionAccept s = .refused .dispatchInProgress ∧
      exec .sessionDisconnect s = .refused .dispatchInProgress) ∧
    (s.dispatchPending = false →
      exec .dispatchOk s = .refused .noDispatch ∧
      exec .dispatchFault s = .refused .noDispatch ∧
      (s.session ≠ .inactive →
        exec (.sessionInitStream l) s = .refused .sessionActive ∧
        exec (.sessionInitNet l) s = .refused .sessionActive) ∧
      (s.session ≠ .net →
        exec .sessionAccept s = .refused .noListener ∧
        exec .sessionDisconnect s = .refused .noListener) ∧
      (s.session = .net → s.peer = false → exec .sessionDisconnect s = .refused .noConnection)) ∧
    (s.linked = false →
      exec (.txSendPacket l) s = .refused .notLinked ∧
      exec (.txSendByte b) s = .refused .notLinked ∧
      exec (.txSendConsole l) s = .refused .notLinked ∧
      (s.dispatchPending = true → exec .dispatchFault s = .refused .notLinked) ∧
      (s.dispatchPending = false →
        (s.rxState = .char → b ≠ 0x24#8 → b ≠ 0x23#8 → b ≠ 0x7D#8 → s.rxSize = s.params.pktMax →
          exec (.rxCharOverflow b) s = .refused .notLinked) ∧
        (s.rxState = .esc → s.rxSize = s.params.pktMax → exec (.rxEscOverflow b) s = .refused .notLinked) ∧
        (s.rxState = .csum2 →
          (csumOk s.rxC1 b s.rxCsum = true → exec (.rxCsum2Good b) s = .refused .notLinked) ∧
          (csumOk s.rxC1 b s.rxCsum = false → exec (.rxCsum2Bad b) s = .refused .notLinked))))

/-- R20, R41: the state right after power-on, for every choice of the parameters; the values the spec gives
(of which `rx_size`, `rx_csum` and the indices are its decision D20; log 29). -/
def Obligations.ResetValues : Prop :=
  ∀ (p : Params) (s : State), s = State.resetWith p →
    s.params = p ∧ s.rxState = .idle ∧ s.rxSize = 0 ∧ s.rxCsum = 0x00#8 ∧ s.dispatchPending = false ∧
    s.rxq.head = 0 ∧ s.rxq.tail = 0 ∧ s.txq.head = 0 ∧ s.txq.tail = 0 ∧ s.flushReq = false ∧
    s.session = .inactive ∧ s.peer = false ∧ s.txFault = false

/-! ### Invariants and rules of the whole machine -/

/-- The invariant holds at reset, for every choice of the parameters the spec admits and for the machine's own. -/
def Obligations.ResetMeetsTheInvariant : Prop :=
  (∀ p : Params, p.valid = true → (State.resetWith p).Inv) ∧ State.reset.Inv

/-- The invariant of the state: indices in range, stores in canonical form and in range, every slot between `tail`
and `head` written, `rx_size` at most `PKT_MAX`, `rxq` empty but with a network peer (R29). Every step keeps it. The
sizes of `pkt` are the spec's decision D4 (log 27). That `rx_state` is `IDLE` or `ACK_WAIT` during a dispatch rests on its
decision D10 (log 23, unsafe), the peer clause on its decision D18 (log 30), the `rxq` clause on who may push and when
(logs 9 and 19). -/
def Obligations.StepKeepsTheInvariant : Prop :=
  ∀ s t : State, s.Inv → step s = .next t → t.Inv

/-- R41, R62, R181: no store is accessed outside its bytes, and no byte is read that nothing has written: from a state
that meets the invariant no step ends in a fault. -/
def Obligations.NoStepFaults : Prop :=
  ∀ (s : State) (f : Fault), s.Inv → step s ≠ .fault f

/-- R36, R248: no step clears `tx_fault`. -/
def Obligations.TxFaultIsNeverCleared : Prop :=
  ∀ s t : State, step s = .next t → s.txFault = true → t.txFault = true

/-- R5 to R8, R40: no step changes a parameter, and no step takes back an event. -/
def Obligations.ParametersFixedAndEventsKept : Prop :=
  ∀ s t : State, step s = .next t → t.params = s.params ∧ ∃ es, t.events = s.events ++ es

/-- R145, R166: only an operation that sends a packet takes the framer into `ACK_WAIT`. -/
def Obligations.OnlyPacketsArmAckWait : Prop :=
  ∀ (i : Instr) (s t : State), exec i s = .next t → s.rxState ≠ .ackWait → t.rxState = .ackWait →
    (∃ p, i = .txSendPacket p) ∨ (∃ c, i = .txSendConsole c) ∨ i = .dispatchFault

/-- R145, R294: `ACK_WAIT` is left only by a byte `+`, `-` or `$` and by a reset of the block. That no other byte ends
the wait is the spec's decision D9 (log 22), the zeros of the reset are its decision D20 (log 29). -/
def Obligations.AckWaitEndsOnlyByItsBytesOrAReset : Prop :=
  ∀ (i : Instr) (s t : State), exec i s = .next t → s.rxState = .ackWait → t.rxState ≠ .ackWait →
    i = .rxAckwAck ∨ i = .rxAckwNack ∨ i = .rxAckwStart ∨
    (t.rxState = .idle ∧ t.rxSize = 0 ∧ t.rxCsum = 0x00#8 ∧ t.rxq.head = 0 ∧ t.rxq.tail = 0 ∧
      t.txq.head = 0 ∧ t.txq.tail = 0 ∧ t.flushReq = false)

/-- R122, R250: a halt is requested only by the control byte in `IDLE`, once for each. That it requests none in
`ACK_WAIT` is the spec's decision D9 (log 22). -/
def Obligations.HaltOnlyFromIdle : Prop :=
  ∀ (i : Instr) (s t : State), exec i s = .next t →
    t.events.count .haltReq = s.events.count .haltReq ∨
    (i = .rxIdleHalt ∧ s.rxState = .idle ∧ t.events.count .haltReq = s.events.count .haltReq + 1)

/-- R25, R32, R60, R69, R187: only the receive rows that store a byte or the null write the payload store, only a push
writes the store of `rxq`, and only a push, a write and the operations that send write that of `txq`. A step of the
service context writes no byte of `rxq` and its `head` only in a reset, which empties it; a step of the delivery context
leaves its `tail`. -/
def Obligations.StoresHaveTheirWriters : Prop :=
  (∀ (i : Instr) (s t : State), exec i s = .next t →
    (t.pkt ≠ s.pkt → ∃ b, i = .rxCharData b ∨ i = .rxEscData b ∨ i = .rxCsum2Good b) ∧
    (t.rxq.mem ≠ s.rxq.mem → ∃ b, i = .fifoPush .rxq b) ∧
    (t.txq.mem ≠ s.txq.mem →
      (∃ b, i = .fifoPush .txq b ∨ i = .txSendByte b ∨
        i = .rxCharOverflow b ∨ i = .rxEscOverflow b ∨ i = .rxCsum2Good b ∨ i = .rxCsum2Bad b) ∨
      (∃ bytes, i = .xportWrite bytes ∨ i = .txSendPacket bytes ∨ i = .txSendConsole bytes) ∨
      i = .dispatchFault) ∧
    (t.rxC1 ≠ s.rxC1 → ∃ b, i = .rxCsum1Capture b)) ∧
  ∀ s t : State, step s = .next t →
    (s.turns.head? ≠ some .delivery →
      t.rxq.mem = s.rxq.mem ∧ (t.rxq.head = s.rxq.head ∨ (t.rxq.head = 0 ∧ t.rxq.tail = 0))) ∧
    (s.turns.head? = some .delivery → t.rxq.tail = s.rxq.tail)

/-- R74: while a dispatch is in progress no step changes the payload store, and `rx_size` changes only where a
transport error has ended the session or the connection. -/
def Obligations.PayloadKeptDuringDispatch : Prop :=
  ∀ s t : State, s.dispatchPending = true → step s = .next t →
    t.pkt = s.pkt ∧ (t.rxSize = s.rxSize ∨ (t.rxSize = 0 ∧ t.linked = false))

/-- R27: no operation sets `rx_size` to 0 and leaves `rx_csum`. -/
def Obligations.SizeAndChecksumResetTogether : Prop :=
  ∀ (i : Instr) (s t : State), exec i s = .next t → s.rxSize ≠ 0 → t.rxSize = 0 → t.rxCsum = 0x00#8

/-- R142: the bytes the encoder writes for a payload, received by a framer in `IDLE`, `CHAR` or `ACK_WAIT`, are
answered by exactly one `+` and no `-`, and dispatch exactly that payload and its length, followed by the null. That
the framer is in `IDLE` with the dispatch pending is the spec's decision D10 (log 23, unsafe), that a payload of exactly
`PKT_MAX` bytes is accepted its decision D5, and that the null still fits its decision D4 (log 27). The premises on `txq`
keep the `+` from overflowing and from forcing a flush, which GoodChecksumDispatches covers. -/
def Obligations.EncodedPacketRoundTrips : Prop :=
  ∀ (s : State) (p : List Byte), p.length ≤ s.params.pktMax → s.dispatchPending = false →
    s.rxState = .idle ∨ s.rxState = .char ∨ s.rxState = .ackWait →
    s.linked = true → s.txq.head < s.params.txCap → s.txq.isFull s.params.txCap = false →
    (s.txq.pushed s.params.txCap 0x2B#8).count s.params.txCap < s.params.txNearFull →
    ∃ t, rxRun (packetBytes p) s = .next t ∧
      t.events = s.events ++ [.dispatch (p.map some) p.length] ∧
      t.txq = s.txq.pushed s.params.txCap 0x2B#8 ∧
      t.rxState = .idle ∧ t.rxSize = p.length ∧ t.dispatchPending = true ∧
      t.pkt.slice (p.length + 1) = p.map some ++ [some 0x00#8]

/-- R93, R143: let a framer in a body receive bytes of which none is a `$` but right after an escape marker. Where
they leave it in the body, `rx_csum` has grown by the sum modulo 256 of those bytes as received, and a `#` that enters
`CSUM1` keeps that sum. (A frame's start sets `rx_csum` to 0.) -/
def Obligations.RunningChecksumIsTheWireSum : Prop :=
  ∀ (bytes : List Byte) (s t : State), s.rxState = .char ∨ s.rxState = .esc →
    (∀ xs b ys u, bytes = xs ++ b :: ys → rxRun xs s = .next u → u.rxState ≠ .esc → b ≠ 0x24#8) →
    rxRun bytes s = .next t →
    (t.rxState = .char ∨ t.rxState = .esc → t.rxCsum = s.rxCsum + checksum bytes) ∧
    (t.rxState = .char → ∀ v, rxStep 0x23#8 t = .next v →
      v.rxState = .csum1 ∧ v.rxCsum = s.rxCsum + checksum bytes)

/-- R203, and R141 for a stream that dispatches nothing before its last byte: the steps of a poll are the receive steps
of its bytes, and cutting the bytes into two polls leads to the same state. -/
def Obligations.ChunkedPollsDoTheSame : Prop :=
  ∀ (xs ys : List Byte) (s t : State), s.turns = [] → s.linked = true → s.dispatchPending = false →
    rxRun (xs ++ ys) s = .next t → t.linked = true →
    steps (xs ++ ys).length { s with poll := .stream (xs ++ ys) } = .next { t with poll := .stream [] } ∧
    ∃ u, steps xs.length { s with poll := .stream xs } = .next u ∧ u.poll = .stream [] ∧
      steps ys.length { u with poll := .stream ys } = .next { t with poll := .stream [] }
end

