-- ==== Sys2Proof/Laws/Memory.lean ====
section
/-! SUPPORT. The laws of a store's contents: reading after writing, and the canonical form every write keeps. -/

namespace Sys2Proof.Machine

@[simp] theorem Memory.read_nil (a : Nat) : Memory.read [] a = none := rfl

theorem Memory.read_cons (c : Host.Cell) (m : Memory) (a : Nat) :
    Memory.read (c :: m) a = if c.1 = a then some c.2 else Memory.read m a := rfl

/-- A read gives the byte last written at its index, and what was there before anywhere else. -/
theorem Memory.read_write (m : Memory) (a b : Nat) (x : Byte) :
    (m.write a x).read b = if b = a then some x else m.read b := by
  induction m with
  | nil => simp [Memory.write, Memory.read, eq_comm]
  | cons c m ih =>
    simp only [Memory.write]
    split
    · simp [Memory.read, eq_comm]
    · split
      · rename_i h; subst h; simp only [Memory.read, eq_comm (a := b)]; split <;> simp_all
      · simp only [Memory.read, ih]; split <;> split <;> simp_all

@[simp] theorem Memory.read_write_same (m : Memory) (a : Nat) (x : Byte) :
    (m.write a x).read a = some x := by simp [Memory.read_write]

/-- Every index a memory lists is above a bound. -/
theorem Memory.wf_cons (c : Host.Cell) (m : Memory) :
    Memory.wf (c :: m) = true ↔ (∀ d ∈ m.head?, c.1 < d.1) ∧ Memory.wf m = true := by
  cases m <;> simp [Memory.wf]

theorem Memory.head_write (m : Memory) (a : Nat) (x : Byte) (d : Host.Cell)
    (h : d ∈ (m.write a x).head?) : d.1 = a ∨ ∃ e ∈ m.head?, d.1 = e.1 := by
  cases m with
  | nil => left; simp [Memory.write] at h; simp [← h]
  | cons c m =>
    simp only [Memory.write] at h
    split at h
    · left; simp at h; simp [← h]
    · split at h
      · left; simp at h; simp [← h]
      · right; simp at h; exact ⟨c, by simp, by simp [← h]⟩

/-- A write keeps the canonical form. -/
theorem Memory.wf_write (m : Memory) (a : Nat) (x : Byte) (h : m.wf = true) :
    (m.write a x).wf = true := by
  induction m with
  | nil => rfl
  | cons c m ih =>
    rw [Memory.wf_cons] at h
    simp only [Memory.write]
    split
    · rename_i hlt
      rw [Memory.wf_cons, Memory.wf_cons]
      exact ⟨by simpa using hlt, h⟩
    · split
      · rename_i _ heq
        rw [Memory.wf_cons]
        exact ⟨by intro d hd; rw [heq]; exact h.1 d hd, h.2⟩
      · rename_i hlt hne
        rw [Memory.wf_cons]
        refine ⟨?_, ih h.2⟩
        intro d hd
        rcases Memory.head_write m a x d hd with he | ⟨e, he, heq⟩
        · omega
        · rw [heq]; exact h.1 e he

/-- A memory right after power-on is in canonical form. -/
theorem Memory.wf_nil : Memory.wf [] = true := rfl

end Sys2Proof.Machine
end

