-- ==== Sys2Proof/Laws/State.lean ====
section
/-! SUPPORT. The fields of a state after each named update: one lemma per field and update, so that no proof unfolds
an update. -/

namespace Sys2Proof.Machine


/-! ### `emit` -/

@[simp] theorem State.emit_params (s : State) (e : Event) :
    (s.emit e).params = s.params := rfl
@[simp] theorem State.emit_rxState (s : State) (e : Event) :
    (s.emit e).rxState = s.rxState := rfl
@[simp] theorem State.emit_rxSize (s : State) (e : Event) :
    (s.emit e).rxSize = s.rxSize := rfl
@[simp] theorem State.emit_rxCsum (s : State) (e : Event) :
    (s.emit e).rxCsum = s.rxCsum := rfl
@[simp] theorem State.emit_rxC1 (s : State) (e : Event) :
    (s.emit e).rxC1 = s.rxC1 := rfl
@[simp] theorem State.emit_pkt (s : State) (e : Event) :
    (s.emit e).pkt = s.pkt := rfl
@[simp] theorem State.emit_dispatchPending (s : State) (e : Event) :
    (s.emit e).dispatchPending = s.dispatchPending := rfl
@[simp] theorem State.emit_rxq (s : State) (e : Event) :
    (s.emit e).rxq = s.rxq := rfl
@[simp] theorem State.emit_txq (s : State) (e : Event) :
    (s.emit e).txq = s.txq := rfl
@[simp] theorem State.emit_flushReq (s : State) (e : Event) :
    (s.emit e).flushReq = s.flushReq := rfl
@[simp] theorem State.emit_session (s : State) (e : Event) :
    (s.emit e).session = s.session := rfl
@[simp] theorem State.emit_peer (s : State) (e : Event) :
    (s.emit e).peer = s.peer := rfl
@[simp] theorem State.emit_txFault (s : State) (e : Event) :
    (s.emit e).txFault = s.txFault := rfl
@[simp] theorem State.emit_poll (s : State) (e : Event) :
    (s.emit e).poll = s.poll := rfl
@[simp] theorem State.emit_servicing (s : State) (e : Event) :
    (s.emit e).servicing = s.servicing := rfl
@[simp] theorem State.emit_delivering (s : State) (e : Event) :
    (s.emit e).delivering = s.delivering := rfl
@[simp] theorem State.emit_requests (s : State) (e : Event) :
    (s.emit e).requests = s.requests := rfl
@[simp] theorem State.emit_deliveries (s : State) (e : Event) :
    (s.emit e).deliveries = s.deliveries := rfl
@[simp] theorem State.emit_turns (s : State) (e : Event) :
    (s.emit e).turns = s.turns := rfl
@[simp] theorem State.emit_beReads (s : State) (e : Event) :
    (s.emit e).beReads = s.beReads := rfl
@[simp] theorem State.emit_beWrites (s : State) (e : Event) :
    (s.emit e).beWrites = s.beWrites := rfl
@[simp] theorem State.emit_events (s : State) (e : Event) :
    (s.emit e).events = s.events ++ [e] := rfl
@[simp] theorem State.emit_accepted (s : State) (e : Event) :
    (s.emit e).accepted = s.accepted := rfl
@[simp] theorem State.emit_popped (s : State) (e : Event) :
    (s.emit e).popped = s.popped := rfl
@[simp] theorem State.emit_bytesAccepted (s : State) (e : Event) :
    (s.emit e).bytesAccepted = s.bytesAccepted := rfl
@[simp] theorem State.emit_delivered (s : State) (e : Event) :
    (s.emit e).delivered = s.delivered := rfl

/-! ### `setFifo` -/

@[simp] theorem State.setFifo_rxq_params (s : State) (f : Fifo) :
    (s.setFifo .rxq f).params = s.params := rfl
@[simp] theorem State.setFifo_txq_params (s : State) (f : Fifo) :
    (s.setFifo .txq f).params = s.params := rfl
@[simp] theorem State.setFifo_rxq_rxState (s : State) (f : Fifo) :
    (s.setFifo .rxq f).rxState = s.rxState := rfl
@[simp] theorem State.setFifo_txq_rxState (s : State) (f : Fifo) :
    (s.setFifo .txq f).rxState = s.rxState := rfl
@[simp] theorem State.setFifo_rxq_rxSize (s : State) (f : Fifo) :
    (s.setFifo .rxq f).rxSize = s.rxSize := rfl
@[simp] theorem State.setFifo_txq_rxSize (s : State) (f : Fifo) :
    (s.setFifo .txq f).rxSize = s.rxSize := rfl
@[simp] theorem State.setFifo_rxq_rxCsum (s : State) (f : Fifo) :
    (s.setFifo .rxq f).rxCsum = s.rxCsum := rfl
@[simp] theorem State.setFifo_txq_rxCsum (s : State) (f : Fifo) :
    (s.setFifo .txq f).rxCsum = s.rxCsum := rfl
@[simp] theorem State.setFifo_rxq_rxC1 (s : State) (f : Fifo) :
    (s.setFifo .rxq f).rxC1 = s.rxC1 := rfl
@[simp] theorem State.setFifo_txq_rxC1 (s : State) (f : Fifo) :
    (s.setFifo .txq f).rxC1 = s.rxC1 := rfl
@[simp] theorem State.setFifo_rxq_pkt (s : State) (f : Fifo) :
    (s.setFifo .rxq f).pkt = s.pkt := rfl
@[simp] theorem State.setFifo_txq_pkt (s : State) (f : Fifo) :
    (s.setFifo .txq f).pkt = s.pkt := rfl
@[simp] theorem State.setFifo_rxq_dispatchPending (s : State) (f : Fifo) :
    (s.setFifo .rxq f).dispatchPending = s.dispatchPending := rfl
@[simp] theorem State.setFifo_txq_dispatchPending (s : State) (f : Fifo) :
    (s.setFifo .txq f).dispatchPending = s.dispatchPending := rfl
@[simp] theorem State.setFifo_rxq_rxq (s : State) (f : Fifo) :
    (s.setFifo .rxq f).rxq = f := rfl
@[simp] theorem State.setFifo_txq_rxq (s : State) (f : Fifo) :
    (s.setFifo .txq f).rxq = s.rxq := rfl
@[simp] theorem State.setFifo_rxq_txq (s : State) (f : Fifo) :
    (s.setFifo .rxq f).txq = s.txq := rfl
@[simp] theorem State.setFifo_txq_txq (s : State) (f : Fifo) :
    (s.setFifo .txq f).txq = f := rfl
@[simp] theorem State.setFifo_rxq_flushReq (s : State) (f : Fifo) :
    (s.setFifo .rxq f).flushReq = s.flushReq := rfl
@[simp] theorem State.setFifo_txq_flushReq (s : State) (f : Fifo) :
    (s.setFifo .txq f).flushReq = s.flushReq := rfl
@[simp] theorem State.setFifo_rxq_session (s : State) (f : Fifo) :
    (s.setFifo .rxq f).session = s.session := rfl
@[simp] theorem State.setFifo_txq_session (s : State) (f : Fifo) :
    (s.setFifo .txq f).session = s.session := rfl
@[simp] theorem State.setFifo_rxq_peer (s : State) (f : Fifo) :
    (s.setFifo .rxq f).peer = s.peer := rfl
@[simp] theorem State.setFifo_txq_peer (s : State) (f : Fifo) :
    (s.setFifo .txq f).peer = s.peer := rfl
@[simp] theorem State.setFifo_rxq_txFault (s : State) (f : Fifo) :
    (s.setFifo .rxq f).txFault = s.txFault := rfl
@[simp] theorem State.setFifo_txq_txFault (s : State) (f : Fifo) :
    (s.setFifo .txq f).txFault = s.txFault := rfl
@[simp] theorem State.setFifo_rxq_poll (s : State) (f : Fifo) :
    (s.setFifo .rxq f).poll = s.poll := rfl
@[simp] theorem State.setFifo_txq_poll (s : State) (f : Fifo) :
    (s.setFifo .txq f).poll = s.poll := rfl
@[simp] theorem State.setFifo_rxq_servicing (s : State) (f : Fifo) :
    (s.setFifo .rxq f).servicing = s.servicing := rfl
@[simp] theorem State.setFifo_rxq_delivering (s : State) (f : Fifo) :
    (s.setFifo .rxq f).delivering = s.delivering := rfl
@[simp] theorem State.setFifo_txq_servicing (s : State) (f : Fifo) :
    (s.setFifo .txq f).servicing = s.servicing := rfl
@[simp] theorem State.setFifo_txq_delivering (s : State) (f : Fifo) :
    (s.setFifo .txq f).delivering = s.delivering := rfl
@[simp] theorem State.setFifo_rxq_requests (s : State) (f : Fifo) :
    (s.setFifo .rxq f).requests = s.requests := rfl
@[simp] theorem State.setFifo_txq_requests (s : State) (f : Fifo) :
    (s.setFifo .txq f).requests = s.requests := rfl
@[simp] theorem State.setFifo_rxq_deliveries (s : State) (f : Fifo) :
    (s.setFifo .rxq f).deliveries = s.deliveries := rfl
@[simp] theorem State.setFifo_txq_deliveries (s : State) (f : Fifo) :
    (s.setFifo .txq f).deliveries = s.deliveries := rfl
@[simp] theorem State.setFifo_rxq_turns (s : State) (f : Fifo) :
    (s.setFifo .rxq f).turns = s.turns := rfl
@[simp] theorem State.setFifo_txq_turns (s : State) (f : Fifo) :
    (s.setFifo .txq f).turns = s.turns := rfl
@[simp] theorem State.setFifo_rxq_beReads (s : State) (f : Fifo) :
    (s.setFifo .rxq f).beReads = s.beReads := rfl
@[simp] theorem State.setFifo_txq_beReads (s : State) (f : Fifo) :
    (s.setFifo .txq f).beReads = s.beReads := rfl
@[simp] theorem State.setFifo_rxq_beWrites (s : State) (f : Fifo) :
    (s.setFifo .rxq f).beWrites = s.beWrites := rfl
@[simp] theorem State.setFifo_txq_beWrites (s : State) (f : Fifo) :
    (s.setFifo .txq f).beWrites = s.beWrites := rfl
@[simp] theorem State.setFifo_rxq_events (s : State) (f : Fifo) :
    (s.setFifo .rxq f).events = s.events := rfl
@[simp] theorem State.setFifo_txq_events (s : State) (f : Fifo) :
    (s.setFifo .txq f).events = s.events := rfl
@[simp] theorem State.setFifo_rxq_accepted (s : State) (f : Fifo) :
    (s.setFifo .rxq f).accepted = s.accepted := rfl
@[simp] theorem State.setFifo_txq_accepted (s : State) (f : Fifo) :
    (s.setFifo .txq f).accepted = s.accepted := rfl
@[simp] theorem State.setFifo_rxq_popped (s : State) (f : Fifo) :
    (s.setFifo .rxq f).popped = s.popped := rfl
@[simp] theorem State.setFifo_txq_popped (s : State) (f : Fifo) :
    (s.setFifo .txq f).popped = s.popped := rfl
@[simp] theorem State.setFifo_rxq_bytesAccepted (s : State) (f : Fifo) :
    (s.setFifo .rxq f).bytesAccepted = s.bytesAccepted := rfl
@[simp] theorem State.setFifo_txq_bytesAccepted (s : State) (f : Fifo) :
    (s.setFifo .txq f).bytesAccepted = s.bytesAccepted := rfl
@[simp] theorem State.setFifo_rxq_delivered (s : State) (f : Fifo) :
    (s.setFifo .rxq f).delivered = s.delivered := rfl
@[simp] theorem State.setFifo_txq_delivered (s : State) (f : Fifo) :
    (s.setFifo .txq f).delivered = s.delivered := rfl
@[simp] theorem State.setFifo_params (s : State) (q : Queue) (f : Fifo) :
    (s.setFifo q f).params = s.params := by cases q <;> rfl
@[simp] theorem State.setFifo_rxState (s : State) (q : Queue) (f : Fifo) :
    (s.setFifo q f).rxState = s.rxState := by cases q <;> rfl
@[simp] theorem State.setFifo_rxSize (s : State) (q : Queue) (f : Fifo) :
    (s.setFifo q f).rxSize = s.rxSize := by cases q <;> rfl
@[simp] theorem State.setFifo_rxCsum (s : State) (q : Queue) (f : Fifo) :
    (s.setFifo q f).rxCsum = s.rxCsum := by cases q <;> rfl
@[simp] theorem State.setFifo_rxC1 (s : State) (q : Queue) (f : Fifo) :
    (s.setFifo q f).rxC1 = s.rxC1 := by cases q <;> rfl
@[simp] theorem State.setFifo_pkt (s : State) (q : Queue) (f : Fifo) :
    (s.setFifo q f).pkt = s.pkt := by cases q <;> rfl
@[simp] theorem State.setFifo_dispatchPending (s : State) (q : Queue) (f : Fifo) :
    (s.setFifo q f).dispatchPending = s.dispatchPending := by cases q <;> rfl
@[simp] theorem State.setFifo_flushReq (s : State) (q : Queue) (f : Fifo) :
    (s.setFifo q f).flushReq = s.flushReq := by cases q <;> rfl
@[simp] theorem State.setFifo_session (s : State) (q : Queue) (f : Fifo) :
    (s.setFifo q f).session = s.session := by cases q <;> rfl
@[simp] theorem State.setFifo_peer (s : State) (q : Queue) (f : Fifo) :
    (s.setFifo q f).peer = s.peer := by cases q <;> rfl
@[simp] theorem State.setFifo_txFault (s : State) (q : Queue) (f : Fifo) :
    (s.setFifo q f).txFault = s.txFault := by cases q <;> rfl
@[simp] theorem State.setFifo_poll (s : State) (q : Queue) (f : Fifo) :
    (s.setFifo q f).poll = s.poll := by cases q <;> rfl
@[simp] theorem State.setFifo_servicing (s : State) (q : Queue) (f : Fifo) :
    (s.setFifo q f).servicing = s.servicing := by cases q <;> rfl
@[simp] theorem State.setFifo_delivering (s : State) (q : Queue) (f : Fifo) :
    (s.setFifo q f).delivering = s.delivering := by cases q <;> rfl
@[simp] theorem State.setFifo_requests (s : State) (q : Queue) (f : Fifo) :
    (s.setFifo q f).requests = s.requests := by cases q <;> rfl
@[simp] theorem State.setFifo_deliveries (s : State) (q : Queue) (f : Fifo) :
    (s.setFifo q f).deliveries = s.deliveries := by cases q <;> rfl
@[simp] theorem State.setFifo_turns (s : State) (q : Queue) (f : Fifo) :
    (s.setFifo q f).turns = s.turns := by cases q <;> rfl
@[simp] theorem State.setFifo_beReads (s : State) (q : Queue) (f : Fifo) :
    (s.setFifo q f).beReads = s.beReads := by cases q <;> rfl
@[simp] theorem State.setFifo_beWrites (s : State) (q : Queue) (f : Fifo) :
    (s.setFifo q f).beWrites = s.beWrites := by cases q <;> rfl
@[simp] theorem State.setFifo_events (s : State) (q : Queue) (f : Fifo) :
    (s.setFifo q f).events = s.events := by cases q <;> rfl
@[simp] theorem State.setFifo_accepted (s : State) (q : Queue) (f : Fifo) :
    (s.setFifo q f).accepted = s.accepted := by cases q <;> rfl
@[simp] theorem State.setFifo_popped (s : State) (q : Queue) (f : Fifo) :
    (s.setFifo q f).popped = s.popped := by cases q <;> rfl
@[simp] theorem State.setFifo_bytesAccepted (s : State) (q : Queue) (f : Fifo) :
    (s.setFifo q f).bytesAccepted = s.bytesAccepted := by cases q <;> rfl
@[simp] theorem State.setFifo_delivered (s : State) (q : Queue) (f : Fifo) :
    (s.setFifo q f).delivered = s.delivered := by cases q <;> rfl
@[simp] theorem State.fifo_setFifo (s : State) (q : Queue) (f : Fifo) :
    (s.setFifo q f).fifo q = f := by cases q <;> rfl
@[simp] theorem State.fifo_rxq (s : State) :
    s.fifo .rxq = s.rxq := rfl
@[simp] theorem State.fifo_txq (s : State) :
    s.fifo .txq = s.txq := rfl
@[simp] theorem slots_rxq (p : Params) :
    slots p .rxq = p.rxCap := rfl
@[simp] theorem slots_txq (p : Params) :
    slots p .txq = p.txCap := rfl

/-! ### `resetAll` -/

@[simp] theorem resetAll_params (s : State) :
    (resetAll s).params = s.params := rfl
@[simp] theorem resetAll_rxState (s : State) :
    (resetAll s).rxState = .idle := rfl
@[simp] theorem resetAll_rxSize (s : State) :
    (resetAll s).rxSize = 0 := rfl
@[simp] theorem resetAll_rxCsum (s : State) :
    (resetAll s).rxCsum = 0x00#8 := rfl
@[simp] theorem resetAll_rxC1 (s : State) :
    (resetAll s).rxC1 = s.rxC1 := rfl
@[simp] theorem resetAll_pkt (s : State) :
    (resetAll s).pkt = s.pkt := rfl
@[simp] theorem resetAll_dispatchPending (s : State) :
    (resetAll s).dispatchPending = s.dispatchPending := rfl
@[simp] theorem resetAll_rxq (s : State) :
    (resetAll s).rxq = { s.rxq with head := 0, tail := 0 } := rfl
@[simp] theorem resetAll_txq (s : State) :
    (resetAll s).txq = { s.txq with head := 0, tail := 0 } := rfl
@[simp] theorem resetAll_flushReq (s : State) :
    (resetAll s).flushReq = false := rfl
@[simp] theorem resetAll_session (s : State) :
    (resetAll s).session = s.session := rfl
@[simp] theorem resetAll_peer (s : State) :
    (resetAll s).peer = s.peer := rfl
@[simp] theorem resetAll_txFault (s : State) :
    (resetAll s).txFault = s.txFault := rfl
@[simp] theorem resetAll_poll (s : State) :
    (resetAll s).poll = s.poll := rfl
@[simp] theorem resetAll_servicing (s : State) :
    (resetAll s).servicing = s.servicing := rfl
@[simp] theorem resetAll_delivering (s : State) :
    (resetAll s).delivering = s.delivering := rfl
@[simp] theorem resetAll_requests (s : State) :
    (resetAll s).requests = s.requests := rfl
@[simp] theorem resetAll_deliveries (s : State) :
    (resetAll s).deliveries = s.deliveries := rfl
@[simp] theorem resetAll_turns (s : State) :
    (resetAll s).turns = s.turns := rfl
@[simp] theorem resetAll_beReads (s : State) :
    (resetAll s).beReads = s.beReads := rfl
@[simp] theorem resetAll_beWrites (s : State) :
    (resetAll s).beWrites = s.beWrites := rfl
@[simp] theorem resetAll_events (s : State) :
    (resetAll s).events = s.events := rfl
@[simp] theorem resetAll_accepted (s : State) :
    (resetAll s).accepted = s.accepted := rfl
@[simp] theorem resetAll_popped (s : State) :
    (resetAll s).popped = s.popped := rfl
@[simp] theorem resetAll_bytesAccepted (s : State) :
    (resetAll s).bytesAccepted = s.bytesAccepted := rfl
@[simp] theorem resetAll_delivered (s : State) :
    (resetAll s).delivered = s.delivered := rfl

/-! ### `sessionError`: whatever the session -/

@[simp] theorem sessionError_params (s : State) :
    (sessionError s).params = s.params := by
  cases h : s.session <;> simp [sessionError, h]
@[simp] theorem sessionError_rxState (s : State) :
    (sessionError s).rxState = .idle := by
  cases h : s.session <;> simp [sessionError, h]
@[simp] theorem sessionError_rxSize (s : State) :
    (sessionError s).rxSize = 0 := by
  cases h : s.session <;> simp [sessionError, h]
@[simp] theorem sessionError_rxCsum (s : State) :
    (sessionError s).rxCsum = 0x00#8 := by
  cases h : s.session <;> simp [sessionError, h]
@[simp] theorem sessionError_rxC1 (s : State) :
    (sessionError s).rxC1 = s.rxC1 := by
  cases h : s.session <;> simp [sessionError, h]
@[simp] theorem sessionError_pkt (s : State) :
    (sessionError s).pkt = s.pkt := by
  cases h : s.session <;> simp [sessionError, h]
@[simp] theorem sessionError_dispatchPending (s : State) :
    (sessionError s).dispatchPending = s.dispatchPending := by
  cases h : s.session <;> simp [sessionError, h]
@[simp] theorem sessionError_rxq (s : State) :
    (sessionError s).rxq = { s.rxq with head := 0, tail := 0 } := by
  cases h : s.session <;> simp [sessionError, h]
@[simp] theorem sessionError_txq (s : State) :
    (sessionError s).txq = { s.txq with head := 0, tail := 0 } := by
  cases h : s.session <;> simp [sessionError, h]
@[simp] theorem sessionError_flushReq (s : State) :
    (sessionError s).flushReq = false := by
  cases h : s.session <;> simp [sessionError, h]
@[simp] theorem sessionError_txFault (s : State) :
    (sessionError s).txFault = s.txFault := by
  cases h : s.session <;> simp [sessionError, h]
@[simp] theorem sessionError_poll (s : State) :
    (sessionError s).poll = s.poll := by
  cases h : s.session <;> simp [sessionError, h]
@[simp] theorem sessionError_servicing (s : State) :
    (sessionError s).servicing = s.servicing := by
  cases h : s.session <;> simp [sessionError, h]
@[simp] theorem sessionError_delivering (s : State) :
    (sessionError s).delivering = s.delivering := by
  cases h : s.session <;> simp [sessionError, h]
@[simp] theorem sessionError_requests (s : State) :
    (sessionError s).requests = s.requests := by
  cases h : s.session <;> simp [sessionError, h]
@[simp] theorem sessionError_deliveries (s : State) :
    (sessionError s).deliveries = s.deliveries := by
  cases h : s.session <;> simp [sessionError, h]
@[simp] theorem sessionError_turns (s : State) :
    (sessionError s).turns = s.turns := by
  cases h : s.session <;> simp [sessionError, h]
@[simp] theorem sessionError_beReads (s : State) :
    (sessionError s).beReads = s.beReads := by
  cases h : s.session <;> simp [sessionError, h]
@[simp] theorem sessionError_beWrites (s : State) :
    (sessionError s).beWrites = s.beWrites := by
  cases h : s.session <;> simp [sessionError, h]
@[simp] theorem sessionError_events (s : State) :
    (sessionError s).events = s.events := by
  cases h : s.session <;> simp [sessionError, h]
@[simp] theorem sessionError_accepted (s : State) :
    (sessionError s).accepted = s.accepted := by
  cases h : s.session <;> simp [sessionError, h]
@[simp] theorem sessionError_popped (s : State) :
    (sessionError s).popped = s.popped := by
  cases h : s.session <;> simp [sessionError, h]
@[simp] theorem sessionError_bytesAccepted (s : State) :
    (sessionError s).bytesAccepted = s.bytesAccepted := by
  cases h : s.session <;> simp [sessionError, h]
@[simp] theorem sessionError_delivered (s : State) :
    (sessionError s).delivered = s.delivered := by
  cases h : s.session <;> simp [sessionError, h]

/-! ### `startFrame` -/

@[simp] theorem startFrame_params (s : State) :
    (startFrame s).params = s.params := rfl
@[simp] theorem startFrame_rxState (s : State) :
    (startFrame s).rxState = .char := rfl
@[simp] theorem startFrame_rxSize (s : State) :
    (startFrame s).rxSize = 0 := rfl
@[simp] theorem startFrame_rxCsum (s : State) :
    (startFrame s).rxCsum = 0x00#8 := rfl
@[simp] theorem startFrame_rxC1 (s : State) :
    (startFrame s).rxC1 = s.rxC1 := rfl
@[simp] theorem startFrame_pkt (s : State) :
    (startFrame s).pkt = s.pkt := rfl
@[simp] theorem startFrame_dispatchPending (s : State) :
    (startFrame s).dispatchPending = s.dispatchPending := rfl
@[simp] theorem startFrame_rxq (s : State) :
    (startFrame s).rxq = s.rxq := rfl
@[simp] theorem startFrame_txq (s : State) :
    (startFrame s).txq = s.txq := rfl
@[simp] theorem startFrame_flushReq (s : State) :
    (startFrame s).flushReq = s.flushReq := rfl
@[simp] theorem startFrame_session (s : State) :
    (startFrame s).session = s.session := rfl
@[simp] theorem startFrame_peer (s : State) :
    (startFrame s).peer = s.peer := rfl
@[simp] theorem startFrame_txFault (s : State) :
    (startFrame s).txFault = s.txFault := rfl
@[simp] theorem startFrame_poll (s : State) :
    (startFrame s).poll = s.poll := rfl
@[simp] theorem startFrame_servicing (s : State) :
    (startFrame s).servicing = s.servicing := rfl
@[simp] theorem startFrame_delivering (s : State) :
    (startFrame s).delivering = s.delivering := rfl
@[simp] theorem startFrame_requests (s : State) :
    (startFrame s).requests = s.requests := rfl
@[simp] theorem startFrame_deliveries (s : State) :
    (startFrame s).deliveries = s.deliveries := rfl
@[simp] theorem startFrame_turns (s : State) :
    (startFrame s).turns = s.turns := rfl
@[simp] theorem startFrame_beReads (s : State) :
    (startFrame s).beReads = s.beReads := rfl
@[simp] theorem startFrame_beWrites (s : State) :
    (startFrame s).beWrites = s.beWrites := rfl
@[simp] theorem startFrame_events (s : State) :
    (startFrame s).events = s.events := rfl
@[simp] theorem startFrame_accepted (s : State) :
    (startFrame s).accepted = s.accepted := rfl
@[simp] theorem startFrame_popped (s : State) :
    (startFrame s).popped = s.popped := rfl
@[simp] theorem startFrame_bytesAccepted (s : State) :
    (startFrame s).bytesAccepted = s.bytesAccepted := rfl
@[simp] theorem startFrame_delivered (s : State) :
    (startFrame s).delivered = s.delivered := rfl

/-! ### `endFlush` -/

@[simp] theorem endFlush_params (s : State) :
    (endFlush s).params = s.params := rfl
@[simp] theorem endFlush_rxState (s : State) :
    (endFlush s).rxState = s.rxState := rfl
@[simp] theorem endFlush_rxSize (s : State) :
    (endFlush s).rxSize = s.rxSize := rfl
@[simp] theorem endFlush_rxCsum (s : State) :
    (endFlush s).rxCsum = s.rxCsum := rfl
@[simp] theorem endFlush_rxC1 (s : State) :
    (endFlush s).rxC1 = s.rxC1 := rfl
@[simp] theorem endFlush_pkt (s : State) :
    (endFlush s).pkt = s.pkt := rfl
@[simp] theorem endFlush_dispatchPending (s : State) :
    (endFlush s).dispatchPending = s.dispatchPending := rfl
@[simp] theorem endFlush_rxq (s : State) :
    (endFlush s).rxq = s.rxq := rfl
@[simp] theorem endFlush_txq (s : State) :
    (endFlush s).txq = s.txq := rfl
@[simp] theorem endFlush_flushReq (s : State) :
    (endFlush s).flushReq = (s.params.flushKeepsReq && !s.txq.isEmpty) := rfl
@[simp] theorem endFlush_session (s : State) :
    (endFlush s).session = s.session := rfl
@[simp] theorem endFlush_peer (s : State) :
    (endFlush s).peer = s.peer := rfl
@[simp] theorem endFlush_txFault (s : State) :
    (endFlush s).txFault = s.txFault := rfl
@[simp] theorem endFlush_poll (s : State) :
    (endFlush s).poll = s.poll := rfl
@[simp] theorem endFlush_servicing (s : State) :
    (endFlush s).servicing = s.servicing := rfl
@[simp] theorem endFlush_delivering (s : State) :
    (endFlush s).delivering = s.delivering := rfl
@[simp] theorem endFlush_requests (s : State) :
    (endFlush s).requests = s.requests := rfl
@[simp] theorem endFlush_deliveries (s : State) :
    (endFlush s).deliveries = s.deliveries := rfl
@[simp] theorem endFlush_turns (s : State) :
    (endFlush s).turns = s.turns := rfl
@[simp] theorem endFlush_beReads (s : State) :
    (endFlush s).beReads = s.beReads := rfl
@[simp] theorem endFlush_beWrites (s : State) :
    (endFlush s).beWrites = s.beWrites := rfl
@[simp] theorem endFlush_events (s : State) :
    (endFlush s).events = s.events := rfl
@[simp] theorem endFlush_accepted (s : State) :
    (endFlush s).accepted = s.accepted := rfl
@[simp] theorem endFlush_popped (s : State) :
    (endFlush s).popped = s.popped := rfl
@[simp] theorem endFlush_bytesAccepted (s : State) :
    (endFlush s).bytesAccepted = s.bytesAccepted := rfl
@[simp] theorem endFlush_delivered (s : State) :
    (endFlush s).delivered = s.delivered := rfl

/-! ### `drawWrite` and `drawRead`: only the answers move on -/

@[simp] theorem drawWrite_params (s : State) :
    (drawWrite s).2.params = s.params := by
  cases h : s.beWrites <;> simp [drawWrite, h]
@[simp] theorem drawWrite_rxState (s : State) :
    (drawWrite s).2.rxState = s.rxState := by
  cases h : s.beWrites <;> simp [drawWrite, h]
@[simp] theorem drawWrite_rxSize (s : State) :
    (drawWrite s).2.rxSize = s.rxSize := by
  cases h : s.beWrites <;> simp [drawWrite, h]
@[simp] theorem drawWrite_rxCsum (s : State) :
    (drawWrite s).2.rxCsum = s.rxCsum := by
  cases h : s.beWrites <;> simp [drawWrite, h]
@[simp] theorem drawWrite_rxC1 (s : State) :
    (drawWrite s).2.rxC1 = s.rxC1 := by
  cases h : s.beWrites <;> simp [drawWrite, h]
@[simp] theorem drawWrite_pkt (s : State) :
    (drawWrite s).2.pkt = s.pkt := by
  cases h : s.beWrites <;> simp [drawWrite, h]
@[simp] theorem drawWrite_dispatchPending (s : State) :
    (drawWrite s).2.dispatchPending = s.dispatchPending := by
  cases h : s.beWrites <;> simp [drawWrite, h]
@[simp] theorem drawWrite_rxq (s : State) :
    (drawWrite s).2.rxq = s.rxq := by
  cases h : s.beWrites <;> simp [drawWrite, h]
@[simp] theorem drawWrite_txq (s : State) :
    (drawWrite s).2.txq = s.txq := by
  cases h : s.beWrites <;> simp [drawWrite, h]
@[simp] theorem drawWrite_flushReq (s : State) :
    (drawWrite s).2.flushReq = s.flushReq := by
  cases h : s.beWrites <;> simp [drawWrite, h]
@[simp] theorem drawWrite_session (s : State) :
    (drawWrite s).2.session = s.session := by
  cases h : s.beWrites <;> simp [drawWrite, h]
@[simp] theorem drawWrite_peer (s : State) :
    (drawWrite s).2.peer = s.peer := by
  cases h : s.beWrites <;> simp [drawWrite, h]
@[simp] theorem drawWrite_txFault (s : State) :
    (drawWrite s).2.txFault = s.txFault := by
  cases h : s.beWrites <;> simp [drawWrite, h]
@[simp] theorem drawWrite_poll (s : State) :
    (drawWrite s).2.poll = s.poll := by
  cases h : s.beWrites <;> simp [drawWrite, h]
@[simp] theorem drawWrite_servicing (s : State) :
    (drawWrite s).2.servicing = s.servicing := by
  cases h : s.beWrites <;> simp [drawWrite, h]
@[simp] theorem drawWrite_delivering (s : State) :
    (drawWrite s).2.delivering = s.delivering := by
  cases h : s.beWrites <;> simp [drawWrite, h]
@[simp] theorem drawWrite_requests (s : State) :
    (drawWrite s).2.requests = s.requests := by
  cases h : s.beWrites <;> simp [drawWrite, h]
@[simp] theorem drawWrite_deliveries (s : State) :
    (drawWrite s).2.deliveries = s.deliveries := by
  cases h : s.beWrites <;> simp [drawWrite, h]
@[simp] theorem drawWrite_turns (s : State) :
    (drawWrite s).2.turns = s.turns := by
  cases h : s.beWrites <;> simp [drawWrite, h]
@[simp] theorem drawWrite_beReads (s : State) :
    (drawWrite s).2.beReads = s.beReads := by
  cases h : s.beWrites <;> simp [drawWrite, h]
@[simp] theorem drawWrite_events (s : State) :
    (drawWrite s).2.events = s.events := by
  cases h : s.beWrites <;> simp [drawWrite, h]
@[simp] theorem drawWrite_accepted (s : State) :
    (drawWrite s).2.accepted = s.accepted := by
  cases h : s.beWrites <;> simp [drawWrite, h]
@[simp] theorem drawWrite_popped (s : State) :
    (drawWrite s).2.popped = s.popped := by
  cases h : s.beWrites <;> simp [drawWrite, h]
@[simp] theorem drawWrite_bytesAccepted (s : State) :
    (drawWrite s).2.bytesAccepted = s.bytesAccepted := by
  cases h : s.beWrites <;> simp [drawWrite, h]
@[simp] theorem drawWrite_delivered (s : State) :
    (drawWrite s).2.delivered = s.delivered := by
  cases h : s.beWrites <;> simp [drawWrite, h]
@[simp] theorem drawRead_params (s : State) :
    (drawRead s).2.params = s.params := by
  cases h : s.beReads <;> simp [drawRead, h]
@[simp] theorem drawRead_rxState (s : State) :
    (drawRead s).2.rxState = s.rxState := by
  cases h : s.beReads <;> simp [drawRead, h]
@[simp] theorem drawRead_rxSize (s : State) :
    (drawRead s).2.rxSize = s.rxSize := by
  cases h : s.beReads <;> simp [drawRead, h]
@[simp] theorem drawRead_rxCsum (s : State) :
    (drawRead s).2.rxCsum = s.rxCsum := by
  cases h : s.beReads <;> simp [drawRead, h]
@[simp] theorem drawRead_rxC1 (s : State) :
    (drawRead s).2.rxC1 = s.rxC1 := by
  cases h : s.beReads <;> simp [drawRead, h]
@[simp] theorem drawRead_pkt (s : State) :
    (drawRead s).2.pkt = s.pkt := by
  cases h : s.beReads <;> simp [drawRead, h]
@[simp] theorem drawRead_dispatchPending (s : State) :
    (drawRead s).2.dispatchPending = s.dispatchPending := by
  cases h : s.beReads <;> simp [drawRead, h]
@[simp] theorem drawRead_rxq (s : State) :
    (drawRead s).2.rxq = s.rxq := by
  cases h : s.beReads <;> simp [drawRead, h]
@[simp] theorem drawRead_txq (s : State) :
    (drawRead s).2.txq = s.txq := by
  cases h : s.beReads <;> simp [drawRead, h]
@[simp] theorem drawRead_flushReq (s : State) :
    (drawRead s).2.flushReq = s.flushReq := by
  cases h : s.beReads <;> simp [drawRead, h]
@[simp] theorem drawRead_session (s : State) :
    (drawRead s).2.session = s.session := by
  cases h : s.beReads <;> simp [drawRead, h]
@[simp] theorem drawRead_peer (s : State) :
    (drawRead s).2.peer = s.peer := by
  cases h : s.beReads <;> simp [drawRead, h]
@[simp] theorem drawRead_txFault (s : State) :
    (drawRead s).2.txFault = s.txFault := by
  cases h : s.beReads <;> simp [drawRead, h]
@[simp] theorem drawRead_poll (s : State) :
    (drawRead s).2.poll = s.poll := by
  cases h : s.beReads <;> simp [drawRead, h]
@[simp] theorem drawRead_servicing (s : State) :
    (drawRead s).2.servicing = s.servicing := by
  cases h : s.beReads <;> simp [drawRead, h]
@[simp] theorem drawRead_delivering (s : State) :
    (drawRead s).2.delivering = s.delivering := by
  cases h : s.beReads <;> simp [drawRead, h]
@[simp] theorem drawRead_requests (s : State) :
    (drawRead s).2.requests = s.requests := by
  cases h : s.beReads <;> simp [drawRead, h]
@[simp] theorem drawRead_deliveries (s : State) :
    (drawRead s).2.deliveries = s.deliveries := by
  cases h : s.beReads <;> simp [drawRead, h]
@[simp] theorem drawRead_turns (s : State) :
    (drawRead s).2.turns = s.turns := by
  cases h : s.beReads <;> simp [drawRead, h]
@[simp] theorem drawRead_beWrites (s : State) :
    (drawRead s).2.beWrites = s.beWrites := by
  cases h : s.beReads <;> simp [drawRead, h]
@[simp] theorem drawRead_events (s : State) :
    (drawRead s).2.events = s.events := by
  cases h : s.beReads <;> simp [drawRead, h]
@[simp] theorem drawRead_accepted (s : State) :
    (drawRead s).2.accepted = s.accepted := by
  cases h : s.beReads <;> simp [drawRead, h]
@[simp] theorem drawRead_popped (s : State) :
    (drawRead s).2.popped = s.popped := by
  cases h : s.beReads <;> simp [drawRead, h]
@[simp] theorem drawRead_bytesAccepted (s : State) :
    (drawRead s).2.bytesAccepted = s.bytesAccepted := by
  cases h : s.beReads <;> simp [drawRead, h]
@[simp] theorem drawRead_delivered (s : State) :
    (drawRead s).2.delivered = s.delivered := by
  cases h : s.beReads <;> simp [drawRead, h]

end Sys2Proof.Machine
end

