-- ==== Sys2Proof/Laws/Fifo.lean ====
section
/-! SUPPORT. Index arithmetic of a FIFO, without the modulus, and what a push and a pop make of a FIFO whose state is
`Fifo.Ok`. -/

namespace Sys2Proof.Machine

/-! ### Index arithmetic -/

/-- The index after `i`, by cases. -/
theorem nextIndex_eq {cap i : Nat} (h : i < cap) :
    nextIndex cap i = if i + 1 = cap then 0 else i + 1 := by
  unfold nextIndex
  split
  · rename_i e; rw [e]; exact Nat.mod_self cap
  · exact Nat.mod_eq_of_lt (by omega)

theorem nextIndex_lt {cap i : Nat} (h : i < cap) : nextIndex cap i < cap :=
  Nat.mod_lt _ (by omega)

/-- A sum of two indices, reduced into range, by cases. -/
theorem add_mod_cap {cap a b : Nat} (ha : a < cap) (hb : b < cap) :
    (a + b) % cap = if a + b < cap then a + b else a + b - cap := by
  split
  · exact Nat.mod_eq_of_lt ‹_›
  · rw [Nat.mod_eq_sub_mod (by omega)]; exact Nat.mod_eq_of_lt (by omega)

/-- The occupancy, by cases. -/
theorem Fifo.count_eq {cap : Nat} {f : Fifo} (hh : f.head < cap) (ht : f.tail < cap) :
    f.count cap = if f.tail ≤ f.head then f.head - f.tail else f.head + cap - f.tail := by
  unfold Fifo.count
  split
  · rw [show f.head + cap - f.tail = (f.head - f.tail) + cap by omega, Nat.add_mod_right]
    exact Nat.mod_eq_of_lt (by omega)
  · exact Nat.mod_eq_of_lt (by omega)

theorem Fifo.isFull_eq (cap : Nat) (f : Fifo) :
    f.isFull cap = decide (nextIndex cap f.head = f.tail) := rfl

theorem Fifo.isEmpty_eq (f : Fifo) : f.isEmpty = decide (f.head = f.tail) := rfl

/-- A FIFO that is not full has room for one more byte. -/
theorem Fifo.count_lt_of_not_full {cap : Nat} {f : Fifo} (hh : f.head < cap) (ht : f.tail < cap)
    (h : f.isFull cap = false) : f.count cap + 1 < cap := by
  rw [Fifo.isFull_eq, nextIndex_eq hh] at h
  rw [Fifo.count_eq hh ht]
  simp only [decide_eq_false_iff_not] at h
  split at h <;> split <;> omega

/-- A FIFO with room for one more byte is not full. -/
theorem Fifo.not_full_of_count_lt {cap : Nat} {f : Fifo} (hh : f.head < cap) (ht : f.tail < cap)
    (h : f.count cap + 1 < cap) : f.isFull cap = false := by
  rw [Fifo.count_eq hh ht] at h
  rw [Fifo.isFull_eq, nextIndex_eq hh]
  simp only [decide_eq_false_iff_not]
  split at h <;> split <;> omega

/-! ### An accepted push -/

@[simp] theorem Fifo.pushed_mem (cap : Nat) (b : Byte) (f : Fifo) :
    (f.pushed cap b).mem = f.mem.write f.head b := rfl

@[simp] theorem Fifo.pushed_head (cap : Nat) (b : Byte) (f : Fifo) :
    (f.pushed cap b).head = nextIndex cap f.head := rfl

@[simp] theorem Fifo.pushed_tail (cap : Nat) (b : Byte) (f : Fifo) :
    (f.pushed cap b).tail = f.tail := rfl

theorem Fifo.count_pushed {cap : Nat} {f : Fifo} (b : Byte) (hh : f.head < cap) (ht : f.tail < cap)
    (h : f.isFull cap = false) : (f.pushed cap b).count cap = f.count cap + 1 := by
  have e : (f.pushed cap b).count cap =
      if f.tail ≤ nextIndex cap f.head then nextIndex cap f.head - f.tail
      else nextIndex cap f.head + cap - f.tail :=
    Fifo.count_eq (f := f.pushed cap b) (nextIndex_lt hh) ht
  have hn := nextIndex_eq hh
  rw [e, Fifo.count_eq hh ht]
  rw [Fifo.isFull_eq] at h
  simp only [decide_eq_false_iff_not] at h
  generalize nextIndex cap f.head = n at hn h ⊢
  split at hn <;> split <;> split <;> omega

/-- An accepted push keeps what is true of a FIFO in every run. -/
theorem Fifo.Ok.pushed {cap : Nat} {f : Fifo} (hf : Fifo.Ok cap f) (b : Byte)
    (h : f.isFull cap = false) : Fifo.Ok cap (f.pushed cap b) where
  head_lt := nextIndex_lt hf.head_lt
  tail_lt := hf.tail_lt
  mem_wf := Memory.wf_write _ _ _ hf.mem_wf
  mem_lt := by
    intro a x hx
    simp only [Fifo.pushed_mem, Memory.read_write] at hx
    split at hx
    · subst a; exact hf.head_lt
    · exact hf.mem_lt a x hx
  written := by
    intro k hk
    rw [Fifo.count_pushed b hf.head_lt hf.tail_lt h] at hk
    simp only [Fifo.pushed_mem, Fifo.pushed_tail, Memory.read_write]
    split
    · rfl
    · by_cases hk' : k < f.count cap
      · exact hf.written k hk'
      · exfalso
        rename_i hne
        apply hne
        have hlt := Fifo.count_lt_of_not_full hf.head_lt hf.tail_lt h
        have hkc : k = f.count cap := by omega
        have hh := hf.head_lt
        have ht := hf.tail_lt
        have hc := Fifo.count_eq hh ht
        rw [hkc, add_mod_cap ht (by omega), hc]
        split at hc <;> split <;> split <;> omega

/-! ### A pop -/

/-- A FIFO whose `tail` moved on by one. -/
theorem Fifo.count_popped {cap : Nat} {f : Fifo} (hh : f.head < cap) (ht : f.tail < cap)
    (h : f.head ≠ f.tail) :
    ({ f with tail := nextIndex cap f.tail } : Fifo).count cap + 1 = f.count cap := by
  have e : ({ f with tail := nextIndex cap f.tail } : Fifo).count cap =
      if nextIndex cap f.tail ≤ f.head then f.head - nextIndex cap f.tail
      else f.head + cap - nextIndex cap f.tail :=
    Fifo.count_eq (f := { f with tail := nextIndex cap f.tail }) hh (nextIndex_lt ht)
  have hn := nextIndex_eq ht
  rw [e, Fifo.count_eq hh ht]
  generalize nextIndex cap f.tail = n at hn ⊢
  split at hn <;> split <;> split <;> omega

/-- A pop keeps what is true of a FIFO in every run. -/
theorem Fifo.Ok.popped {cap : Nat} {f : Fifo} (hf : Fifo.Ok cap f) (h : f.head ≠ f.tail) :
    Fifo.Ok cap { f with tail := nextIndex cap f.tail } where
  head_lt := hf.head_lt
  tail_lt := nextIndex_lt hf.tail_lt
  mem_wf := hf.mem_wf
  mem_lt := hf.mem_lt
  written := by
    intro k hk
    have hc := Fifo.count_popped hf.head_lt hf.tail_lt h
    have := hf.written (k + 1) (by omega)
    rw [show ((nextIndex cap f.tail) + k) % cap = (f.tail + (k + 1)) % cap by
      unfold nextIndex; rw [Nat.mod_add_mod]; congr 1; omega]
    exact this

/-- A FIFO reset keeps what is true of a FIFO in every run. -/
theorem Fifo.Ok.reset {cap : Nat} {f : Fifo} (hf : Fifo.Ok cap f) :
    Fifo.Ok cap { f with head := 0, tail := 0 } where
  head_lt := by have := hf.head_lt; simp only; omega
  tail_lt := by have := hf.head_lt; simp only; omega
  mem_wf := hf.mem_wf
  mem_lt := hf.mem_lt
  written := by intro k hk; simp [Fifo.count] at hk

/-- The oldest byte of a FIFO that is not empty has been written. -/
theorem Fifo.Ok.oldest {cap : Nat} {f : Fifo} (hf : Fifo.Ok cap f) (h : f.head ≠ f.tail) :
    ∃ b, f.mem.read f.tail = some b := by
  have hc := Fifo.count_popped hf.head_lt hf.tail_lt h
  have := hf.written 0 (by omega)
  rw [Nat.add_zero, Nat.mod_eq_of_lt hf.tail_lt] at this
  exact Option.isSome_iff_exists.mp this

/-- A FIFO right after power-on. -/
theorem Fifo.Ok.ofReset {cap : Nat} (h : 0 < cap) : Fifo.Ok cap Fifo.reset where
  head_lt := h
  tail_lt := h
  mem_wf := rfl
  mem_lt := by intro a b hb; simp [Fifo.reset] at hb
  written := by intro k hk; simp [Fifo.count, Fifo.reset] at hk

/-! ### What a FIFO holds -/

/-- A FIFO is empty exactly where it holds no byte. -/
theorem Fifo.count_eq_zero {cap : Nat} {f : Fifo} (hh : f.head < cap) (ht : f.tail < cap) :
    f.count cap = 0 ↔ f.head = f.tail := by
  rw [Fifo.count_eq hh ht]
  split <;> omega

theorem Fifo.length_contents (cap : Nat) (f : Fifo) : (f.contents cap).length = f.count cap := by
  simp [Fifo.contents]

/-- An empty FIFO holds nothing. -/
theorem Fifo.contents_nil {cap : Nat} {f : Fifo} (hf : Fifo.Ok cap f) (h : f.head = f.tail) :
    f.contents cap = [] :=
  List.eq_nil_of_length_eq_zero
    ((f.length_contents cap).trans ((Fifo.count_eq_zero hf.head_lt hf.tail_lt).mpr h))

/-- An accepted push adds its byte at the end. -/
theorem Fifo.contents_pushed {cap : Nat} {f : Fifo} (hf : Fifo.Ok cap f) (b : Byte)
    (h : f.isFull cap = false) : (f.pushed cap b).contents cap = f.contents cap ++ [some b] := by
  have hc := Fifo.count_eq hf.head_lt hf.tail_lt
  have hlt := Fifo.count_lt_of_not_full hf.head_lt hf.tail_lt h
  have hh := hf.head_lt
  have ht := hf.tail_lt
  have he : (f.tail + f.count cap) % cap = f.head := by
    rw [add_mod_cap ht (by omega), hc]
    split at hc <;> split <;> split <;> omega
  unfold Fifo.contents
  rw [Fifo.count_pushed b hh ht h, List.range_succ, List.map_append]
  congr 1
  · refine List.map_congr_left fun k hk => ?_
    have hk := List.mem_range.mp hk
    simp only [Fifo.pushed_mem, Fifo.pushed_tail, Memory.read_write]
    rw [if_neg]
    intro hk'
    rw [← he, add_mod_cap ht (by omega), add_mod_cap ht (by omega)] at hk'
    split at hk' <;> split at hk' <;> omega
  · simp [Memory.read_write, he]

/-- A pop takes the oldest byte. -/
theorem Fifo.contents_popped {cap : Nat} {f : Fifo} (hf : Fifo.Ok cap f) (h : f.head ≠ f.tail) :
    f.contents cap =
      f.mem.read f.tail :: ({ f with tail := nextIndex cap f.tail } : Fifo).contents cap := by
  unfold Fifo.contents
  rw [← Fifo.count_popped hf.head_lt hf.tail_lt h, List.range_succ_eq_map, List.map_cons, List.map_map]
  congr 1
  · rw [Nat.add_zero, Nat.mod_eq_of_lt hf.tail_lt]
  · refine List.map_congr_left fun k _ => ?_
    simp only [Function.comp]
    rw [show (nextIndex cap f.tail + k) % cap = (f.tail + (k + 1)) % cap by
      unfold nextIndex; rw [Nat.mod_add_mod]; congr 1; omega]

end Sys2Proof.Machine
end

