-- ==== Sys2Proof/Laws/Ops.lean ====
section
/-! SUPPORT. What each shared operation can do: one lemma per operation that says everything its result can be, and
one that says that it does not fault where the FIFO it works on is `Fifo.Ok`. -/

namespace Sys2Proof.Machine

/-! ### Push and pop -/

/-- Everything a push can do. -/
theorem push_cases {q : Queue} {b : Byte} {s t : State} {r : Bool} (h : push q b s = .ok (r, t)) :
    (r = false ∧ (s.fifo q).isFull (slots s.params q) = true ∧ t = s) ∨
    (r = true ∧ (s.fifo q).isFull (slots s.params q) = false ∧ (s.fifo q).head < slots s.params q ∧
      t = s.setFifo q ((s.fifo q).pushed (slots s.params q) b)) := by
  unfold push writeAt at h
  cases hf : (s.fifo q).isFull (slots s.params q) with
  | true =>
    simp only [hf, if_true, Except.ok.injEq, Prod.mk.injEq] at h
    exact .inl ⟨h.1.symm, rfl, h.2.symm⟩
  | false =>
    by_cases hlt : (s.fifo q).head < slots s.params q
    · simp only [hf, Bool.false_eq_true, if_false, hlt, if_true, Except.ok.injEq, Prod.mk.injEq] at h
      exact .inr ⟨h.1.symm, rfl, hlt, h.2.symm⟩
    · simp [hf, hlt] at h

/-- A push into a full FIFO. -/
theorem push_full {q : Queue} {b : Byte} {s : State}
    (h : (s.fifo q).isFull (slots s.params q) = true) : push q b s = .ok (false, s) := by
  simp [push, h]

/-- A push into a FIFO with room. -/
theorem push_room {q : Queue} {b : Byte} {s : State}
    (h : (s.fifo q).isFull (slots s.params q) = false) (hh : (s.fifo q).head < slots s.params q) :
    push q b s = .ok (true, s.setFifo q ((s.fifo q).pushed (slots s.params q) b)) := by
  simp [push, h, writeAt, hh, Fifo.pushed]

/-- Everything a pop can do. -/
theorem pop_cases {q : Queue} {s t : State} {r : Option Byte} (h : pop q s = .ok (r, t)) :
    (r = none ∧ (s.fifo q).head = (s.fifo q).tail ∧ t = s) ∨
    ∃ b, r = some b ∧ (s.fifo q).head ≠ (s.fifo q).tail ∧ (s.fifo q).mem.read (s.fifo q).tail = some b ∧
      t = s.setFifo q { s.fifo q with tail := nextIndex (slots s.params q) (s.fifo q).tail } := by
  unfold pop readAt at h
  rw [Fifo.isEmpty_eq] at h
  split at h
  · simp only [Except.ok.injEq, Prod.mk.injEq] at h
    rename_i he
    exact .inl ⟨h.1.symm, by simpa using he, h.2.symm⟩
  · rename_i hne
    simp only [decide_eq_true_eq] at hne
    by_cases hlt : (s.fifo q).tail < slots s.params q
    · rw [if_pos hlt] at h
      cases hr : (s.fifo q).mem.read (s.fifo q).tail with
      | none => simp [hr] at h
      | some b =>
        simp only [hr, Except.ok.injEq, Prod.mk.injEq] at h
        exact .inr ⟨b, h.1.symm, hne, rfl, h.2.symm⟩
    · simp [hlt] at h

/-- A pop of an empty FIFO. -/
theorem pop_empty {q : Queue} {s : State} (h : (s.fifo q).head = (s.fifo q).tail) :
    pop q s = .ok (none, s) := by simp [pop, Fifo.isEmpty_eq, h]

/-- A pop of a FIFO whose oldest byte has been written. -/
theorem pop_some {q : Queue} {s : State} {b : Byte} (h : (s.fifo q).head ≠ (s.fifo q).tail)
    (hlt : (s.fifo q).tail < slots s.params q) (hr : (s.fifo q).mem.read (s.fifo q).tail = some b) :
    pop q s = .ok (some b,
      s.setFifo q { s.fifo q with tail := nextIndex (slots s.params q) (s.fifo q).tail }) := by
  simp [pop, Fifo.isEmpty_eq, h, readAt, hlt, hr]

/-- Setting a FIFO twice. -/
@[simp] theorem State.setFifo_setFifo (s : State) (q : Queue) (f g : Fifo) :
    (s.setFifo q f).setFifo q g = s.setFifo q g := by cases q <;> rfl

/-- Setting a FIFO to itself. -/
@[simp] theorem State.setFifo_fifo (s : State) (q : Queue) : s.setFifo q (s.fifo q) = s := by
  cases q <;> rfl

/-- A run of pushes changes one FIFO, and no index but its `head`. -/
theorem pushAll_cases {q : Queue} {bs : List Byte} {s t : State} {n : Nat}
    (h : pushAll q bs s = .ok (n, t)) :
    ∃ f, t = s.setFifo q f ∧ f.tail = (s.fifo q).tail ∧
      (Fifo.Ok (slots s.params q) (s.fifo q) → Fifo.Ok (slots s.params q) f) := by
  induction bs generalizing s n with
  | nil =>
    simp only [pushAll, Except.ok.injEq, Prod.mk.injEq] at h
    exact ⟨s.fifo q, by simp [← h.2], rfl, id⟩
  | cons b bs ih =>
    simp only [pushAll] at h
    split at h
    · cases h
    · rename_i hp
      simp only [Except.ok.injEq, Prod.mk.injEq] at h
      rcases push_cases hp with ⟨_, _, rfl⟩ | ⟨h', _⟩
      · exact ⟨_, by simp [← h.2], rfl, id⟩
      · cases h'
    · rename_i u hp
      rcases push_cases hp with ⟨h', _⟩ | ⟨_, hf, _, rfl⟩
      · cases h'
      · split at h
        · cases h
        · rename_i hr
          simp only [Except.ok.injEq, Prod.mk.injEq] at h
          obtain ⟨rfl, rfl⟩ := h
          obtain ⟨f, rfl, htl, hok⟩ := ih hr
          refine ⟨f, by simp, by simpa using htl, fun ho => ?_⟩
          simpa using hok (by simpa using ho.pushed b hf)

/-- A run of pushes does not fault. -/
theorem pushAll_ok {q : Queue} (bs : List Byte) {s : State}
    (hs : Fifo.Ok (slots s.params q) (s.fifo q)) : ∃ n t, pushAll q bs s = .ok (n, t) := by
  induction bs generalizing s with
  | nil => exact ⟨0, s, rfl⟩
  | cons b bs ih =>
    cases hf : (s.fifo q).isFull (slots s.params q) with
    | true => exact ⟨0, s, by simp [pushAll, push_full hf]⟩
    | false =>
      obtain ⟨n, t, ht⟩ :=
        ih (s := s.setFifo q ((s.fifo q).pushed (slots s.params q) b)) (by simpa using hs.pushed b hf)
      exact ⟨n + 1, t, by simp [pushAll, push_room hf hs.head_lt, ht]⟩

/-- A run of pops changes one FIFO, and nothing of it but its `tail`. -/
theorem popMany_cases {q : Queue} {n : Nat} {s t : State} {bs : List Byte}
    (h : popMany q n s = .ok (bs, t)) :
    ∃ tl, t = s.setFifo q { s.fifo q with tail := tl } ∧
      (Fifo.Ok (slots s.params q) (s.fifo q) → Fifo.Ok (slots s.params q) { s.fifo q with tail := tl }) := by
  induction n generalizing s bs with
  | zero =>
    simp only [popMany, Except.ok.injEq, Prod.mk.injEq] at h
    exact ⟨(s.fifo q).tail, by cases q <;> exact h.2.symm, id⟩
  | succ n ih =>
    simp only [popMany] at h
    split at h
    · cases h
    · rename_i hp
      simp only [Except.ok.injEq, Prod.mk.injEq] at h
      rcases pop_cases hp with ⟨_, _, rfl⟩ | ⟨_, h', _⟩
      · exact ⟨_, by cases q <;> exact h.2.symm, id⟩
      · cases h'
    · rename_i b u hp
      rcases pop_cases hp with ⟨h', _⟩ | ⟨_, _, hne, _, rfl⟩
      · cases h'
      · split at h
        · cases h
        · rename_i hr
          simp only [Except.ok.injEq, Prod.mk.injEq] at h
          obtain ⟨rfl, rfl⟩ := h
          obtain ⟨tl, rfl, hok⟩ := ih hr
          refine ⟨tl, by simp, fun ho => ?_⟩
          simpa using hok (by simpa using ho.popped hne)

/-- A run of pops does not fault. -/
theorem popMany_ok {q : Queue} (n : Nat) {s : State}
    (hs : Fifo.Ok (slots s.params q) (s.fifo q)) : ∃ bs t, popMany q n s = .ok (bs, t) := by
  induction n generalizing s with
  | zero => exact ⟨[], s, rfl⟩
  | succ n ih =>
    by_cases he : (s.fifo q).head = (s.fifo q).tail
    · exact ⟨[], s, by simp [popMany, pop_empty he]⟩
    · obtain ⟨b, hb⟩ := hs.oldest he
      obtain ⟨bs, t, ht⟩ :=
        ih (s := s.setFifo q { s.fifo q with tail := nextIndex (slots s.params q) (s.fifo q).tail })
          (by simpa using hs.popped he)
      exact ⟨b :: bs, t, by simp [popMany, pop_some he hs.tail_lt hb, ht]⟩

/-! ### The transmit side -/

/-- The transmit side moved and nothing else: the transmit FIFO, its fault, the flush request, the backend's answers,
and bytes put on the wire. -/
def TxMoved (s t : State) : Prop :=
  ∃ f fault fr ans es,
    t = { s with
      txq := f, txFault := s.txFault || fault, flushReq := fr, beWrites := ans, events := s.events ++ es } ∧
    (Fifo.Ok s.params.txCap s.txq → Fifo.Ok s.params.txCap f) ∧
    ∀ e ∈ es, ∃ bs, e = Event.beWrite bs

/-- What a send and a flush can do: move the transmit side, or move it and then end the session by an error. -/
def Sent (s t : State) : Prop :=
  TxMoved s t ∨ (s.linked = true ∧ ∃ u, TxMoved s u ∧ t = sessionError u)

theorem TxMoved.refl (s : State) : TxMoved s s :=
  ⟨s.txq, false, s.flushReq, s.beWrites, [], by simp, id, by simp⟩

theorem TxMoved.trans {s t u : State} (h₁ : TxMoved s t) (h₂ : TxMoved t u) : TxMoved s u := by
  obtain ⟨f, fault, fr, ans, es, rfl, hf, he⟩ := h₁
  obtain ⟨f', fault', fr', ans', es', rfl, hf', he'⟩ := h₂
  refine ⟨f', fault || fault', fr', ans', es ++ es', by simp [Bool.or_assoc], fun h => hf' (hf h), ?_⟩
  intro e h
  rcases List.mem_append.mp h with h | h
  · exact he e h
  · exact he' e h

theorem TxMoved.linked {s t : State} (h : TxMoved s t) : t.linked = s.linked := by
  obtain ⟨f, fault, fr, ans, es, rfl, -⟩ := h
  rfl

theorem Sent.afterMove {s t u : State} (h₁ : TxMoved s t) (h₂ : Sent t u) : Sent s u := by
  rcases h₂ with h₂ | ⟨hl, v, h₂, rfl⟩
  · exact .inl (h₁.trans h₂)
  · exact .inr ⟨h₁.linked ▸ hl, v, h₁.trans h₂, rfl⟩

/-- `put` of a byte is the byte offered (R164). -/
theorem put_cases {b : Byte} {s t : State} (h : put b s = .ok t) : t = s.offered b := by
  unfold put at h
  split at h
  · rename_i hp
    rcases push_cases hp with ⟨h', _⟩ | ⟨_, hf, _, rfl⟩
    · cases h'
    · simp only [State.fifo_txq, slots_txq] at hf
      simp only [Except.ok.injEq] at h
      simp [State.offered, hf, ← h, State.setFifo]
  · rename_i hp
    rcases push_cases hp with ⟨_, hf, rfl⟩ | ⟨h', _⟩
    · simp only [State.fifo_txq, slots_txq] at hf
      simp only [Except.ok.injEq] at h
      simp [State.offered, hf, ← h]
    · cases h'
  · cases h

/-- `put` does not fault. -/
theorem put_ok {b : Byte} {s : State} (h : s.txq.head < s.params.txCap) : put b s = .ok (s.offered b) := by
  unfold put State.offered
  cases hf : s.txq.isFull s.params.txCap with
  | true => rw [push_full (q := .txq) (by simpa using hf)]; simp
  | false =>
    rw [push_room (q := .txq) (by simpa using hf) (by simpa using h)]
    simp [State.setFifo]

/-- An offered byte moves the transmit side. -/
theorem State.offered_moved (s : State) (b : Byte) : TxMoved s (s.offered b) := by
  unfold State.offered
  split
  · exact ⟨s.txq, true, s.flushReq, s.beWrites, [], by simp, id, by simp⟩
  · rename_i hf
    exact ⟨s.txq.pushed s.params.txCap b, false, s.flushReq, s.beWrites, [], by simp,
      fun h => h.pushed b (by simpa using hf), by simp⟩

theorem State.offered_params (s : State) (b : Byte) : (s.offered b).params = s.params := by
  unfold State.offered; split <;> rfl

theorem State.offered_head_lt {s : State} (b : Byte) (h : s.txq.head < s.params.txCap) :
    (s.offered b).txq.head < (s.offered b).params.txCap := by
  unfold State.offered
  split
  · exact h
  · exact nextIndex_lt h

/-- `put` of each byte of a list is each byte offered in turn. -/
theorem putAll_cases {bs : List Byte} {s t : State} (h : putAll bs s = .ok t) :
    t = bs.foldl (fun u b => u.offered b) s := by
  induction bs generalizing s with
  | nil => simpa [putAll, eq_comm] using h
  | cons b bs ih =>
    simp only [putAll] at h
    split at h
    · rename_i hp
      rw [put_cases hp] at h
      exact ih h
    · cases h

/-- `putAll` does not fault. -/
theorem putAll_ok (bs : List Byte) {s : State} (h : s.txq.head < s.params.txCap) :
    putAll bs s = .ok (bs.foldl (fun u b => u.offered b) s) := by
  induction bs generalizing s with
  | nil => rfl
  | cons b bs ih =>
    simp only [putAll, put_ok h, List.foldl_cons]
    exact ih (State.offered_head_lt b h)

/-- Offered bytes move the transmit side. -/
theorem offeredAll_moved (bs : List Byte) (s : State) :
    TxMoved s (bs.foldl (fun u b => u.offered b) s) := by
  induction bs generalizing s with
  | nil => exact .refl s
  | cons b bs ih => exact (s.offered_moved b).trans (ih _)

theorem endFlush_moved (s : State) : TxMoved s (endFlush s) :=
  ⟨s.txq, false, s.params.flushKeepsReq && !s.txq.isEmpty, s.beWrites, [], by simp [endFlush], id, by simp⟩

theorem drawWrite_moved (s : State) : TxMoved s (drawWrite s).2 := by
  cases h : s.beWrites with
  | nil => simpa [drawWrite, h] using TxMoved.refl s
  | cons a rest => exact ⟨s.txq, false, s.flushReq, rest, [], by simp [drawWrite, h], id, by simp⟩

theorem popMany_moved {n : Nat} {s t : State} {bs : List Byte} (h : popMany .txq n s = .ok (bs, t)) :
    TxMoved s t := by
  obtain ⟨tl, rfl, hok⟩ := popMany_cases h
  exact ⟨_, false, s.flushReq, s.beWrites, [], by simp [State.setFifo]; rfl, by simpa using hok, by simp⟩

theorem emit_beWrite_moved (s : State) (bs : List Byte) : TxMoved s (s.emit (.beWrite bs)) :=
  ⟨s.txq, false, s.flushReq, s.beWrites, [.beWrite bs], by simp [State.emit], id, by simp⟩

/-- Everything the passes of a flush can do. -/
theorem flushLoop_sent {n : Nat} {s t : State} (hl : s.linked = true) (h : flushLoop n s = .ok t) :
    Sent s t := by
  induction n generalizing s with
  | zero =>
    simp only [flushLoop, Except.ok.injEq] at h
    exact .inl (h ▸ endFlush_moved s)
  | succ n ih =>
    simp only [flushLoop] at h
    split at h
    · simp only [Except.ok.injEq] at h
      exact .inl (h ▸ endFlush_moved s)
    · have hd := drawWrite_moved s
      split at h
      · rename_i u hu
        simp only [Except.ok.injEq] at h
        exact .inr ⟨hl, u, by rw [hu] at hd; exact hd, h.symm⟩
      · rename_i k u hu
        rw [hu] at hd
        split at h
        · cases h
        · rename_i sent v hp
          have hv := (hd.trans (popMany_moved hp)).trans (emit_beWrite_moved v sent)
          split at h
          · simp only [Except.ok.injEq] at h
            exact .inl (h ▸ hv.trans (endFlush_moved _))
          · exact .afterMove hv (ih (hv.linked.trans hl) h)

/-- The passes of a flush do not fault. -/
theorem flushLoop_ok (n : Nat) {s : State} (hs : Fifo.Ok s.params.txCap s.txq) :
    ∃ t, flushLoop n s = .ok t := by
  induction n generalizing s with
  | zero => exact ⟨_, rfl⟩
  | succ n ih =>
    simp only [flushLoop]
    split
    · exact ⟨_, rfl⟩
    · split
      · exact ⟨_, rfl⟩
      · rename_i k u hu
        have hp : u.params = s.params := by have := drawWrite_params s; rw [hu] at this; exact this
        have hq : u.txq = s.txq := by have := drawWrite_txq s; rw [hu] at this; exact this
        have hu' : Fifo.Ok (slots u.params .txq) (u.fifo .txq) := by simpa [hp, hq] using hs
        obtain ⟨bs, v, hv⟩ := popMany_ok (q := .txq) (min k (u.txq.count u.params.txCap)) hu'
        rw [hv]
        obtain ⟨tl, rfl, hok⟩ := popMany_cases hv
        simp only
        split
        · exact ⟨_, rfl⟩
        · exact ih (by simpa using hok hu')

/-- Everything a flush can do. -/
theorem flush_sent {s t : State} (h : flush s = .ok t) : Sent s t := by
  unfold flush at h
  split at h
  · exact flushLoop_sent ‹_› h
  · simp only [Except.ok.injEq] at h
    exact .inl (h ▸ .refl s)

@[simp] theorem sessionError_txq_mem (s : State) : (sessionError s).txq.mem = s.txq.mem := by
  cases h : s.session <;> simp [sessionError, h]

/-- The passes of a flush write no byte of `txq`. -/
theorem flushLoop_txq_mem {n : Nat} {s t : State} (h : flushLoop n s = .ok t) : t.txq.mem = s.txq.mem := by
  induction n generalizing s with
  | zero =>
    simp only [flushLoop, Except.ok.injEq] at h
    exact h ▸ rfl
  | succ n ih =>
    simp only [flushLoop] at h
    split at h
    · exact (Except.ok.inj h) ▸ rfl
    · have hd := drawWrite_txq s
      split at h
      · rename_i u e
        rw [e] at hd
        obtain rfl := Except.ok.inj h
        rw [sessionError_txq_mem, hd]
      · rename_i k u e
        rw [e] at hd
        have hm : u.txq.mem = s.txq.mem := congrArg Fifo.mem hd
        split at h
        · cases h
        · rename_i sent v hp
          obtain ⟨tl, rfl, -⟩ := popMany_cases hp
          split at h
          · obtain rfl := Except.ok.inj h
            exact hm
          · exact (ih h).trans hm

/-- A flush writes no byte of `txq` (R202). -/
theorem flush_txq_mem {s t : State} (h : flush s = .ok t) : t.txq.mem = s.txq.mem := by
  unfold flush at h
  split at h
  · exact flushLoop_txq_mem h
  · exact (Except.ok.inj h) ▸ rfl

/-- A flush does not fault. -/
theorem flush_ok {s : State} (hs : Fifo.Ok s.params.txCap s.txq) : ∃ t, flush s = .ok t := by
  unfold flush
  split
  · exact flushLoop_ok _ hs
  · exact ⟨s, rfl⟩

/-- Everything a flush request can do. -/
theorem requestFlush_sent {s t : State} (h : requestFlush s = .ok t) : Sent s t := by
  unfold requestFlush at h
  split at h
  · exact flush_sent h
  · simp only [Except.ok.injEq] at h
    exact .inl (h ▸ ⟨s.txq, false, true, s.beWrites, [], by simp, id, by simp⟩)

/-- A flush request does not fault. -/
theorem requestFlush_ok {s : State} (hs : Fifo.Ok s.params.txCap s.txq) :
    ∃ t, requestFlush s = .ok t := by
  unfold requestFlush
  split
  · exact flush_ok hs
  · exact ⟨_, rfl⟩

/-- Moving the transmit side keeps its FIFO as every run has it. -/
theorem TxMoved.txq_ok {s t : State} (h : TxMoved s t) (hs : Fifo.Ok s.params.txCap s.txq) :
    Fifo.Ok t.params.txCap t.txq := by
  obtain ⟨f, fault, fr, ans, es, rfl, hf, -⟩ := h
  exact hf hs

/-- Everything the send of a byte can do. -/
theorem sendByte_sent {b : Byte} {s t : State} (h : sendByte b s = .ok t) : Sent s t := by
  unfold sendByte at h
  split at h
  · rename_i u hu
    rw [put_cases hu] at h
    exact .afterMove (s.offered_moved b) (requestFlush_sent h)
  · cases h

/-- The send of a byte does not fault. -/
theorem sendByte_ok (b : Byte) {s : State} (hs : Fifo.Ok s.params.txCap s.txq) :
    ∃ t, sendByte b s = .ok t := by
  unfold sendByte
  rw [put_ok hs.head_lt]
  exact requestFlush_ok ((s.offered_moved b).txq_ok hs)

/-- Everything the send of a packet can do: its bytes are offered, the framer is armed, a flush is requested. -/
theorem sendPacket_sent {p : List Byte} {s t : State} (h : sendPacket p s = .ok t) :
    ∃ u, TxMoved s u ∧ Sent { u with rxState := .ackWait } t := by
  unfold sendPacket at h
  split at h
  · rename_i u hu
    rw [putAll_cases hu] at h
    exact ⟨_, offeredAll_moved _ s, requestFlush_sent h⟩
  · cases h

/-- The send of a packet does not fault. -/
theorem sendPacket_ok (p : List Byte) {s : State} (hs : Fifo.Ok s.params.txCap s.txq) :
    ∃ t, sendPacket p s = .ok t := by
  unfold sendPacket
  rw [putAll_ok _ hs.head_lt]
  exact requestFlush_ok ((offeredAll_moved _ s).txq_ok hs)

/-! ### The payload store -/

/-- A write of `pkt` inside the store. -/
theorem State.writePkt_ok {s : State} {i : Nat} {b : Byte} (h : i ≤ s.params.pktMax) :
    s.writePkt i b = .ok { s with pkt := s.pkt.write i b } := by
  simp [State.writePkt, writeAt, Nat.lt_succ_iff.mpr h]

/-- Everything a write of `pkt` can do. -/
theorem State.writePkt_cases {s t : State} {i : Nat} {b : Byte} (h : s.writePkt i b = .ok t) :
    i ≤ s.params.pktMax ∧ t = { s with pkt := s.pkt.write i b } := by
  by_cases hi : i ≤ s.params.pktMax
  · rw [State.writePkt_ok hi] at h
    simp only [Except.ok.injEq] at h
    exact ⟨hi, h.symm⟩
  · simp [State.writePkt, writeAt, show ¬ i < s.params.pktMax + 1 by omega] at h

/-- Writing at or above `len` leaves the first `len` bytes. -/
theorem Memory.slice_write (m : Memory) {a len : Nat} (x : Byte) (h : len ≤ a) :
    (m.write a x).slice len = m.slice len := by
  unfold Memory.slice
  refine List.map_congr_left fun k hk => ?_
  rw [Memory.read_write, if_neg (by have := List.mem_range.mp hk; omega)]

/-- Everything that can follow a send inside one step. -/
theorem afterSend_cases {rest : State → Except Fault State} {sent : Except Fault State} {t : State}
    (h : afterSend rest sent = .ok t) :
    ∃ u, sent = .ok u ∧ ((u.linked = true ∧ rest u = .ok t) ∨ (u.linked = false ∧ t = u)) := by
  unfold afterSend at h
  split at h
  · rename_i u
    refine ⟨u, rfl, ?_⟩
    split at h
    · exact .inl ⟨‹_›, h⟩
    · rename_i hl
      exact .inr ⟨by simpa using hl, (Except.ok.inj h).symm⟩
  · cases h

/-- After a send that left the backend linked, the step goes on. -/
theorem afterSend_linked {rest : State → Except Fault State} {u : State} (h : u.linked = true) :
    afterSend rest (.ok u) = rest u := if_pos h

/-- After a send whose flush failed, the step does nothing more. -/
theorem afterSend_error {rest : State → Except Fault State} {u : State} (h : u.linked = false) :
    afterSend rest (.ok u) = .ok u := by simp [afterSend, h]

/-- The dispatch of an accepted frame (R132). -/
theorem dispatchFrame_ok {s : State} (h : s.rxSize ≤ s.params.pktMax) :
    dispatchFrame s = .ok { s with
      pkt := s.pkt.write s.rxSize 0x00#8
      rxState := .idle
      dispatchPending := true
      events := s.events ++ [.dispatch (s.pkt.slice s.rxSize) s.rxSize] } := by
  simp only [dispatchFrame, State.writePkt_ok h, State.emit]
  rw [Memory.slice_write _ _ (Nat.le_refl _)]

/-- Everything the dispatch of an accepted frame can do. -/
theorem dispatchFrame_cases {s t : State} (h : dispatchFrame s = .ok t) :
    s.rxSize ≤ s.params.pktMax ∧
      t = { s with
        pkt := s.pkt.write s.rxSize 0x00#8
        rxState := .idle
        dispatchPending := true
        events := s.events ++ [.dispatch (s.pkt.slice s.rxSize) s.rxSize] } := by
  by_cases hs : s.rxSize ≤ s.params.pktMax
  · exact ⟨hs, (Except.ok.inj ((dispatchFrame_ok hs).symm.trans h)).symm⟩
  · simp [dispatchFrame, State.writePkt, writeAt, show ¬ s.rxSize < s.params.pktMax + 1 by omega] at h

/-- Accepting a frame after its acknowledgement was sent and the backend is still linked (R132). -/
theorem acceptFrame_of_send {s t : State} (h : sendByte ackByte s = .ok t) (hl : t.linked = true)
    (ht : t.rxSize ≤ t.params.pktMax) :
    acceptFrame s = .ok { t with
      pkt := t.pkt.write t.rxSize 0x00#8
      rxState := .idle
      dispatchPending := true
      events := t.events ++ [.dispatch (t.pkt.slice t.rxSize) t.rxSize] } := by
  rw [acceptFrame, h, afterSend_linked hl, dispatchFrame_ok ht]

/-- Accepting a frame whose acknowledgement met a backend error: the step does nothing more (D34). -/
theorem acceptFrame_of_error {s t : State} (h : sendByte ackByte s = .ok t) (hl : t.linked = false) :
    acceptFrame s = .ok t := by
  rw [acceptFrame, h, afterSend_error hl]

/-- Everything accepting a frame can do. -/
theorem acceptFrame_cases {s t : State} (h : acceptFrame s = .ok t) :
    ∃ u, sendByte ackByte s = .ok u ∧
      ((u.linked = true ∧ u.rxSize ≤ u.params.pktMax ∧
        t = { u with
          pkt := u.pkt.write u.rxSize 0x00#8
          rxState := .idle
          dispatchPending := true
          events := u.events ++ [.dispatch (u.pkt.slice u.rxSize) u.rxSize] }) ∨
      (u.linked = false ∧ t = u)) := by
  obtain ⟨u, hu, ⟨hl, hd⟩ | hl⟩ := afterSend_cases h
  · exact ⟨u, hu, .inl ⟨hl, dispatchFrame_cases hd⟩⟩
  · exact ⟨u, hu, .inr hl⟩

/-- A command fault whose error packet was sent and the backend is still linked (R139). -/
theorem commandFault_of_send {s t : State} (h : sendPacket errorPayload s = .ok t) (hl : t.linked = true) :
    commandFault s =
      .ok { t with events := t.events ++ [.targetListReset, .displayMsg], dispatchPending := false } := by
  rw [commandFault, h, afterSend_linked hl]
  simp [State.emit]

/-- A command fault whose error packet met a backend error: the step does nothing more (D34). -/
theorem commandFault_of_error {s t : State} (h : sendPacket errorPayload s = .ok t) (hl : t.linked = false) :
    commandFault s = .ok t := by
  rw [commandFault, h, afterSend_error hl]

/-- Everything a command fault can do. -/
theorem commandFault_cases {s t : State} (h : commandFault s = .ok t) :
    ∃ u, sendPacket errorPayload s = .ok u ∧
      ((u.linked = true ∧
        t = { u with events := u.events ++ [.targetListReset, .displayMsg], dispatchPending := false }) ∨
      (u.linked = false ∧ t = u)) := by
  obtain ⟨u, hu, ⟨hl, hd⟩ | hl⟩ := afterSend_cases h
  · exact ⟨u, hu, .inl ⟨hl, by simpa [State.emit] using (Except.ok.inj hd).symm⟩⟩
  · exact ⟨u, hu, .inr hl⟩

/-- Everything rejecting a frame can do (R255). -/
theorem rejectFrame_cases {s t : State} (h : rejectFrame s = .ok t) :
    ∃ u, sendByte nakByte s = .ok u ∧ t = { u with rxState := .idle } := by
  cases hs : sendByte nakByte s with
  | error f => simp [rejectFrame, hs] at h
  | ok u =>
    simp only [rejectFrame, hs, Except.ok.injEq] at h
    exact ⟨u, rfl, h.symm⟩

/-- Everything storing a byte of the body can do (R127, R129). -/
theorem storeByte_cases {c b : Byte} {s t : State} (h : storeByte c b s = .ok t) :
    s.rxSize ≤ s.params.pktMax ∧
      t = { s with
        pkt := s.pkt.write s.rxSize c, rxSize := s.rxSize + 1, rxCsum := s.rxCsum + b, rxState := .char } := by
  unfold storeByte at h
  split at h
  · cases h
  · rename_i u hu
    obtain ⟨hle, rfl⟩ := State.writePkt_cases hu
    simp only [Except.ok.injEq] at h
    exact ⟨hle, h.symm⟩

/-! ### Runs of pushes, pops and offered bytes, and the passes of a flush, as equations -/

/-- A run of pushes accepts the longest run of its first bytes that fits. -/
theorem pushAll_eq {q : Queue} (bs : List Byte) {s : State} {n : Nat}
    (hk : Fifo.Ok (slots s.params q) (s.fifo q))
    (hn : n = min bs.length (slots s.params q - 1 - (s.fifo q).count (slots s.params q))) :
    pushAll q bs s =
      .ok (n, s.setFifo q ((s.fifo q).pushedAll (slots s.params q) (bs.take n))) := by
  induction bs generalizing s n with
  | nil => subst hn; simp [pushAll, Fifo.pushedAll]
  | cons b bs ih =>
    cases hf : (s.fifo q).isFull (slots s.params q) with
    | true =>
      have : ¬ (s.fifo q).count (slots s.params q) + 1 < slots s.params q := fun h => by
        simp [Fifo.not_full_of_count_lt hk.head_lt hk.tail_lt h] at hf
      obtain rfl : n = 0 := by omega
      simp [pushAll, push_full hf, Fifo.pushedAll]
    | false =>
      have hc := Fifo.count_pushed b hk.head_lt hk.tail_lt hf
      have hlt := Fifo.count_lt_of_not_full hk.head_lt hk.tail_lt hf
      obtain ⟨k, rfl⟩ : ∃ k, n = k + 1 := ⟨n - 1, by simp only [List.length_cons] at hn; omega⟩
      have := ih (s := s.setFifo q ((s.fifo q).pushed (slots s.params q) b)) (n := k)
        (by simpa using hk.pushed b hf)
        (by
          simp only [State.setFifo_params, State.fifo_setFifo, hc]
          simp only [List.length_cons] at hn
          omega)
      simp only [State.setFifo_params, State.fifo_setFifo, State.setFifo_setFifo] at this
      simp only [pushAll, push_room hf hk.head_lt, this, List.take_succ_cons, Fifo.pushedAll]

/-- Bytes offered where there is room for all of them are all stored. -/
theorem offeredAll_fits (bs : List Byte) {s : State} (h : s.txq.fits s.params.txCap bs.length) :
    bs.foldl (fun u b => u.offered b) s = { s with txq := s.txq.pushedAll s.params.txCap bs } ∧
    (s.txq.pushedAll s.params.txCap bs).count s.params.txCap = s.txq.count s.params.txCap + bs.length ∧
    Fifo.Ok s.params.txCap (s.txq.pushedAll s.params.txCap bs) := by
  induction bs generalizing s with
  | nil => exact ⟨rfl, rfl, h.1⟩
  | cons b bs ih =>
    obtain ⟨hk, hroom⟩ := h
    rw [List.length_cons] at hroom
    have hf : s.txq.isFull s.params.txCap = false :=
      Fifo.not_full_of_count_lt hk.head_lt hk.tail_lt (by have := hk.head_lt; omega)
    have ho : s.offered b = { s with txq := s.txq.pushed s.params.txCap b } := by
      simp [State.offered, hf]
    have hc := Fifo.count_pushed b hk.head_lt hk.tail_lt hf
    obtain ⟨h₁, h₂, h₃⟩ := ih (s := { s with txq := s.txq.pushed s.params.txCap b })
      ⟨hk.pushed b hf, by simp only [hc]; omega⟩
    simp only [List.foldl_cons, ho, h₁, Fifo.pushedAll, List.length_cons]
    exact ⟨trivial, by rw [h₂, hc]; omega, h₃⟩

/-- `n` pops of a FIFO that holds at least `n` bytes give its `n` oldest, in order. -/
theorem popMany_eq (n : Nat) {s : State} (hk : Fifo.Ok s.params.txCap s.txq)
    (hn : n ≤ s.txq.count s.params.txCap) :
    ∃ sent,
      popMany .txq n s =
        .ok (sent, { s with txq := { s.txq with tail := (s.txq.tail + n) % s.params.txCap } }) ∧
      sent.map some = (s.txq.contents s.params.txCap).take n ∧
      ({ s.txq with tail := (s.txq.tail + n) % s.params.txCap } : Fifo).contents s.params.txCap =
        (s.txq.contents s.params.txCap).drop n ∧
      Fifo.Ok s.params.txCap { s.txq with tail := (s.txq.tail + n) % s.params.txCap } := by
  induction n generalizing s with
  | zero => exact ⟨[], by simp [popMany, Nat.mod_eq_of_lt hk.tail_lt, hk]⟩
  | succ n ih =>
    have he : s.txq.head ≠ s.txq.tail := fun e => by
      have := (Fifo.count_eq_zero hk.head_lt hk.tail_lt).mpr e
      omega
    obtain ⟨b, hb⟩ := hk.oldest he
    have hpop := pop_some (q := .txq) (s := s) (by simpa using he) (by simpa using hk.tail_lt)
      (by simpa using hb)
    have hc := Fifo.count_popped hk.head_lt hk.tail_lt he
    obtain ⟨sent, h₁, h₂, h₃, h₄⟩ :=
      ih (s := { s with txq := { s.txq with tail := nextIndex s.params.txCap s.txq.tail } })
        (hk.popped he) (by simp only; omega)
    have e : (nextIndex s.params.txCap s.txq.tail + n) % s.params.txCap =
        (s.txq.tail + (n + 1)) % s.params.txCap := by
      unfold nextIndex; rw [Nat.mod_add_mod]; congr 1; omega
    simp only [e] at h₁ h₂ h₃ h₄
    refine ⟨b :: sent, ?_, ?_, ?_, h₄⟩
    · simp only [popMany, hpop, State.setFifo, slots_txq, State.fifo_txq, h₁]
    · rw [Fifo.contents_popped hk he, hb]; simp [h₂]
    · rw [Fifo.contents_popped hk he]; simp [h₃]

/-- Any number of passes above the occupancy carries a flush to its end. -/
theorem flushLoop_passes (n m : Nat) {s : State} (hk : Fifo.Ok s.params.txCap s.txq)
    (hn : s.txq.count s.params.txCap < n) (hm : s.txq.count s.params.txCap < m) :
    flushLoop n s = flushLoop m s := by
  induction n generalizing s m with
  | zero => omega
  | succ n ih =>
    cases m with
    | zero => omega
    | succ m =>
      simp only [flushLoop]
      split
      · rfl
      · cases hd : drawWrite s with
        | mk a u =>
          have hp : u.params = s.params := by have := drawWrite_params s; rw [hd] at this; exact this
          have hq : u.txq = s.txq := by have := drawWrite_txq s; rw [hd] at this; exact this
          cases a with
          | error => rfl
          | takes k =>
            simp only
            obtain ⟨sent, h₁, h₂, h₃, h₄⟩ :=
              popMany_eq (min k (u.txq.count u.params.txCap)) (s := u) (by rw [hp, hq]; exact hk) (by omega)
            simp only [h₁]
            split
            · rfl
            · rename_i hs
              have hl₂ := congrArg List.length h₂
              have hl₃ := congrArg List.length h₃
              simp only [List.length_map, List.length_take, List.length_drop, Fifo.length_contents] at hl₂ hl₃
              have hpos : 0 < sent.length := by cases sent <;> simp at hs ⊢
              refine ih _ h₄ ?_ ?_ <;> simp only [State.emit_params, State.emit_txq, hl₃] <;>
                rw [hp, hq] at * <;> omega

end Sys2Proof.Machine
end

