-- ==== Sys2Proof/Laws/PerInstr.lean ====
section
/-! SUPPORT. What is true of every operation as syntax, one lemma per constructor. Family `Encoding`: the encoder lays
an operation out as its row's format says. -/

namespace Sys2Proof.Laws.Encoding

/-- A receive row is encoded as the byte and the state code of its key (R101); a named operation has a selector (R103). -/
def Statement (i : Instr) : Prop :=
  (∀ st b, i.rxKey = some (st, b) → i.format = .rxb ∧ encode i = [b, st.code]) ∧
    (i.rxKey = none → i.format = .op ∧ encode i ≠ [])

/-- A receive row whose encoding is its key. -/
theorem of_key {i : Instr} {st : RxState} {b : Byte} (hk : i.rxKey = some (st, b)) (he : encode i = [b, st.code]) :
    Statement i := by
  refine ⟨fun st' b' h => ?_, fun h => ?_⟩ <;> rw [hk] at h
  · simp only [Option.some.injEq, Prod.mk.injEq] at h
    obtain ⟨rfl, rfl⟩ := h
    exact ⟨by simp [Instr.format, hk], he⟩
  · cases h

/-- A named operation whose message has a selector. -/
theorem of_message {i : Instr} (hk : i.rxKey = none) (he : encode i ≠ []) : Statement i := by
  refine ⟨fun st b h => ?_, fun _ => ⟨by simp [Instr.format, hk], he⟩⟩
  rw [hk] at h
  cases h

theorem rxIdleStart : Statement .rxIdleStart := of_key rfl rfl
theorem rxIdleHalt : Statement .rxIdleHalt := of_key rfl rfl
theorem rxIdleIgnore (b : Byte) : Statement (.rxIdleIgnore b) := of_key rfl rfl
theorem rxCharRestart : Statement .rxCharRestart := of_key rfl rfl
theorem rxCharEnd : Statement .rxCharEnd := of_key rfl rfl
theorem rxCharEscape : Statement .rxCharEscape := of_key rfl rfl
theorem rxCharData (b : Byte) : Statement (.rxCharData b) := of_key rfl rfl
theorem rxCharOverflow (b : Byte) : Statement (.rxCharOverflow b) := of_key rfl rfl
theorem rxEscData (b : Byte) : Statement (.rxEscData b) := of_key rfl rfl
theorem rxEscOverflow (b : Byte) : Statement (.rxEscOverflow b) := of_key rfl rfl
theorem rxCsum1Capture (b : Byte) : Statement (.rxCsum1Capture b) := of_key rfl rfl
theorem rxCsum2Good (b : Byte) : Statement (.rxCsum2Good b) := of_key rfl rfl
theorem rxCsum2Bad (b : Byte) : Statement (.rxCsum2Bad b) := of_key rfl rfl
theorem rxAckwAck : Statement .rxAckwAck := of_key rfl rfl
theorem rxAckwNack : Statement .rxAckwNack := of_key rfl rfl
theorem rxAckwStart : Statement .rxAckwStart := of_key rfl rfl
theorem rxAckwIgnore (b : Byte) : Statement (.rxAckwIgnore b) := of_key rfl rfl
theorem txSendPacket (payload : List Byte) : Statement (.txSendPacket payload) := of_message rfl nofun
theorem txSendByte (b : Byte) : Statement (.txSendByte b) := of_message rfl nofun
theorem txSendFmt (operands : List Byte) : Statement (.txSendFmt operands) := of_message rfl nofun
theorem txSendConsole (string : List Byte) : Statement (.txSendConsole string) := of_message rfl nofun
theorem fifoPush (q : Queue) (b : Byte) : Statement (.fifoPush q b) := of_message rfl nofun
theorem fifoPop (q : Queue) : Statement (.fifoPop q) := of_message rfl nofun
theorem fifoReset (q : Queue) : Statement (.fifoReset q) := of_message rfl nofun
theorem xportWrite (bytes : List Byte) : Statement (.xportWrite bytes) := of_message rfl nofun
theorem xportFlush : Statement .xportFlush := of_message rfl nofun
theorem xportPoll : Statement .xportPoll := of_message rfl nofun
theorem xportService : Statement .xportService := of_message rfl nofun
theorem xportDeliver (bytes : List Byte) : Statement (.xportDeliver bytes) := of_message rfl nofun
theorem sessionInitStream (handle : List Byte) : Statement (.sessionInitStream handle) := of_message rfl nofun
theorem sessionInitNet (port : List Byte) : Statement (.sessionInitNet port) := of_message rfl nofun
theorem sessionDeinit : Statement .sessionDeinit := of_message rfl nofun
theorem sessionAccept : Statement .sessionAccept := of_message rfl nofun
theorem sessionDisconnect : Statement .sessionDisconnect := of_message rfl nofun
theorem sessionError : Statement .sessionError := of_message rfl nofun
theorem dispatchOk : Statement .dispatchOk := of_message rfl nofun
theorem dispatchFault : Statement .dispatchFault := of_message rfl nofun

end Sys2Proof.Laws.Encoding
end

