-- ==== Sys2Proof/Laws/Step.lean ====
section
/-! SUPPORT. What a step can do, said once: `exec_effect` gives every next state of an operation by the shape of its
effect, and `step_cases` gives every next state of a step as the fetch's change of the inputs and control fields, then
an operation or nothing. Claims about every operation or every step take these apart and unfold nothing. -/

namespace Sys2Proof.Machine

/-! ### Answers -/

theorem answer_next {r : Except Fault State} {t : State} (h : answer r = .next t) : r = .ok t := by
  unfold answer at h
  split at h
  · injection h with h; rw [h]
  · cases h

theorem next_inj {s t : State} (h : (Host.Outcome.next s : Answer) = .next t) : s = t := by injection h

/-- A receive step that completes: no dispatch is in progress, and the row is the selected one. -/
theorem receive_next {i : Instr} {b : Byte} {s t : State} {e : Answer} (h : receive i b s e = .next t) :
    s.dispatchPending = false ∧ s.rowFor b = i ∧ e = .next t := by
  unfold receive at h
  split at h
  · cases h
  · split at h
    · exact ⟨Bool.not_eq_true _ ▸ (by assumption), ‹_›, h⟩
    · cases h

theorem whenLinked_next {s t : State} {e : Answer} (h : whenLinked s e = .next t) :
    s.linked = true ∧ e = .next t := by
  unfold whenLinked at h
  split at h
  · exact ⟨‹_›, h⟩
  · cases h

theorem outsideDispatch_next {s t : State} {e : Answer} (h : outsideDispatch s e = .next t) :
    s.dispatchPending = false ∧ e = .next t := by
  unfold outsideDispatch at h
  split at h
  · cases h
  · exact ⟨Bool.not_eq_true _ ▸ (by assumption), h⟩

/-! ### What the selected row says of the state -/

/-- A row that stores a byte is selected only where there is room. -/
theorem rowFor_room {s : State} {b : Byte} (h : s.rowFor b = .rxCharData b ∨ s.rowFor b = .rxEscData b) :
    s.rxSize < s.params.pktMax := by
  by_contra hn
  have : (s.rxCond b).room = false := by simp [State.rxCond]; omega
  unfold State.rowFor selectRow at h
  rw [this] at h
  cases hs : s.rxState <;> simp [hs] at h <;> (repeat' split at h) <;> simp_all

/-- The halt row is selected only in `IDLE`. -/
theorem rowFor_halt {s : State} {b : Byte} (h : s.rowFor b = .rxIdleHalt) : s.rxState = .idle := by
  unfold State.rowFor selectRow at h
  cases hs : s.rxState <;> simp [hs] at h <;> (repeat' split at h) <;> simp_all

/-- In `ACK_WAIT` only its own rows are selected. -/
theorem rowFor_ackWait {s : State} {b : Byte} (h : s.rxState = .ackWait) :
    s.rowFor b = .rxAckwAck ∨ s.rowFor b = .rxAckwNack ∨ s.rowFor b = .rxAckwStart ∨
      s.rowFor b = .rxAckwIgnore b := by
  unfold State.rowFor selectRow
  rw [h]
  simp only
  (repeat' split) <;> simp

/-! ### The transport error -/

theorem sessionError_linked (s : State) : (sessionError s).linked = false := by
  cases h : s.session <;> simp [sessionError, h, State.linked]

/-- What a send and a flush leave alone, and what a transport error inside them resets. -/
theorem Sent.kept {s t : State} (h : Sent s t) :
    t.params = s.params ∧ t.pkt = s.pkt ∧ t.rxC1 = s.rxC1 ∧ t.rxq.mem = s.rxq.mem ∧
    t.dispatchPending = s.dispatchPending ∧ (s.txFault = true → t.txFault = true) ∧
    (∃ es, t.events = s.events ++ es ∧ ∀ e ∈ es, ∃ bs, e = Event.beWrite bs) ∧
    ((t.rxSize = s.rxSize ∧ t.rxCsum = s.rxCsum ∧ t.rxState = s.rxState ∧ t.linked = s.linked) ∨
      (t.rxSize = 0 ∧ t.rxCsum = 0x00#8 ∧ t.rxState = .idle ∧ t.linked = false)) := by
  rcases h with ⟨f, fault, fr, ans, es, rfl, -, he⟩ | ⟨-, u, ⟨f, fault, fr, ans, es, rfl, -, he⟩, rfl⟩
  · exact ⟨rfl, rfl, rfl, rfl, rfl, by simp_all, ⟨es, rfl, he⟩, .inl ⟨rfl, rfl, rfl, rfl⟩⟩
  · refine ⟨?_, ?_, ?_, ?_, ?_, ?_, ⟨es, ?_, he⟩, .inr ⟨?_, ?_, ?_, sessionError_linked _⟩⟩ <;>
      cases hs : s.session <;> simp_all [sessionError]

/-! ### Operations -/

/-- The effects operations have. `Effect s i t`: from `s`, operation `i` can end in `t`. -/
inductive Effect (s : State) : Instr → State → Prop
  /-- Nothing changes. -/
  | nothing {i} : Effect s i s
  | startFrame {i} (hi : i = .rxIdleStart ∨ i = .rxCharRestart ∨ i = .rxAckwStart)
      (hrow : s.rowFor 0x24#8 = i) (hd : s.dispatchPending = false) : Effect s i (startFrame s)
  | halt (hs : s.rxState = .idle) (hd : s.dispatchPending = false) : Effect s .rxIdleHalt (s.emit .haltReq)
  | endBody (hrow : s.rowFor 0x23#8 = .rxCharEnd) (hd : s.dispatchPending = false) :
      Effect s .rxCharEnd { s with rxState := .csum1 }
  | escape (hrow : s.rowFor 0x7D#8 = .rxCharEscape) (hd : s.dispatchPending = false) :
      Effect s .rxCharEscape { s with rxCsum := s.rxCsum + 0x7D#8, rxState := .esc }
  | store {i c b} (hi : i = .rxCharData b ∨ i = .rxEscData b) (hrow : s.rowFor b = i)
      (hd : s.dispatchPending = false) (hr : s.rxSize < s.params.pktMax) :
      Effect s i { s with
        pkt := s.pkt.write s.rxSize c, rxSize := s.rxSize + 1, rxCsum := s.rxCsum + b, rxState := .char }
  | capture {b} (hrow : s.rowFor b = .rxCsum1Capture b) (hd : s.dispatchPending = false) :
      Effect s (.rxCsum1Capture b) { s with rxC1 := b, rxState := .csum2 }
  | ack (hd : s.dispatchPending = false) : Effect s .rxAckwAck { s with rxState := .idle }
  | nack (hd : s.dispatchPending = false) :
      Effect s .rxAckwNack { s with rxState := .idle, events := s.events ++ [.ackFail] }
  | reject {i b u} (hi : i = .rxCharOverflow b ∨ i = .rxEscOverflow b ∨ i = .rxCsum2Bad b)
      (hrow : s.rowFor b = i) (hd : s.dispatchPending = false) (hu : Sent s u) :
      Effect s i { u with rxState := .idle }
  | accept {b u} (hrow : s.rowFor b = .rxCsum2Good b) (hd : s.dispatchPending = false) (hu : Sent s u)
      (hl : u.linked = true) (hr : u.rxSize ≤ u.params.pktMax) :
      Effect s (.rxCsum2Good b) { u with
        pkt := u.pkt.write u.rxSize 0x00#8
        rxState := .idle
        dispatchPending := true
        events := u.events ++ [.dispatch (u.pkt.slice u.rxSize) u.rxSize] }
  /-- The flush of the acknowledgement failed. -/
  | acceptError {b t} (hrow : s.rowFor b = .rxCsum2Good b) (hd : s.dispatchPending = false) (ht : Sent s t)
      (hl : t.linked = false) : Effect s (.rxCsum2Good b) t
  | sendByte {b t} (ht : Sent s t) : Effect s (.txSendByte b) t
  | sendPacket {i u t} (hi : (∃ p, i = .txSendPacket p) ∨ ∃ c, i = .txSendConsole c) (hu : TxMoved s u)
      (ht : Sent { u with rxState := .ackWait } t) : Effect s i t
  | flush {t} (ht : Sent s t) : Effect s .xportFlush t
  /-- Accepted bytes, none or more, go into a FIFO, and a result is given. -/
  | push {i f accepted bytesAccepted} (q : Queue)
      (hi : (∃ b, i = .fifoPush q b) ∨ ∃ bs, q = .txq ∧ i = .xportWrite bs)
      (hf : Fifo.Ok (slots s.params q) (s.fifo q) → Fifo.Ok (slots s.params q) f) :
      Effect s i { s.setFifo q f with accepted := accepted, bytesAccepted := bytesAccepted }
  /-- A delivery begins. -/
  | deliver {bs} (hd : s.deliverable = true) :
      Effect s (.xportDeliver bs) { s with delivering := some { rest := bs, accepted := 0 } }
  | pop {tail popped} (q : Queue)
      (hf : Fifo.Ok (slots s.params q) (s.fifo q) →
        Fifo.Ok (slots s.params q) { s.fifo q with tail := tail })
      (he : (s.fifo q).head = (s.fifo q).tail → tail = (s.fifo q).tail) :
      Effect s (.fifoPop q) { s.setFifo q { s.fifo q with tail := tail } with popped := popped }
  | resetFifo (q : Queue) : Effect s (.fifoReset q) (s.setFifo q { s.fifo q with head := 0, tail := 0 })
  | poll {i poll servicing reads} (hi : i = .xportPoll ∨ i = .xportService) (hd : s.dispatchPending = false) :
      Effect s i { s with poll := poll, servicing := servicing, beReads := reads }
  | pollError {i servicing} (reads : List ReadAnswer) (hi : i = .xportPoll ∨ i = .xportService)
      (hd : s.dispatchPending = false) :
      Effect s i { sessionError { s with beReads := reads } with servicing := servicing }
  | session {i session peer}
      (hi : (∃ h, i = .sessionInitStream h) ∨ (∃ p, i = .sessionInitNet p) ∨ i = .sessionDeinit ∨
        i = .sessionAccept ∨ i = .sessionDisconnect)
      (hd : s.dispatchPending = false)
      (hp : peer = true → session = .net ∨ (s.peer = true ∧ s.session = .inactive)) :
      Effect s i { resetAll s with session := session, peer := peer }
  | error : Effect s .sessionError (sessionError s)
  | complete (hd : s.dispatchPending = true) : Effect s .dispatchOk { s with dispatchPending := false }
  | commandFault {u t} (hd : s.dispatchPending = true) (hu : TxMoved s u)
      (ht : Sent { u with rxState := .ackWait } t) :
      Effect s .dispatchFault
        { t with events := t.events ++ [.targetListReset, .displayMsg], dispatchPending := false }
  /-- The flush of the error packet failed. -/
  | commandFaultError {u t} (hd : s.dispatchPending = true) (hu : TxMoved s u)
      (ht : Sent { u with rxState := .ackWait } t) (hl : t.linked = false) : Effect s .dispatchFault t

theorem startPoll_effect {s : State} {i : Instr} (servicing : Bool) (hi : i = .xportPoll ∨ i = .xportService)
    (hd : s.dispatchPending = false) : Effect s i { startPoll s with servicing := servicing } := by
  have kept : Effect s i { s with servicing := servicing } := .poll (poll := s.poll) (reads := s.beReads) hi hd
  unfold startPoll
  split
  · exact kept
  · cases hb : s.beReads with
    | nil => simp only [drawRead, hb]; rw [← hb]; exact kept
    | cons a rest =>
      cases a with
      | notReady => simp only [drawRead, hb]; exact .poll (poll := s.poll) hi hd
      | bytes bs => simp only [drawRead, hb]; exact .poll hi hd
      | error => simp only [drawRead, hb]; exact .pollError rest hi hd
  · split
    · exact .poll (reads := s.beReads) hi hd
    · exact kept

theorem startPoll_servicing (s : State) : (startPoll s).servicing = s.servicing := by
  unfold startPoll
  split
  · rfl
  · cases hb : s.beReads with
    | nil => simp [drawRead, hb]
    | cons a rest => cases a <;> simp [drawRead, hb]
  · split <;> rfl

/-- Everything an operation can do. -/
theorem exec_effect {i : Instr} {s t : State} (h : exec i s = .next t) : Effect s i t := by
  cases i <;> simp only [exec] at h
  case rxIdleStart => obtain ⟨hd, hr, h⟩ := receive_next h; exact next_inj h ▸ .startFrame (.inl rfl) hr hd
  case rxIdleHalt => obtain ⟨hd, hr, h⟩ := receive_next h; exact next_inj h ▸ .halt (rowFor_halt hr) hd
  case rxIdleIgnore => obtain ⟨_, _, h⟩ := receive_next h; exact next_inj h ▸ .nothing
  case rxCharRestart => obtain ⟨hd, hr, h⟩ := receive_next h; exact next_inj h ▸ .startFrame (.inr (.inl rfl)) hr hd
  case rxCharEnd => obtain ⟨hd, hr, h⟩ := receive_next h; exact next_inj h ▸ .endBody hr hd
  case rxCharEscape => obtain ⟨hd, hr, h⟩ := receive_next h; exact next_inj h ▸ .escape hr hd
  case rxCharData =>
    obtain ⟨hd, hr, h⟩ := receive_next h
    obtain ⟨_, rfl⟩ := storeByte_cases (answer_next h)
    exact .store (.inl rfl) hr hd (rowFor_room (.inl hr))
  case rxCharOverflow =>
    obtain ⟨hd, hrow, h⟩ := receive_next h
    obtain ⟨u, hu, rfl⟩ := rejectFrame_cases (answer_next (whenLinked_next h).2)
    exact .reject (.inl rfl) hrow hd (sendByte_sent hu)
  case rxEscData =>
    obtain ⟨hd, hr, h⟩ := receive_next h
    obtain ⟨_, rfl⟩ := storeByte_cases (answer_next h)
    exact .store (.inr rfl) hr hd (rowFor_room (.inr hr))
  case rxEscOverflow =>
    obtain ⟨hd, hrow, h⟩ := receive_next h
    obtain ⟨u, hu, rfl⟩ := rejectFrame_cases (answer_next (whenLinked_next h).2)
    exact .reject (.inr (.inl rfl)) hrow hd (sendByte_sent hu)
  case rxCsum1Capture => obtain ⟨hd, hr, h⟩ := receive_next h; exact next_inj h ▸ .capture hr hd
  case rxCsum2Good =>
    obtain ⟨hd, hrow, h⟩ := receive_next h
    obtain ⟨u, hu, ⟨hl, hr, rfl⟩ | ⟨hl, rfl⟩⟩ := acceptFrame_cases (answer_next (whenLinked_next h).2)
    · exact .accept hrow hd (sendByte_sent hu) hl hr
    · exact .acceptError hrow hd (sendByte_sent hu) hl
  case rxCsum2Bad =>
    obtain ⟨hd, hrow, h⟩ := receive_next h
    obtain ⟨u, hu, rfl⟩ := rejectFrame_cases (answer_next (whenLinked_next h).2)
    exact .reject (.inr (.inr rfl)) hrow hd (sendByte_sent hu)
  case rxAckwAck => obtain ⟨hd, _, h⟩ := receive_next h; exact next_inj h ▸ .ack hd
  case rxAckwNack => obtain ⟨hd, _, h⟩ := receive_next h; exact next_inj h ▸ .nack hd
  case rxAckwStart => obtain ⟨hd, hr, h⟩ := receive_next h; exact next_inj h ▸ .startFrame (.inr (.inr rfl)) hr hd
  case rxAckwIgnore => obtain ⟨_, _, h⟩ := receive_next h; exact next_inj h ▸ .nothing
  case txSendPacket p =>
    obtain ⟨u, hu, ht⟩ := sendPacket_sent (answer_next (whenLinked_next h).2)
    exact .sendPacket (.inl ⟨p, rfl⟩) hu ht
  case txSendByte => exact .sendByte (sendByte_sent (answer_next (whenLinked_next h).2))
  case txSendFmt => cases h
  case txSendConsole c =>
    obtain ⟨u, hu, ht⟩ := sendPacket_sent (answer_next (whenLinked_next h).2)
    exact .sendPacket (.inr ⟨c, rfl⟩) hu ht
  case fifoPush q b =>
    unfold execFifoPush at h
    split at h
    · rename_i r u hp
      obtain rfl := next_inj h
      rcases push_cases hp with ⟨_, _, rfl⟩ | ⟨_, hf, _, rfl⟩
      · have := Effect.push (s := u) (f := u.fifo q) (accepted := r) (bytesAccepted := u.bytesAccepted)
          q (.inl ⟨b, rfl⟩) id
        simpa using this
      · have := Effect.push (s := s) (accepted := r) (bytesAccepted := s.bytesAccepted)
          q (.inl ⟨b, rfl⟩) (fun ho => ho.pushed b hf)
        cases q <;> exact this
    · cases h
  case fifoPop q =>
    unfold execFifoPop at h
    split at h
    · rename_i r u hp
      obtain rfl := next_inj h
      rcases pop_cases hp with ⟨_, _, rfl⟩ | ⟨b, _, hne, _, rfl⟩
      · have := Effect.pop (s := u) (tail := (u.fifo q).tail) (popped := r) q id (fun _ => rfl)
        cases q <;> exact this
      · exact .pop q (fun ho => ho.popped hne) (fun e => absurd e hne)
    · cases h
  case fifoReset q => exact next_inj h ▸ .resetFifo q
  case xportWrite bs =>
    unfold execXportWrite at h
    split at h
    · split at h
      · rename_i n u hp
        obtain rfl := next_inj h
        obtain ⟨f, rfl, _, hf⟩ := pushAll_cases hp
        exact .push (accepted := s.accepted) .txq (.inr ⟨bs, rfl, rfl⟩) hf
      · cases h
    · obtain rfl := next_inj h
      exact .push (f := s.txq) (accepted := s.accepted) .txq (.inr ⟨bs, rfl, rfl⟩) id
  case xportFlush => exact .flush (flush_sent (answer_next h))
  case xportPoll =>
    unfold execXportPoll at h
    split at h
    · cases h
    · rename_i hh
      obtain rfl := next_inj h
      simp only [Bool.or_eq_true, not_or, Bool.not_eq_true] at hh
      have := startPoll_effect (startPoll s).servicing (.inl rfl) hh.1
      exact this
  case xportService =>
    unfold execXportService at h
    split at h
    · cases h
    · rename_i hh
      obtain rfl := next_inj h
      simp only [Bool.or_eq_true, not_or, Bool.not_eq_true] at hh
      exact startPoll_effect true (.inr rfl) hh.1
  case xportDeliver bs =>
    unfold execXportDeliver at h
    split at h
    · split at h
      · cases h
      · exact next_inj h ▸ .deliver ‹_›
    · cases h
  case sessionInitStream a =>
    obtain ⟨hd, h⟩ := outsideDispatch_next h
    split at h
    · exact next_inj h ▸ .session (session := .stream) (peer := s.peer) (.inl ⟨a, rfl⟩) hd
        (fun hp => .inr ⟨hp, ‹_›⟩)
    · cases h
  case sessionInitNet a =>
    obtain ⟨hd, h⟩ := outsideDispatch_next h
    split at h
    · exact next_inj h ▸ .session (.inr (.inl ⟨a, rfl⟩)) hd (by simp)
    · cases h
  case sessionDeinit =>
    obtain ⟨hd, h⟩ := outsideDispatch_next h
    exact next_inj h ▸ .session (.inr (.inr (.inl rfl))) hd (by simp)
  case sessionAccept =>
    obtain ⟨hd, h⟩ := outsideDispatch_next h
    split at h
    · exact next_inj h ▸ .session (session := s.session) (peer := true) (.inr (.inr (.inr (.inl rfl)))) hd
        (fun _ => .inl ‹_›)
    · cases h
  case sessionDisconnect =>
    obtain ⟨hd, h⟩ := outsideDispatch_next h
    split at h
    · split at h
      · exact next_inj h ▸ .session (session := s.session) (peer := false) (.inr (.inr (.inr (.inr rfl)))) hd
          (by simp)
      · cases h
    · cases h
  case sessionError => exact next_inj h ▸ .error
  case dispatchOk =>
    unfold execDispatchOk at h
    split at h
    · exact next_inj h ▸ .complete ‹_›
    · cases h
  case dispatchFault =>
    unfold execDispatchFault at h
    split at h
    · obtain ⟨u, hu, hc⟩ := commandFault_cases (answer_next (whenLinked_next h).2)
      obtain ⟨v, hv, ht⟩ := sendPacket_sent hu
      rcases hc with ⟨_, rfl⟩ | ⟨hl, rfl⟩
      · exact .commandFault ‹_› hv ht
      · exact .commandFaultError ‹_› hv ht hl
    · cases h

/-! ### Steps -/

/-- Only inputs and control fields differ: what a fetch changes. -/
def Fetching (s t : State) : Prop :=
  ∃ poll servicing delivering requests deliveries turns delivered,
    t = { s with
      poll := poll, servicing := servicing, delivering := delivering, requests := requests
      deliveries := deliveries, turns := turns, delivered := delivered }

/-- The state a fetch hands on. -/
def Fetched.state : Fetched → Option State
  | .run _ s => some s
  | .quiet s => some s
  | .refuse _ => none

/-- The operations the service context runs: no push, no `FIFO.RESET`, no delivery, and no pop but of `rxq` (R187). -/
def served : Instr → Bool
  | .fifoPush _ _ | .fifoReset _ | .xportDeliver _ | .fifoPop .txq => false
  | _ => true

/-- The operations the delivery context runs (R207, R217). -/
def Delivers (i : Instr) : Prop := (∃ b, i = .fifoPush .rxq b) ∨ ∃ bytes, i = .xportDeliver bytes

/-- A receive row is an operation of the service context. -/
theorem rowFor_served (s : State) (b : Byte) : served (s.rowFor b) = true := by
  unfold State.rowFor selectRow
  (repeat' split) <;> rfl

/-- What may be asked for is an operation of the service context. -/
theorem Asker.may_served {a : Asker} {d : Bool} {i : Instr} (h : a.may d i = true) : served i = true := by
  cases i <;> first | rfl | simp [Asker.may] at h

theorem fetchRequest_state {s t : State} (h : (fetchRequest s).state = some t) : Fetching s t := by
  unfold fetchRequest at h
  (repeat' split at h) <;> simp only [Fetched.state, Option.some.injEq, reduceCtorEq] at h <;>
    exact h ▸ ⟨_, _, _, _, _, _, _, rfl⟩

theorem fetchService_state {s t : State} (h : (fetchService s).state = some t) : Fetching s t := by
  unfold fetchService at h
  (repeat' split at h) <;> first
    | exact fetchRequest_state h
    | (simp only [Fetched.state, Option.some.injEq] at h; exact h ▸ ⟨_, _, _, _, _, _, _, rfl⟩)

theorem fetchDelivery_state {s t : State} (h : (fetchDelivery s).state = some t) : Fetching s t := by
  unfold fetchDelivery at h
  (repeat' split at h) <;> simp only [Fetched.state, Option.some.injEq] at h <;>
    exact h ▸ ⟨_, _, _, _, _, _, _, rfl⟩

/-- What a request runs may be asked for. -/
theorem fetchRequest_run {s t : State} {i : Instr} (h : fetchRequest s = .run i t) : served i = true := by
  unfold fetchRequest at h
  (repeat' split at h) <;> cases h
  exact Asker.may_served ‹_›

/-- What the service context runs. -/
theorem fetchService_run {s t : State} {i : Instr} (h : fetchService s = .run i t) : served i = true := by
  unfold fetchService at h
  (repeat' split at h) <;> first
    | exact fetchRequest_run h
    | (cases h <;> first | rfl | exact rowFor_served _ _)

/-- What the delivery context runs: a push only while there is a peer to deliver from. -/
theorem fetchDelivery_run {s t : State} {i : Instr} (h : fetchDelivery s = .run i t) :
    Delivers i ∧ ∀ b, i = .fifoPush .rxq b → t.deliverable = true := by
  unfold fetchDelivery at h
  (repeat' split at h) <;> cases h
  · exact ⟨.inr ⟨_, rfl⟩, nofun⟩
  · exact ⟨.inl ⟨_, rfl⟩, fun _ _ => ‹s.deliverable = true›⟩
  · exact ⟨.inl ⟨_, rfl⟩, fun _ _ => ‹s.deliverable = true›⟩

theorem Fetching.trans {s t u : State} (h₁ : Fetching s t) (h₂ : Fetching t u) : Fetching s u := by
  obtain ⟨_, _, _, _, _, _, _, rfl⟩ := h₁
  obtain ⟨_, _, _, _, _, _, _, rfl⟩ := h₂
  exact ⟨_, _, _, _, _, _, _, rfl⟩

theorem Fetching.turns (s : State) (l : List Context) : Fetching s { s with turns := l } :=
  ⟨_, _, _, _, _, l, _, rfl⟩

/-- Everything a fetch can change. -/
theorem fetch_state {s t : State} (h : (fetch s).state = some t) : Fetching s t := by
  unfold fetch at h
  split at h
  · exact fetchService_state h
  · exact (Fetching.turns s _).trans (fetchService_state h)
  · exact (Fetching.turns s _).trans (fetchDelivery_state h)

/-- The operation a fetch hands on is one the context whose turn it is runs. -/
theorem fetch_run {s t : State} {i : Instr} (h : fetch s = .run i t) :
    (served i = true ∧ s.turns.head? ≠ some .delivery) ∨
    (Delivers i ∧ s.turns.head? = some .delivery ∧ ∀ b, i = .fifoPush .rxq b → t.deliverable = true) := by
  unfold fetch at h
  split at h <;> rename_i e
  · exact .inl ⟨fetchService_run h, by simp [e]⟩
  · exact .inl ⟨fetchService_run h, by simp [e]⟩
  · exact .inr ⟨(fetchDelivery_run h).1, by simp [e], (fetchDelivery_run h).2⟩

/-- Everything a step can do: the fetch's change of the inputs and control fields, then nothing, or an operation that
the context whose turn it is runs. -/
theorem step_cases {s t : State} (h : step s = .next t) :
    ∃ u, Fetching s u ∧
      (t = u ∨ ∃ i, exec i u = .next t ∧
        ((served i = true ∧ s.turns.head? ≠ some .delivery) ∨
          (Delivers i ∧ s.turns.head? = some .delivery ∧ ∀ b, i = .fifoPush .rxq b → u.deliverable = true))) := by
  unfold step at h
  split at h
  · rename_i i u hf
    exact ⟨u, fetch_state (by rw [hf]; rfl), .inr ⟨i, h, fetch_run hf⟩⟩
  · rename_i u hf
    exact ⟨u, fetch_state (by rw [hf]; rfl), .inl (next_inj h).symm⟩
  · cases h

/-- A step whose next turn is not the delivery context's is the service context's. -/
theorem fetch_service {s : State} (h : s.turns.head? ≠ some .delivery) :
    fetch s = fetchService { s with turns := s.turns.tail } := by
  unfold fetch
  split <;> rename_i e
  · simp only [e, List.tail_nil]; rw [← e]
  · simp [e]
  · simp [e] at h

end Sys2Proof.Machine
end

