-- ==== Sys2Proof/Laws/Poll.lean ====
section
/-! SUPPORT. A receive step looks at no control field of a poll: setting `poll` before it is setting `poll` after it.
One lemma per operation a receive step contains. -/

namespace Sys2Proof.Machine

/-- The state with the poll's position replaced. -/
def State.setPoll (p : Poll) (s : State) : State := { s with poll := p }

@[simp] theorem State.setPoll_fifo (p : Poll) (s : State) (q : Queue) : (s.setPoll p).fifo q = s.fifo q := by
  cases q <;> rfl

@[simp] theorem State.setPoll_params (p : Poll) (s : State) : (s.setPoll p).params = s.params := rfl

theorem State.setFifo_setPoll (p : Poll) (s : State) (q : Queue) (f : Fifo) :
    (s.setPoll p).setFifo q f = (s.setFifo q f).setPoll p := by cases q <;> rfl

theorem push_setPoll (p : Poll) (q : Queue) (b : Byte) (s : State) :
    push q b (s.setPoll p) = (push q b s).map fun r => (r.1, r.2.setPoll p) := by
  unfold push
  simp only [State.setPoll_fifo, State.setPoll_params, State.setFifo_setPoll]
  split
  · rfl
  · split <;> rfl

theorem pop_setPoll (p : Poll) (q : Queue) (s : State) :
    pop q (s.setPoll p) = (pop q s).map fun r => (r.1, r.2.setPoll p) := by
  unfold pop
  simp only [State.setPoll_fifo, State.setPoll_params, State.setFifo_setPoll]
  split
  · rfl
  · split <;> rfl

theorem popMany_setPoll (p : Poll) (q : Queue) (n : Nat) (s : State) :
    popMany q n (s.setPoll p) = (popMany q n s).map fun r => (r.1, r.2.setPoll p) := by
  induction n generalizing s with
  | zero => rfl
  | succ n ih =>
    simp only [popMany, pop_setPoll]
    cases hp : pop q s with
    | error f => rfl
    | ok r =>
      obtain ⟨r, t⟩ := r
      cases r with
      | none => rfl
      | some b =>
        simp only [Except.map, ih]
        cases popMany q n t <;> rfl

theorem sessionError_setPoll (p : Poll) (s : State) :
    sessionError (s.setPoll p) = (sessionError s).setPoll p := by
  unfold sessionError
  rw [show (s.setPoll p).session = s.session from rfl]
  cases s.session <;> rfl

theorem flushLoop_setPoll (p : Poll) (n : Nat) (s : State) :
    flushLoop n (s.setPoll p) = (flushLoop n s).map (State.setPoll p) := by
  induction n generalizing s with
  | zero => rfl
  | succ n ih =>
    have hd : drawWrite (s.setPoll p) = ((drawWrite s).1, (drawWrite s).2.setPoll p) := by
      unfold drawWrite
      rw [show (s.setPoll p).beWrites = s.beWrites from rfl]
      cases s.beWrites <;> rfl
    simp only [flushLoop, hd]
    rw [show (s.setPoll p).txq = s.txq from rfl]
    split
    · rfl
    · cases drawWrite s with
      | mk a u =>
        cases a with
        | error => simp only [sessionError_setPoll]; rfl
        | takes k =>
          simp only [popMany_setPoll]
          rw [show (u.setPoll p).txq = u.txq from rfl, show (u.setPoll p).params = u.params from rfl]
          cases popMany .txq (min k (u.txq.count u.params.txCap)) u with
          | error f => rfl
          | ok r =>
            obtain ⟨sent, v⟩ := r
            simp only [Except.map]
            split
            · rfl
            · exact ih (v.emit (.beWrite sent))

theorem flush_setPoll (p : Poll) (s : State) :
    flush (s.setPoll p) = (flush s).map (State.setPoll p) := by
  unfold flush
  rw [show (s.setPoll p).linked = s.linked from rfl]
  split
  · exact flushLoop_setPoll p _ s
  · rfl

theorem sendByte_setPoll (p : Poll) (b : Byte) (s : State) :
    sendByte b (s.setPoll p) = (sendByte b s).map (State.setPoll p) := by
  have hr : ∀ u : State, requestFlush (u.setPoll p) = (requestFlush u).map (State.setPoll p) := by
    intro u
    unfold requestFlush
    rw [show (u.setPoll p).nearFull = u.nearFull from rfl]
    split
    · exact flush_setPoll p u
    · rfl
  unfold sendByte put
  rw [push_setPoll]
  cases push .txq b s with
  | error f => rfl
  | ok r =>
    obtain ⟨r, t⟩ := r
    cases r with
    | true => exact hr t
    | false => exact hr { t with txFault := true }

theorem rejectFrame_setPoll (p : Poll) (s : State) :
    rejectFrame (s.setPoll p) = (rejectFrame s).map (State.setPoll p) := by
  unfold rejectFrame
  rw [sendByte_setPoll]
  cases sendByte nakByte s <;> rfl

theorem writePkt_setPoll (p : Poll) (s : State) (i : Nat) (b : Byte) :
    (s.setPoll p).writePkt i b = (s.writePkt i b).map (State.setPoll p) := by
  unfold State.writePkt
  rw [show (s.setPoll p).pkt = s.pkt from rfl, State.setPoll_params]
  cases writeAt .pkt (s.params.pktMax + 1) s.pkt i b <;> rfl

theorem dispatchFrame_setPoll (p : Poll) (s : State) :
    dispatchFrame (s.setPoll p) = (dispatchFrame s).map (State.setPoll p) := by
  unfold dispatchFrame
  rw [writePkt_setPoll, show (s.setPoll p).rxSize = s.rxSize from rfl]
  cases s.writePkt s.rxSize 0x00#8 <;> rfl

theorem acceptFrame_setPoll (p : Poll) (s : State) :
    acceptFrame (s.setPoll p) = (acceptFrame s).map (State.setPoll p) := by
  unfold acceptFrame
  rw [sendByte_setPoll]
  cases sendByte ackByte s with
  | error f => rfl
  | ok t =>
    simp only [Except.map, afterSend, dispatchFrame_setPoll]
    rw [show (t.setPoll p).linked = t.linked from rfl]
    split <;> rfl

theorem storeByte_setPoll (p : Poll) (c b : Byte) (s : State) :
    storeByte c b (s.setPoll p) = (storeByte c b s).map (State.setPoll p) := by
  unfold storeByte
  rw [writePkt_setPoll, show (s.setPoll p).rxSize = s.rxSize from rfl]
  cases s.writePkt s.rxSize c <;> rfl

theorem receive_setPoll (p : Poll) {i : Instr} {b : Byte} {s : State} {e e' : Answer}
    (he : e' = mapNext (State.setPoll p) e) :
    receive i b (s.setPoll p) e' = mapNext (State.setPoll p) (receive i b s e) := by
  subst he
  unfold receive
  rw [show (s.setPoll p).dispatchPending = s.dispatchPending from rfl,
    show (s.setPoll p).rowFor b = s.rowFor b from rfl]
  (repeat' split) <;> rfl

theorem answer_setPoll (p : Poll) (r : Except Fault State) :
    answer (r.map (State.setPoll p)) = mapNext (State.setPoll p) (answer r) := by cases r <;> rfl

theorem whenLinked_setPoll (p : Poll) {s : State} {e e' : Answer} (he : e' = mapNext (State.setPoll p) e) :
    whenLinked (s.setPoll p) e' = mapNext (State.setPoll p) (whenLinked s e) := by
  subst he
  unfold whenLinked
  rw [show (s.setPoll p).linked = s.linked from rfl]
  split <;> rfl

/-- A receive step sets `poll` after it where it was set before it. -/
theorem rxStep_setPoll (p : Poll) (b : Byte) (s : State) :
    rxStep b (s.setPoll p) = mapNext (State.setPoll p) (rxStep b s) := by
  have reject := whenLinked_setPoll p (s := s) ((congrArg answer (rejectFrame_setPoll p s)).trans (answer_setPoll p _))
  have accept := whenLinked_setPoll p (s := s) ((congrArg answer (acceptFrame_setPoll p s)).trans (answer_setPoll p _))
  have store := fun c b => (congrArg answer (storeByte_setPoll p c b s)).trans (answer_setPoll p _)
  unfold rxStep
  rw [show (s.setPoll p).rowFor b = s.rowFor b from rfl]
  unfold State.rowFor selectRow
  (repeat' split) <;> first
    | exact receive_setPoll p rfl
    | exact receive_setPoll p reject
    | exact receive_setPoll p accept
    | exact receive_setPoll p (store _ _)

end Sys2Proof.Machine
end

