-- ==== Sys2Proof/Tests/Slice0.lean ====
section
/-! SUPPORT. Tests of single operations, with expected results from spec/95_test_vectors.md and from the tables of
30_encoding.md, and one witness for the hypotheses of each statement that has any: concrete states and operands that
meet all of them together, at the boundaries of their ranges. -/

namespace Sys2Proof.Tests

open Sys2Proof Sys2Proof.Machine

/-! ### Helpers -/

/-- A reset block with `PKT_MAX = 4`, `RX_CAP = 4`, `TX_CAP = 16`, `TX_NEAR_FULL = 12` and a stream session. -/
def stream : State := { State.resetWith ⟨4, 4, 16, 12, true⟩ with session := .stream }

/-- The same block with a network session and a peer. -/
def net : State := { stream with session := .net, peer := true }

/-- The next state of an answer. -/
def after : Answer → Option State
  | .next s => some s
  | .fault _ => none
  | .refused _ => none

/-- The bytes a FIFO holds, oldest first. -/
def held (cap : Nat) (f : Fifo) : List (Option Byte) := f.contents cap

/-- A FIFO filled from reset. -/
def filled (cap : Nat) (bs : List Byte) : Fifo := Fifo.reset.pushedAll cap bs

/-- A full FIFO of four slots whose indices have wrapped: `head = 1`, `tail = 2` (vector F1, step 8). -/
def wrapped : Fifo := ⟨[(0, 0x46#8), (1, 0x42#8), (2, 0x43#8), (3, 0x45#8)], 1, 2⟩

/-! ### Ill-formed terms are refused (30_encoding.md R102) -/

theorem test_wf_idle_ignore : (Instr.rxIdleIgnore 0x24#8).wf = false ∧ (Instr.rxIdleIgnore 0x03#8).wf = false := by
  decide

theorem test_wf_char_data : (Instr.rxCharData 0x24#8).wf = false ∧ (Instr.rxCharData 0x23#8).wf = false ∧
    (Instr.rxCharData 0x7D#8).wf = false := by decide

theorem test_wf_char_overflow : (Instr.rxCharOverflow 0x24#8).wf = false ∧
    (Instr.rxCharOverflow 0x23#8).wf = false ∧ (Instr.rxCharOverflow 0x7D#8).wf = false := by decide

theorem test_wf_ackw_ignore : (Instr.rxAckwIgnore 0x2B#8).wf = false ∧ (Instr.rxAckwIgnore 0x2D#8).wf = false ∧
    (Instr.rxAckwIgnore 0x24#8).wf = false := by decide

/-! ### Decoding: the receive rows, by the keys of 30_encoding.md R102 (state code, then byte) -/

theorem test_decode_idle : decodeTableWord 11 0x024 = some .rxIdleStart ∧
    decodeTableWord 11 0x003 = some .rxIdleHalt ∧ decodeTableWord 11 0x02B = some (.rxIdleIgnore 0x2B#8) := by
  decide

theorem test_decode_char : decodeTableWord 11 0x124 = some .rxCharRestart ∧
    decodeTableWord 11 0x123 = some .rxCharEnd ∧ decodeTableWord 11 0x17D = some .rxCharEscape ∧
    decodeTableWord 11 0x103 = some (.rxCharData 0x03#8) := by decide

theorem test_decode_overflow :
    decode .rxb ⟨false, false⟩ [0x65#8, 0x01#8] = .ok (.rxCharOverflow 0x65#8) ∧
    decode .rxb ⟨false, false⟩ [0x5D#8, 0x02#8] = .ok (.rxEscOverflow 0x5D#8) := by decide

theorem test_decode_esc : decodeTableWord 11 0x27D = some (.rxEscData 0x7D#8) := by decide

theorem test_decode_csum :
    decodeTableWord 11 0x324 = some (.rxCsum1Capture 0x24#8) ∧
    decode .rxb ⟨true, true⟩ [0x65#8, 0x04#8] = .ok (.rxCsum2Good 0x65#8) ∧
    decode .rxb ⟨true, false⟩ [0x65#8, 0x04#8] = .ok (.rxCsum2Bad 0x65#8) := by decide

theorem test_decode_ackw : decodeTableWord 11 0x52B = some .rxAckwAck ∧
    decodeTableWord 11 0x52D = some .rxAckwNack ∧ decodeTableWord 11 0x524 = some .rxAckwStart ∧
    decodeTableWord 11 0x503 = some (.rxAckwIgnore 0x03#8) := by decide

theorem test_decode_no_state : decodeTableWord 11 0x624 = none ∧ decodeTableWord 11 0x7FF = none := by decide

/-! ### Decoding: the named operations, by the selectors of 30_encoding.md R103 -/

theorem test_decode_tx :
    decodeOp [0x01#8, 0x4F#8, 0x4B#8] = .ok (.txSendPacket [0x4F#8, 0x4B#8]) ∧
    decodeOp [0x02#8, 0x2B#8] = .ok (.txSendByte 0x2B#8) ∧
    decodeOp [0x03#8, 0x25#8] = .ok (.txSendFmt [0x25#8]) ∧
    decodeOp [0x04#8, 0x68#8, 0x69#8] = .ok (.txSendConsole [0x68#8, 0x69#8]) := by decide

theorem test_decode_fifo :
    decodeOp [0x10#8, 0x01#8, 0x41#8] = .ok (.fifoPush .txq 0x41#8) ∧
    decodeOp [0x11#8, 0x00#8] = .ok (.fifoPop .rxq) ∧ decodeOp [0x12#8, 0x01#8] = .ok (.fifoReset .txq) := by
  decide

theorem test_decode_xport :
    decodeOp [0x20#8, 0x61#8] = .ok (.xportWrite [0x61#8]) ∧ decodeOp [0x21#8] = .ok .xportFlush ∧
    decodeOp [0x22#8] = .ok .xportPoll ∧ decodeOp [0x23#8] = .ok .xportService ∧
    decodeOp [0x24#8, 0x24#8] = .ok (.xportDeliver [0x24#8]) := by decide

theorem test_decode_session :
    decodeOp [0x30#8] = .ok (.sessionInitStream []) ∧ decodeOp [0x31#8, 0x02#8] = .ok (.sessionInitNet [0x02#8]) ∧
    decodeOp [0x32#8] = .ok .sessionDeinit ∧ decodeOp [0x33#8] = .ok .sessionAccept ∧
    decodeOp [0x34#8] = .ok .sessionDisconnect ∧ decodeOp [0x35#8] = .ok .sessionError := by decide

theorem test_decode_dispatch : decodeOp [0x40#8] = .ok .dispatchOk ∧ decodeOp [0x41#8] = .ok .dispatchFault := by
  decide

theorem test_decode_rejects : decodeOp [0x05#8] = .error (.unknownSelector 0x05#8) ∧
    decodeOp [0x21#8, 0x00#8] = .error (.badOperands 0x21#8) ∧
    decodeOp [0x11#8, 0x02#8] = .error (.badQueue 0x02#8) ∧ decodeOp [] = .error .emptyRequest := by decide

/-! ### Packets (vectors T4, T5, T9, T13, T33, T34) -/

theorem test_packet_empty : packetBytes [] = [0x24#8, 0x23#8, 0x30#8, 0x30#8] := by decide

theorem test_packet_escape : packetBytes [0x61#8, 0x23#8, 0x62#8] =
    [0x24#8, 0x61#8, 0x7D#8, 0x03#8, 0x62#8, 0x23#8, 0x34#8, 0x33#8] := by decide

theorem test_packet_all_escaped : packetBytes [0x24#8, 0x23#8, 0x7D#8] =
    [0x24#8, 0x7D#8, 0x04#8, 0x7D#8, 0x03#8, 0x7D#8, 0x5D#8, 0x23#8, 0x64#8, 0x62#8] := by decide

theorem test_packet_wraps : packetBytes [0xFF#8, 0xFF#8, 0x03#8] =
    [0x24#8, 0xFF#8, 0xFF#8, 0x03#8, 0x23#8, 0x30#8, 0x31#8] := by decide

theorem test_console : packetBytes (consolePayload []) = [0x24#8, 0x4F#8, 0x23#8, 0x34#8, 0x66#8] ∧
    consolePayload [0xFF#8, 0x0A#8] = [0x4F#8, 0x66#8, 0x66#8, 0x30#8, 0x61#8] := by decide

/-! ### Receive steps (vectors V16 to V45) -/

/-- V17: the sum wraps. -/
theorem test_char_data :
    (after (exec (.rxCharData 0xFF#8) { stream with rxState := .char, rxSize := 1, rxCsum := 0xFF#8 })).map
      (fun t => (t.rxSize, t.rxCsum, t.pkt.read 1)) = some (2, 0xFE#8, some 0xFF#8) := by decide

/-- V21: `0x03` after a marker is a literal `#`, and no halt. -/
theorem test_esc_data :
    (after (exec (.rxEscData 0x03#8) { stream with rxState := .esc, rxSize := 2, rxCsum := 0x56#8 })).map
      (fun t => (t.rxState, t.rxSize, t.rxCsum, t.pkt.read 2, t.events)) =
    some (.char, 3, 0x59#8, some 0x23#8, []) := by decide

/-- V20: the byte that does not fit. -/
theorem test_char_overflow :
    (after (exec (.rxCharOverflow 0x65#8) { stream with rxState := .char, rxSize := 4, rxCsum := 0x8A#8 })).map
      (fun t => (t.rxState, t.rxSize, t.rxCsum, t.flushReq, held 16 t.txq)) =
    some (.idle, 4, 0x8A#8, true, [some 0x2D#8]) := by decide

/-- V36: a full packet, its null in the last byte of the store. -/
theorem test_csum2_good :
    (after (exec (.rxCsum2Good 0x61#8)
      { stream with
        rxState := .csum2, rxSize := 4, rxC1 := 0x38#8, rxCsum := 0x8A#8
        pkt := [(0, 0x61#8), (1, 0x62#8), (2, 0x63#8), (3, 0x64#8)] })).map
      (fun t => (t.pkt.read 4, t.dispatchPending, held 16 t.txq, t.events)) =
    some (some 0x00#8, true, [some 0x2B#8],
      [.dispatch [some 0x61#8, some 0x62#8, some 0x63#8, some 0x64#8] 4]) := by decide

/-- V33, V34, V38 to V41: which characters are a checksum. -/
theorem test_csum_ok : csumOk 0x41#8 0x45#8 0xAE#8 = true ∧ csumOk 0x61#8 0x45#8 0xAE#8 = true ∧
    csumOk 0x61#8 0x67#8 0xAE#8 = false ∧ csumOk 0x24#8 0x36#8 0x61#8 = false ∧
    csumOk 0x65#8 0x61#8 0xAE#8 = false ∧ csumOk 0x30#8 0x20#8 0x00#8 = false := by decide

/-- V37: a wrong checksum: no null, no dispatch. -/
theorem test_csum2_bad :
    (after (exec (.rxCsum2Bad 0x66#8)
      { stream with rxState := .csum2, rxSize := 4, rxC1 := 0x61#8, rxCsum := 0xAE#8 })).map
      (fun t => (t.rxState, t.pkt, t.dispatchPending, held 16 t.txq)) =
    some (.idle, [], false, [some 0x2D#8]) := by decide

/-- V44: the stale values of an earlier frame are reset. -/
theorem test_ackw_start :
    (after (exec .rxAckwStart { stream with rxState := .ackWait, rxSize := 4, rxCsum := 0xAE#8 })).map
      (fun t => (t.rxState, t.rxSize, t.rxCsum, t.events)) = some (.char, 0, 0x00#8, []) := by decide

/-- V47: no receive step during a dispatch. -/
theorem test_rx_during_dispatch :
    exec .rxIdleStart { stream with dispatchPending := true } = .refused .dispatchInProgress := rfl

/-! ### Sends (vectors T30, T36, T38, T40) -/

/-- T30: an unframed byte does not arm `ACK_WAIT`. -/
theorem test_send_byte :
    (after (exec (.txSendByte 0x2B#8) { stream with rxState := .char })).map
      (fun t => (t.rxState, t.flushReq, t.txq)) = some (.char, true, filled 16 [0x2B#8]) := by decide

/-- T36: no session, no send. -/
theorem test_send_no_session : exec (.txSendPacket [0x4F#8]) (State.resetWith ⟨4, 4, 16, 12, true⟩) =
    .refused .notLinked := rfl

/-- T38: near-full, so the packet is on the wire when the step ends. -/
theorem test_send_forced_flush :
    (after (exec (.txSendPacket [0x4F#8, 0x4B#8])
      { stream with params := ⟨4, 4, 8, 6, true⟩, beWrites := [.takes 100] })).map
      (fun t => (t.rxState, t.flushReq, t.txq.count 8, t.events)) =
    some (.ackWait, false, 0, [.beWrite [0x24#8, 0x4F#8, 0x4B#8, 0x23#8, 0x39#8, 0x61#8]]) := by decide

/-- T40: no room. -/
theorem test_send_overflow :
    (after (exec (.txSendPacket [0x4F#8, 0x4B#8])
      { stream with params := ⟨4, 4, 4, 3, true⟩, beWrites := [.takes 0] })).map (fun t => t.txFault) =
    some true := by decide

/-! ### The FIFO (vectors F1 to F7) -/

/-- F1, steps 8, 9 and 10. -/
theorem test_fifo_push_full :
    (after (exec (.fifoPush .rxq 0x47#8) { stream with rxq := wrapped })).map (fun t => (t.accepted, t.rxq)) =
    some (false, wrapped) := by decide

/-- F3: the last slot, then the wrap of `head`. -/
theorem test_fifo_push_wraps :
    (after (exec (.fifoPush .rxq 0x41#8) { stream with rxq := ⟨[], 3, 1⟩ })).map (fun t => (t.accepted, t.rxq)) =
    some (true, ⟨[(3, 0x41#8)], 0, 1⟩) := by decide

/-- F1, step 10, and the example of R181. -/
theorem test_fifo_pop :
    (after (exec (.fifoPop .rxq) { stream with rxq := wrapped })).map (fun t => (t.popped, t.rxq.tail)) =
      some (some 0x43#8, 3) ∧
    (after (exec (.fifoPop .rxq) { stream with rxq := ⟨[(3, 0x41#8)], 0, 3⟩ })).map
      (fun t => (t.popped, t.rxq.tail)) = some (some 0x41#8, 0) := by decide

/-- F6, F7. -/
theorem test_fifo_count : (⟨[], 6, 6⟩ : Fifo).count 8 = 0 ∧ (⟨[], 1, 3⟩ : Fifo).count 8 = 6 := by decide

/-! ### Transport and sessions (vectors F5, N2v to N13v) -/

/-- F5. -/
theorem test_write :
    (after (exec (.xportWrite [0x61#8, 0x62#8, 0x63#8, 0x64#8, 0x65#8])
      { stream with params := ⟨4, 4, 4, 3, true⟩ })).map (fun t => (t.bytesAccepted, held 4 t.txq)) =
    some (3, [some 0x61#8, some 0x62#8, some 0x63#8]) := by decide

/-- N10v. -/
theorem test_flush_in_two :
    (after (exec .xportFlush
      { stream with
        txq := filled 16 [0x2B#8, 0x24#8, 0x4F#8, 0x4B#8, 0x23#8, 0x39#8, 0x61#8]
        flushReq := true, beWrites := [.takes 3, .takes 4] })).map
      (fun t => (t.flushReq, held 16 t.txq, t.events)) =
    some (false, [], [.beWrite [0x2B#8, 0x24#8, 0x4F#8], .beWrite [0x4B#8, 0x23#8, 0x39#8, 0x61#8]]) := by decide

/-- N12v. -/
theorem test_flush_error :
    (after (exec .xportFlush { stream with txq := filled 16 [0x2B#8], beWrites := [.error] })).map
      (fun t => (t.session, t.txq.head, t.txq.tail, t.events)) = some (.inactive, 0, 0, []) := by decide

/-- N5v: the delivery begins, pushes its four bytes in four turns, and ends. -/
theorem test_deliver :
    (after (steps 6
      { net with
        params := ⟨4, 8, 16, 12, true⟩, turns := List.replicate 6 .delivery
        deliveries := [[0x24#8, 0x23#8, 0x30#8, 0x30#8]] })).map
      (fun t => (t.delivered, t.delivering, t.rxq.head, t.rxq.tail)) = some (4, none, 4, 0) := by decide

/-- N4v: no peer to deliver from. -/
theorem test_deliver_no_peer : exec (.xportDeliver [0x24#8]) { net with peer := false } = .refused .noPeer := rfl

/-- N3v. -/
theorem test_second_init : exec (.sessionInitNet []) stream = .refused .sessionActive := rfl

/-- N7v. -/
theorem test_disconnect :
    (after (exec .sessionDisconnect { net with rxState := .char, rxSize := 2, txq := filled 16 [0x2B#8] })).map
      (fun t => (t.rxState, t.rxSize, t.txq.head, t.session, t.peer)) = some (.idle, 0, 0, .net, false) := by decide

/-- E5: the command fault. -/
theorem test_dispatch_fault :
    (after (exec .dispatchFault { stream with dispatchPending := true, txq := filled 16 [0x2B#8] })).map
      (fun t => (t.rxState, t.dispatchPending, held 16 t.txq, t.events)) =
    some (.ackWait, false,
      [some 0x2B#8, some 0x24#8, some 0x45#8, some 0x46#8, some 0x46#8, some 0x23#8, some 0x64#8, some 0x31#8],
      [.targetListReset, .displayMsg]) := by decide

/-- V34, with D34: where the flush that the `+` forces meets an error, nothing is dispatched. -/
theorem test_csum2_good_flush_error :
    (after (exec (.rxCsum2Good 0x65#8)
      { stream with
        params := ⟨4, 4, 2, 1, true⟩, rxState := .csum2, rxSize := 1, rxC1 := 0x61#8, rxCsum := 0xAE#8
        beWrites := [.error] })).map
      (fun t => (t.session, t.pkt, t.dispatchPending, t.events)) = some (.inactive, [], false, []) := by decide

/-- A placed word runs as the first operation from reset: a receive key, a request, a push, a pop and a call of the
delivery context, the backend's report (log 20). -/
theorem test_placed_word :
    (after (step (State.reset.withFetchWord 11 0x024))).map (fun t => t.rxState) = some .char ∧
    (after (step (State.reset.withFetchWord 8 0x23))).map (fun t => t.servicing) = some true := ⟨rfl, rfl⟩

theorem test_placed_part :
    (placeOp [0x10#8, 0x00#8, 0x41#8] stream).deliverable = true ∧
    (after (step (placeOp [0x10#8, 0x00#8, 0x41#8] stream))).map (fun t => t.rxq.mem) = some [(0, 0x41#8)] ∧
    (after (step (placeOp [0x11#8, 0x00#8] stream))).map (fun t => t.poll) = some .netTake ∧
    (after (step (placeOp [0x24#8, 0x41#8] stream))).map (fun t => t.delivering) = some (some ⟨[0x41#8], 0⟩) ∧
    (after (step (placeOp [0x35#8] stream))).map (fun t => t.session) = some .inactive := by decide

/-! ### Rights (R182, R213, R215, R258) and quiescence (R299) -/

/-- No collaborator resets a FIFO on its own. -/
theorem test_no_bare_fifo_reset : step { stream with requests := [⟨.caller, [0x12#8, 0x00#8]⟩] } =
    .refused .notAllowed := rfl

/-- Inside a dispatch no step of the interpreter pushes, delivers or reports an error. -/
theorem test_interpreter_rights (t : State) (h : t = { net with dispatchPending := true }) :
    step { t with requests := [⟨.caller, [0x10#8, 0x00#8, 0x41#8]⟩] } = .refused .notAllowed ∧
    step { t with requests := [⟨.caller, [0x24#8, 0x41#8]⟩] } = .refused .notAllowed ∧
    step { t with requests := [⟨.caller, [0x35#8]⟩] } = .refused .notAllowed := by
  subst h
  exact ⟨rfl, rfl, rfl⟩

/-- The backend's failure is reported outside a dispatch. -/
theorem test_backend_reports :
    (after (step { stream with requests := [⟨.backend, [0x35#8]⟩] })).map State.session = some .inactive := rfl

/-- A stream backend that is not ready offers no byte; one whose next answer brings bytes does. -/
theorem test_quiescent_stream :
    ({ stream with beReads := [.notReady, .bytes [0x24#8]] } : State).quiescent = true ∧
    ({ stream with beReads := [.bytes [0x24#8]] } : State).quiescent = false ∧
    ({ stream with poll := .stream [0x24#8] } : State).quiescent = false := by decide

/-- A network backend offers what it has still to deliver, and reads answered to a stream are none of its bytes; with no
peer, or with no session, there is no backend to offer one. -/
theorem test_quiescent_net :
    ({ net with beReads := [.bytes [0x24#8]] } : State).quiescent = true ∧
    ({ net with deliveries := [[], [0x24#8]] } : State).quiescent = false ∧
    ({ net with poll := .netTake, popped := some 0x24#8 } : State).quiescent = false ∧
    ({ net with peer := false, deliveries := [[0x24#8]] } : State).quiescent = true ∧
    ({ stream with
      session := .inactive, beReads := [.bytes [0x24#8]], deliveries := [[0x24#8]] } : State).quiescent = true := by
  decide

/-! ### Witnesses for the hypotheses of the statements -/

/-- A wrapped full FIFO is as every run has it. -/
theorem ok_wrapped : Fifo.Ok 4 wrapped where
  head_lt := by decide
  tail_lt := by decide
  mem_wf := by decide
  mem_lt := by
    intro a b h
    by_contra hn
    simp [wrapped, Memory.read, show 0 ≠ a by omega, show 1 ≠ a by omega, show 2 ≠ a by omega,
      show 3 ≠ a by omega] at h
  written := by decide

/-- A FIFO of four slots that holds one byte. -/
theorem ok_one (b : Byte) : Fifo.Ok 4 (filled 4 [b]) := (Fifo.Ok.ofReset (by decide)).pushed b (by decide)

/-- A FIFO of four slots that holds two bytes. -/
theorem ok_two (b c : Byte) : Fifo.Ok 4 (filled 4 [b, c]) := (ok_one b).pushed c rfl

/-- A network session with a peer, in the middle of a frame, with one byte in each FIFO, `TX_CAP = 4`, `TX_NEAR_FULL = 3`. -/
def busy : State :=
  { net with
    params := ⟨4, 4, 4, 3, true⟩
    rxState := .char
    rxSize := 1
    rxCsum := 0x61#8
    pkt := [(0, 0x61#8)]
    rxq := filled 4 [0x70#8]
    txq := filled 4 [0x2B#8] }

theorem busy_inv : busy.Inv where
  params_valid := by decide
  rxSize_le := by decide
  rxq_ok := ok_one _
  txq_ok := ok_one _
  pkt_wf := by decide
  pkt_le := by
    intro a b h
    by_contra hn
    have : 0 ≠ a := fun e => hn (e ▸ Nat.zero_le _)
    simp [busy, Memory.read, this] at h
  pkt_written := by decide
  dispatch_state := by decide
  peer_net := by decide
  rxq_idle := by decide

theorem test_hyp_DecodeOfEncodeIsIdentity :
    (Instr.rxCharData 0xFF#8).wf = true ∧ (Instr.rxCharData 0xFF#8).admits ⟨true, false⟩ = true ∧
    (Instr.rxCsum2Bad 0x00#8).wf = true ∧ (Instr.rxCsum2Bad 0x00#8).admits ⟨true, false⟩ = true := by decide

theorem test_hyp_DecodedBytesHaveOneReading :
    decode .rxb ⟨true, true⟩ [0xFF#8, 0x05#8] = .ok (.rxAckwIgnore 0xFF#8) ∧
    decode .op ⟨true, true⟩ [0x10#8, 0x00#8, 0xFF#8] = .ok (.fifoPush .rxq 0xFF#8) := by decide

theorem test_hyp_CodesSixAndSevenNameNoState : ∀ code : Byte, code = 0x06#8 ∨ code = 0x07#8 →
    RxState.ofCode code = none := by decide

theorem test_hyp_IdleRows : stream.dispatchPending = false ∧ stream.rxState = .idle ∧
    (0x04#8 : Byte) ≠ 0x24#8 ∧ (0x04#8 : Byte) ≠ 0x03#8 := by decide

/-- A framer in `CHAR` with a full store. -/
def charFull : State := { stream with rxState := .char, rxSize := 4, rxCsum := 0x8A#8 }

theorem test_hyp_CharDelimiterRows : charFull.dispatchPending = false ∧ charFull.rxState = .char := by decide

theorem test_hyp_CharDataStoresTheByte : ({ charFull with rxSize := 3 } : State).dispatchPending = false ∧
    ({ charFull with rxSize := 3 } : State).rxState = .char ∧ (0x25#8 : Byte) ≠ 0x24#8 ∧ (0x25#8 : Byte) ≠ 0x23#8 ∧
    (0x25#8 : Byte) ≠ 0x7D#8 ∧ ({ charFull with rxSize := 3 } : State).rxSize < charFull.params.pktMax := by decide

theorem test_hyp_EscDataStoresTheUnescapedByte : ∃ s : State, s.dispatchPending = false ∧ s.rxState = .esc ∧
    s.rxSize < s.params.pktMax := ⟨{ stream with rxState := .esc, rxSize := 3 }, by decide⟩

theorem test_hyp_Csum1KeepsTheCharacter : ∃ s : State, s.dispatchPending = false ∧ s.rxState = .csum1 :=
  ⟨{ stream with rxState := .csum1 }, by decide⟩

theorem test_hyp_AckWaitRows : ∃ s : State, s.dispatchPending = false ∧ s.rxState = .ackWait :=
  ⟨{ stream with rxState := .ackWait }, by decide⟩

theorem test_hyp_AckWaitIgnoresOtherBytes : ∃ s : State, s.dispatchPending = false ∧ s.rxState = .ackWait ∧
    (0x2C#8 : Byte) ≠ 0x2B#8 ∧ (0x2C#8 : Byte) ≠ 0x2D#8 ∧ (0x2C#8 : Byte) ≠ 0x24#8 :=
  ⟨{ stream with rxState := .ackWait }, by decide⟩

/-- Ten bytes wait in `txq`: one more is the most that forces no flush. -/
def tenWait : Fifo := ⟨[], 10, 0⟩

theorem test_hyp_RejectingRows : ∀ st ∈ [RxState.char, .esc, .csum2],
    ∃ s : State, s.dispatchPending = false ∧ s.linked = true ∧ s.txq.head < s.params.txCap ∧
      s.txq.isFull s.params.txCap = false ∧
      (s.txq.pushed s.params.txCap 0x2D#8).count s.params.txCap < s.params.txNearFull ∧
      (s.txq.pushed s.params.txCap 0x2D#8).count s.params.txCap + 1 = s.params.txNearFull ∧
      s.rxState = st ∧ (st = .csum2 ∨ s.rxSize = s.params.pktMax) ∧ csumOk s.rxC1 0x67#8 s.rxCsum = false := by
  intro st _
  refine ⟨{ charFull with rxState := st, txq := tenWait }, rfl, rfl, ?_⟩
  revert st
  decide

/-- The second checksum character of `"$abcd#8a"` is next. -/
def lastDigit : State :=
  { charFull with
    rxState := .csum2, rxC1 := 0x38#8, txq := tenWait
    pkt := [(0, 0x61#8), (1, 0x62#8), (2, 0x63#8), (3, 0x64#8)] }

theorem test_hyp_GoodChecksumDispatches : lastDigit.dispatchPending = false ∧ lastDigit.rxState = .csum2 ∧
    csumOk lastDigit.rxC1 0x61#8 lastDigit.rxCsum = true ∧ lastDigit.rxSize ≤ lastDigit.params.pktMax ∧
    lastDigit.linked = true ∧
    (after (exec (.txSendByte 0x2B#8) lastDigit)).map State.linked = some true ∧
    (after (exec (.txSendByte 0x2B#8) { lastDigit with txq := filled 16 (List.replicate 11 0x2B#8), beWrites := [.error] })).map
      State.linked = some false ∧
    lastDigit.txq.head < lastDigit.params.txCap ∧ lastDigit.txq.isFull lastDigit.params.txCap = false ∧
    (lastDigit.txq.pushed lastDigit.params.txCap 0x2B#8).count lastDigit.params.txCap <
      lastDigit.params.txNearFull := by decide

/-- What each hex digit is worth, and the characters just outside their ranges. -/
def digitOf (c : Byte) (n : Nat) : Prop :=
  (0x30 ≤ c.toNat ∧ c.toNat ≤ 0x39 ∧ c.toNat = 0x30 + n) ∨
  (0x61 ≤ c.toNat ∧ c.toNat ≤ 0x66 ∧ c.toNat = 0x61 - 10 + n) ∨
  (0x41 ≤ c.toNat ∧ c.toNat ≤ 0x46 ∧ c.toNat = 0x41 - 10 + n)

theorem test_hyp_ChecksumDigits : ∃ digit : Byte → Nat → Prop,
    (∀ c n, digit c n ↔
      (0x30 ≤ c.toNat ∧ c.toNat ≤ 0x39 ∧ c.toNat = 0x30 + n) ∨
      (0x61 ≤ c.toNat ∧ c.toNat ≤ 0x66 ∧ c.toNat = 0x61 - 10 + n) ∨
      (0x41 ≤ c.toNat ∧ c.toNat ≤ 0x46 ∧ c.toNat = 0x41 - 10 + n)) ∧
    digit 0x39#8 9 ∧ digit 0x61#8 10 ∧ digit 0x46#8 15 ∧ ∀ n, ¬digit 0x3A#8 n ∧ ¬digit 0x67#8 n ∧ ¬digit 0x40#8 n :=
  ⟨digitOf, fun _ _ => Iff.rfl, by unfold digitOf; decide, by unfold digitOf; decide, by unfold digitOf; decide,
    fun n => by simp [digitOf]⟩

/-- With ten bytes waiting the flush is deferred, with eleven it is forced. -/
theorem test_hyp_SendBytePushesAndRequestsFlush :
    (({ stream with txq := tenWait } : State).offered 0x2B#8).txq.count 16 = 11 ∧
    (({ stream with txq := ⟨[], 11, 0⟩ } : State).offered 0x2B#8).txq.count 16 = 12 ∧
    stream.params.txNearFull = 12 ∧ stream.linked = true := by decide

/-- One offered byte is one more than fits below the threshold of `busy`, and the empty packet overflows it. -/
theorem test_hyp_SendPacketOffersTheFrame :
    (busy.linked = true ∧ Fifo.Ok busy.params.txCap busy.txq ∧
      busy.params.txNearFull ≤ ((packetBytes []).foldl (fun u b => u.offered b) busy).txq.count 4) ∧
    (stream.linked = true ∧ Fifo.Ok stream.params.txCap stream.txq ∧
      ((packetBytes [0x61#8]).foldl (fun u b => u.offered b) stream).txq.count 16 < stream.params.txNearFull) :=
  ⟨⟨rfl, ok_one _, by decide⟩, rfl, .ofReset (by decide), by decide⟩

/-- A packet of eleven bytes is the longest that stays below the threshold of an empty `txq`. -/
theorem test_hyp_SendPacketWithRoomCompletes :
    stream.linked = true ∧
    stream.txq.fits stream.params.txCap
      (packetBytes [0x61#8, 0x62#8, 0x63#8, 0x64#8, 0x65#8, 0x66#8, 0x67#8]).length ∧
    stream.txq.count stream.params.txCap +
      (packetBytes [0x61#8, 0x62#8, 0x63#8, 0x64#8, 0x65#8, 0x66#8, 0x67#8]).length + 1 =
      stream.params.txNearFull ∧
    stream.txq.fits stream.params.txCap (packetBytes (consolePayload [0x68#8, 0x69#8])).length ∧
    stream.txq.count stream.params.txCap + (packetBytes (consolePayload [0x68#8, 0x69#8])).length <
      stream.params.txNearFull :=
  ⟨rfl, ⟨.ofReset (by decide), by decide⟩, by decide, ⟨.ofReset (by decide), by decide⟩, by decide⟩

theorem test_hyp_PacketFormat : ∃ digits body : List Byte,
    digits = [0x30#8, 0x31#8, 0x32#8, 0x33#8, 0x34#8, 0x35#8, 0x36#8, 0x37#8, 0x38#8, 0x39#8,
      0x61#8, 0x62#8, 0x63#8, 0x64#8, 0x65#8, 0x66#8] ∧
    body = [0x7D#8].flatMap
      (fun c => if c = 0x24#8 ∨ c = 0x23#8 ∨ c = 0x7D#8 then [0x7D#8, c ^^^ 0x20#8] else [c]) ∧
    body = [0x7D#8, 0x5D#8] := ⟨_, _, rfl, rfl, by decide⟩

theorem test_hyp_PacketWithoutRoomRaisesTxFault :
    busy.linked = true ∧ Fifo.Ok busy.params.txCap busy.txq ∧
    busy.params.txCap - 1 < busy.txq.count busy.params.txCap + (packetBytes []).length :=
  ⟨rfl, ok_one _, by decide⟩

/-- A full FIFO, and one with room whose next slot is its last. -/
theorem test_hyp_FifoPushWritesAtHead : wrapped.isFull 4 = true ∧
    (⟨[], 3, 1⟩ : Fifo).isFull 4 = false ∧ (⟨[], 3, 1⟩ : Fifo).head < 4 := by decide

/-- An empty FIFO, and one whose oldest byte is in its last slot. -/
theorem test_hyp_FifoPopReadsAtTail : (⟨[], 3, 3⟩ : Fifo).head = (⟨[], 3, 3⟩ : Fifo).tail ∧
    (⟨[(3, 0x41#8)], 0, 3⟩ : Fifo).head ≠ (⟨[(3, 0x41#8)], 0, 3⟩ : Fifo).tail ∧
    (⟨[(3, 0x41#8)], 0, 3⟩ : Fifo).tail < 4 ∧
    (⟨[(3, 0x41#8)], 0, 3⟩ : Fifo).mem.read (⟨[(3, 0x41#8)], 0, 3⟩ : Fifo).tail = some 0x41#8 := by decide

theorem test_hyp_FifoStatusAgrees : wrapped.head < 4 ∧ wrapped.tail < 4 ∧ wrapped.count 4 = 3 ∧
    (⟨[], 3, 3⟩ : Fifo).count 4 = 0 := by decide

/-- An accepted push, a rejected one, a pop of a byte and a pop of none. -/
theorem test_hyp_FifoKeepsOrder :
    (Fifo.Ok (slots busy.params .rxq) (busy.fifo .rxq) ∧
      (after (exec (.fifoPush .rxq 0x41#8) busy)).map State.accepted = some true ∧
      (after (exec (.fifoPop .rxq) busy)).map State.popped = some (some 0x70#8)) ∧
    (Fifo.Ok 4 wrapped ∧
      (after (exec (.fifoPush .rxq 0x41#8) { busy with rxq := wrapped })).map State.accepted = some false) ∧
    (Fifo.Ok 16 (stream.fifo .txq) ∧ (after (exec (.fifoPop .txq) stream)).map State.popped = some none) :=
  ⟨⟨ok_one _, by decide, by decide⟩, ⟨ok_wrapped, by decide⟩, .ofReset (by decide), by decide⟩

theorem test_hyp_WriteAcceptsThePrefixThatFits :
    busy.linked = true ∧ Fifo.Ok busy.params.txCap busy.txq ∧
    ({ net with peer := false } : State).linked = false := ⟨rfl, ok_one _, rfl⟩

theorem test_hyp_DeliverAcceptsThePrefixThatFits :
    (∃ s : State, ∃ n turns later, s.session = .net ∧ s.peer = true ∧ s.delivering = none ∧
      Fifo.Ok s.params.rxCap s.rxq ∧ n = min 3 (s.params.rxCap - 1 - s.rxq.count s.params.rxCap) ∧ n = 2 ∧
      s.turns = List.replicate (n + 2) .delivery ++ turns ∧ s.deliveries = [0x24#8, 0x23#8, 0x30#8] :: later) ∧
    stream.session ≠ .net ∧ ({ net with peer := false } : State).peer = false :=
  ⟨⟨{ busy with turns := List.replicate 4 .delivery, deliveries := [[0x24#8, 0x23#8, 0x30#8]] }, 2, [], [], rfl, rfl,
    rfl, ok_one _, by decide, rfl, rfl, rfl⟩, by decide, rfl⟩

theorem test_hyp_FlushMovesTheOldestBytesToTheWire :
    busy.linked = true ∧ Fifo.Ok busy.params.txCap busy.txq ∧
    ∀ a, a ∈ ({ busy with beWrites := [.takes 1, .takes 0] } : State).beWrites → a ≠ .error :=
  ⟨rfl, ok_one _, by decide⟩

theorem test_hyp_NothingMovesWithNoBackend :
    ({ net with peer := false } : State).linked = false ∧ net.dispatchPending = false ∧ net.poll = .idle ∧
    net.servicing = false := by decide

/-- No backend; an empty FIFO; an error, a backend that takes nothing, and one that takes all there is. -/
theorem test_hyp_FlushFollowsTheAnswers :
    (stream.linked = true ∧ Fifo.Ok stream.params.txCap stream.txq ∧ stream.txq.head = stream.txq.tail) ∧
    (busy.linked = true ∧ Fifo.Ok busy.params.txCap busy.txq ∧ busy.txq.head ≠ busy.txq.tail ∧
      ∀ a ∈ [WriteAnswer.error, .takes 0, .takes 1], ({ busy with beWrites := [a] } : State).beWrites = [a]) ∧
    1 ≤ busy.txq.count busy.params.txCap ∧ State.reset.linked = false :=
  ⟨⟨rfl, .ofReset (by decide), rfl⟩, ⟨rfl, ok_one _, by decide, fun _ _ => rfl⟩, by decide, rfl⟩

theorem test_hyp_NoAnswerIsNothing :
    stream.session = .stream ∧ stream.beReads = [] ∧ stream.dispatchPending = false ∧ stream.poll = .idle ∧
    stream.servicing = false ∧ busy.linked = true ∧ busy.beWrites = [] ∧ busy.txq.head ≠ busy.txq.tail := by decide

theorem test_hyp_PollStartsBySession :
    (stream.dispatchPending = false ∧ stream.poll = .idle ∧ stream.servicing = false ∧ stream.session = .stream ∧
      ∀ a ∈ [ReadAnswer.bytes [], .notReady, .error], ({ stream with beReads := [a] } : State).beReads = [a]) ∧
    (net.dispatchPending = false ∧ net.poll = .idle ∧ net.servicing = false ∧ net.session = .net ∧
      net.peer = true) ∧
    State.reset.linked = false :=
  ⟨⟨rfl, rfl, rfl, rfl, fun _ _ => rfl⟩, ⟨rfl, rfl, rfl, rfl, rfl⟩, rfl⟩

/-- A request outside a dispatch, one inside it while a poll waits, and a barred one. -/
theorem test_hyp_StepRunsTheDecodedRequest :
    (∃ s : State, s.turns.head? ≠ some .delivery ∧ s.requests = [⟨.caller, [0x41#8]⟩] ∧
      decode .op RxCond.afterReset [0x41#8] = .ok .dispatchFault ∧
      (s.dispatchPending = true ∧ s.poll = .stream [0x24#8] ∨ s.poll = .idle ∧ s.servicing = false)) ∧
    decode .op RxCond.afterReset [0x35#8] = .ok .sessionError ∧
    ({ stream with requests := [⟨.caller, [0x35#8]⟩] } : State).requests = ⟨.caller, [0x35#8]⟩ :: [] ∧
    stream.turns.head? ≠ some .delivery ∧ stream.poll = .idle ∧ stream.servicing = false :=
  ⟨⟨{ stream with
      dispatchPending := true, poll := .stream [0x24#8], requests := [⟨.caller, [0x41#8]⟩] }, by decide⟩,
    rfl, rfl, by decide, rfl, rfl⟩

theorem test_hyp_StepRunsTheStreamPoll :
    stream.turns.head? ≠ some .delivery ∧ stream.dispatchPending = false ∧ stream.linked = true ∧
    ({ stream with poll := .stream [0x24#8] } : State).poll = .stream (0x24#8 :: []) ∧
    ({ stream with session := .inactive } : State).linked = false ∧
    ({ stream with poll := .stream [] } : State).poll = .stream [] := by decide

theorem test_hyp_StepRunsTheNetworkPoll :
    net.turns.head? ≠ some .delivery ∧ net.dispatchPending = false ∧ net.linked = true ∧
    ({ net with peer := false } : State).linked = false ∧
    (∀ p ∈ [Poll.netPop, .netTake], ({ net with poll := p } : State).poll = p) ∧
    ({ net with popped := some 0x24#8 } : State).popped = some 0x24#8 ∧ net.popped = none ∧ net.poll = .idle ∧
    ({ net with servicing := true, flushReq := true } : State).servicing = true ∧ net.flushReq = false :=
  ⟨by decide, rfl, rfl, rfl, fun _ _ => rfl, rfl, rfl, rfl, rfl, rfl⟩

theorem test_hyp_NothingHappensUnasked : State.reset.turns.head? ≠ some .delivery ∧ State.reset.requests = [] ∧
    State.reset.poll = .idle ∧ State.reset.servicing = false ∧
    ({ stream with dispatchPending := true } : State).dispatchPending = true :=
  ⟨nofun, rfl, rfl, rfl, rfl⟩

/-- No call, a call with and without a peer; a finished delivery, a byte that does not fit and one that does. -/
theorem test_hyp_DeliveryTurnOnlyPushes :
    ({ net with turns := [.delivery] } : State).turns = .delivery :: [] ∧ net.session = .net ∧ net.peer = true ∧
    net.delivering = none ∧ net.deliveries = [] ∧
    ({ net with deliveries := [[0x24#8]] } : State).deliveries = [0x24#8] :: [] ∧
    (∀ d ∈ [(⟨[], 2⟩ : Delivery), ⟨[0x24#8], 0⟩], ({ net with delivering := some d } : State).delivering = some d) ∧
    (Fifo.Ok 4 wrapped ∧ wrapped.isFull 4 = true) ∧ Fifo.Ok 4 net.rxq ∧ net.rxq.isFull 4 = false ∧
    stream.session ≠ .net :=
  ⟨rfl, rfl, rfl, rfl, rfl, rfl, fun _ _ => rfl, ⟨ok_wrapped, rfl⟩, .ofReset (by decide), rfl, by decide⟩

theorem test_hyp_SessionOperationsReset :
    ({ stream with session := .inactive } : State).session = .inactive ∧ stream.dispatchPending = false ∧
    net.session = .net ∧ net.peer = true ∧ net.dispatchPending = false := by decide

theorem test_hyp_SessionErrorTearsDown :
    stream.session = .stream ∧ net.session = .net ∧ State.reset.session = .inactive := ⟨rfl, rfl, rfl⟩

theorem test_hyp_DispatchOkCompletes : ({ stream with dispatchPending := true } : State).dispatchPending = true := rfl

/-- An empty `txq` of `TX_NEAR_FULL = 8`: seven bytes are the most that force no flush; with `TX_NEAR_FULL = 7` they
force one, which here meets an error. -/
theorem test_hyp_DispatchFaultSendsTheErrorPacket :
    (∃ s : State, s.dispatchPending = true ∧ s.linked = true ∧ s.txq.fits s.params.txCap 7 ∧
      s.txq.count s.params.txCap + 7 < s.params.txNearFull ∧
      (after (exec (.txSendPacket [0x45#8, 0x46#8, 0x46#8]) s)).map State.linked = some true) ∧
    ∃ s : State, s.dispatchPending = true ∧
      (after (exec (.txSendPacket [0x45#8, 0x46#8, 0x46#8]) s)).map State.linked = some false :=
  ⟨⟨{ stream with params := ⟨4, 4, 9, 8, true⟩, dispatchPending := true }, rfl, rfl,
    ⟨.ofReset (by decide), by decide⟩, by decide, by decide⟩,
    { stream with params := ⟨4, 4, 9, 7, true⟩, dispatchPending := true, beWrites := [.error] }, rfl, by decide⟩

theorem test_hyp_RefusedRequests :
    ({ stream with dispatchPending := true } : State).dispatchPending = true ∧ stream.dispatchPending = false ∧
    stream.session ≠ .inactive ∧ stream.session ≠ .net ∧ ({ net with peer := false } : State).session = .net ∧
    ({ net with peer := false } : State).peer = false ∧ ({ net with peer := false } : State).linked = false ∧
    (∀ st ∈ [RxState.char, .esc, .csum2],
      ({ charFull with session := .inactive, rxState := st } : State).linked = false ∧
      ({ charFull with session := .inactive, rxState := st } : State).rxState = st) ∧
    charFull.rxSize = charFull.params.pktMax ∧ csumOk 0x38#8 0x61#8 charFull.rxCsum = true ∧
    csumOk 0x38#8 0x67#8 charFull.rxCsum = false := by
  decide

theorem test_hyp_ResetValues : ∃ s : State, s = State.resetWith ⟨1, 2, 2, 1, false⟩ := ⟨_, rfl⟩

theorem test_hyp_ResetMeetsTheInvariant : (⟨1, 2, 2, 1, false⟩ : Params).valid = true := by decide

theorem test_hyp_StepKeepsTheInvariant :
    busy.Inv ∧ (after (step { busy with poll := .netPop })).map State.popped = some (some 0x70#8) :=
  ⟨busy_inv, by decide⟩

theorem test_hyp_NoStepFaults : busy.Inv := busy_inv

theorem test_hyp_TxFaultIsNeverCleared :
    (after (step { busy with txFault := true, requests := [⟨.caller, [0x32#8]⟩] })).map State.session = some .inactive := by
  decide

theorem test_hyp_ParametersFixedAndEventsKept :
    (after (step { busy with beWrites := [.takes 1], requests := [⟨.caller, [0x21#8]⟩] })).map State.events =
      some [.beWrite [0x2B#8]] := by decide

theorem test_hyp_OnlyPacketsArmAckWait :
    (after (exec (.txSendPacket []) stream)).map State.rxState = some .ackWait ∧ stream.rxState ≠ .ackWait := by
  decide

theorem test_hyp_AckWaitEndsOnlyByItsBytesOrAReset :
    (∀ i ∈ [Instr.rxAckwAck, .rxAckwNack, .sessionDeinit],
      (after (exec i { stream with rxState := .ackWait })).map State.rxState = some .idle) := by decide

theorem test_hyp_HaltOnlyFromIdle : (after (exec .rxIdleHalt stream)).map State.events = some [.haltReq] := by decide

theorem test_hyp_StoresHaveTheirWriters :
    (after (exec (.rxCharData 0x62#8) busy)).map (fun t => decide (t.pkt = busy.pkt)) = some false ∧
    (after (exec (.fifoPush .rxq 0x62#8) busy)).map (fun t => decide (t.rxq.mem = busy.rxq.mem)) = some false ∧
    (after (exec (.txSendByte 0x2D#8) busy)).map (fun t => decide (t.txq.mem = busy.txq.mem)) = some false ∧
    (after (exec (.rxCsum1Capture 0x62#8) { busy with rxState := .csum1 })).map State.rxC1 = some 0x62#8 := by decide

/-- A step of each context: a reset of a block that holds a byte, and the push of a delivery. -/
theorem test_hyp_StoresHaveTheirWriters_step :
    (after (step { busy with requests := [⟨.caller, [0x32#8]⟩] })).map (fun t => (t.rxq.head, busy.rxq.head)) =
      some (0, 1) ∧
    (after (step { busy with turns := [.delivery], delivering := some ⟨[0x62#8], 0⟩ })).map
      (fun t => (t.rxq.head, t.rxq.tail)) = some (2, 0) := by decide

/-- A step of a dispatch that keeps the size, and one whose flush fails. -/
theorem test_hyp_PayloadKeptDuringDispatch :
    (after (step { busy with rxState := .idle, dispatchPending := true, requests := [⟨.caller, [0x40#8]⟩] })).map State.rxSize =
      some 1 ∧
    (after (step { busy with
      rxState := .idle, dispatchPending := true, beWrites := [.error], requests := [⟨.caller, [0x21#8]⟩] })).map
      (fun t => (t.rxSize, t.linked)) = some (0, false) := by decide

theorem test_hyp_SizeAndChecksumResetTogether :
    busy.rxSize ≠ 0 ∧ (after (exec .rxCharRestart busy)).map State.rxSize = some 0 := by decide

/-- A full payload of bytes that are all escaped, from each of the three states, with ten bytes waiting in `txq`. -/
theorem test_hyp_EncodedPacketRoundTrips : ∀ st ∈ [RxState.idle, .char, .ackWait],
    ∃ s : State, [0x24#8, 0x23#8, 0x7D#8, 0x24#8].length ≤ s.params.pktMax ∧ s.dispatchPending = false ∧
      s.rxState = st ∧ s.linked = true ∧ s.txq.head < s.params.txCap ∧ s.txq.isFull s.params.txCap = false ∧
      (s.txq.pushed s.params.txCap 0x2B#8).count s.params.txCap < s.params.txNearFull := by
  intro st _
  refine ⟨{ stream with rxState := st, txq := tenWait }, ?_⟩
  revert st
  decide

/-- A body that holds an escaped `$`: the marker, then `0x24` in `ESC`. -/
theorem test_hyp_RunningChecksumIsTheWireSum :
    busy.rxState = .char ∧
    (∀ xs b ys u, [0x7D#8, 0x24#8] = xs ++ b :: ys → rxRun xs busy = .next u → u.rxState ≠ .esc → b ≠ 0x24#8) ∧
    (after (rxRun [0x7D#8, 0x24#8] busy)).map State.rxState = some .char ∧
    ((after (rxRun [0x7D#8, 0x24#8] busy)).map (fun t => (after (rxStep 0x23#8 t)).isSome)) = some true := by
  refine ⟨rfl, ?_, by decide, by decide⟩
  intro xs b ys u h hu hs hb
  subst hb
  match xs, h with
  | [], h => simp at h
  | [x], h =>
    simp only [List.cons_append, List.nil_append, List.cons.injEq] at h
    obtain ⟨rfl, -⟩ := h
    exact hs (by
      have : (after (rxRun [0x7D#8] busy)).map State.rxState = some .esc := by decide
      rw [hu] at this
      simpa [after] using this)
  | x :: y :: zs, h =>
    have := congrArg List.length h
    simp at this

/-- Two polls of the frame `"$a#61"`, the second with its last character, which dispatches. -/
theorem test_hyp_ChunkedPollsDoTheSame :
    stream.turns = [] ∧ stream.linked = true ∧ stream.dispatchPending = false ∧
    (after (rxRun ([0x24#8, 0x61#8, 0x23#8, 0x36#8] ++ [0x31#8]) stream)).map
      (fun t => (t.linked, t.dispatchPending)) = some (true, true) := by decide

end Sys2Proof.Tests
end

/-! SUPPORT. The receive table of R102 at a key of R101. A row of the table stands either for one byte of a state, with
the whole key under its mask, or for a state's other bytes, with the state bits only; at the key of a state and a byte
the first is matched by that state and byte, the second by that state. -/

namespace Sys2Proof

/-! ### The key of a receive step -/

/-- The state code stands above the byte (R101). -/
theorem keyOf_eq_append (st : RxState) (b : Byte) : keyOf st b = st.code.setWidth 3 ++ b := by
  simp only [keyOf, BitVec.append_def, BitVec.shiftLeftZeroExtend_eq, BitVec.setWidth'_eq]
  cases st <;> rfl

/-- Three bits tell the state codes apart. -/
theorem RxState.code_setWidth_inj {st st' : RxState} :
    st.code.setWidth 3 = st'.code.setWidth 3 ↔ st = st' := by
  cases st <;> cases st' <;> decide

/-- The byte of a key. -/
@[simp] theorem keyOf_setWidth (st : RxState) (b : Byte) : (keyOf st b).setWidth 8 = b := by
  rw [keyOf_eq_append, BitVec.setWidth_append_eq_right]

@[simp] theorem keyOf_inj {st st' : RxState} {b b' : Byte} :
    keyOf st b = keyOf st' b' ↔ st = st' ∧ b = b' := by
  refine ⟨fun h => ?_, fun ⟨hst, hb⟩ => hst ▸ hb ▸ rfl⟩
  have hb : b = b' := by simpa only [keyOf_setWidth] using congrArg (BitVec.setWidth 8) h
  rw [hb, keyOf_eq_append, keyOf_eq_append, BitVec.append_left_inj] at h
  exact ⟨RxState.code_setWidth_inj.mp h, hb⟩

/-- The mask of a row for one byte keeps the whole key. -/
@[simp] theorem keyOf_and_keyMask (st : RxState) (b : Byte) : keyOf st b &&& 0x7FF#11 = keyOf st b :=
  BitVec.and_allOnes

/-- The mask of a row for any other byte keeps the state bits. -/
@[simp] theorem keyOf_and_stateMask (st : RxState) (b : Byte) :
    keyOf st b &&& 0x700#11 = keyOf st 0x00#8 := by
  have hmask : 0x700#11 = BitVec.allOnes 3 ++ 0x00#8 := by decide
  rw [hmask, keyOf_eq_append, keyOf_eq_append, BitVec.and_append, BitVec.and_allOnes, BitVec.and_zero]

/-! ### The two kinds of rows -/

/-- A row for one byte of a state. -/
def RxRow.ofByte (st : RxState) (b : Byte) (i : Instr) : RxRow :=
  ⟨keyOf st b, 0x7FF#11, .always, fun _ => i⟩

/-- A row for any other byte of a state, under a condition. -/
def RxRow.ofState (st : RxState) (cond : RowCond) (make : Byte → Instr) : RxRow :=
  ⟨keyOf st 0x00#8, 0x700#11, cond, make⟩

/-- The seventeen rows by their kinds. -/
theorem rxTable_eq : rxTable =
    [ .ofByte .idle 0x24#8 .rxIdleStart,
      .ofByte .idle 0x03#8 .rxIdleHalt,
      .ofState .idle .always .rxIdleIgnore,
      .ofByte .char 0x24#8 .rxCharRestart,
      .ofByte .char 0x23#8 .rxCharEnd,
      .ofByte .char 0x7D#8 .rxCharEscape,
      .ofState .char .room .rxCharData,
      .ofState .char .full .rxCharOverflow,
      .ofState .esc .room .rxEscData,
      .ofState .esc .full .rxEscOverflow,
      .ofState .csum1 .always .rxCsum1Capture,
      .ofState .csum2 .csumOk .rxCsum2Good,
      .ofState .csum2 .csumBad .rxCsum2Bad,
      .ofByte .ackWait 0x2B#8 .rxAckwAck,
      .ofByte .ackWait 0x2D#8 .rxAckwNack,
      .ofByte .ackWait 0x24#8 .rxAckwStart,
      .ofState .ackWait .always .rxAckwIgnore ] := rfl

/-! ### Matching rows in order -/

/-- The operation of the first row in `rows` that matches the key of a state and a byte. -/
def firstIn (rows : List RxRow) (c : RxCond) (st : RxState) (b : Byte) : Option Instr :=
  (rows.find? (·.hits c (keyOf st b))).map (·.make b)

/-- At a key of R101 the row selected is given the key's byte. -/
theorem firstMatch_keyOf (c : RxCond) (st : RxState) (b : Byte) :
    firstMatch c (keyOf st b) = firstIn rxTable c st b := by
  unfold firstMatch firstIn
  cases rxTable.find? (·.hits c (keyOf st b)) <;> simp

/-- The head row is taken where it matches, and passed over where it does not. -/
theorem firstIn_cons (r : RxRow) (rows : List RxRow) (c : RxCond) (st : RxState) (b : Byte) :
    firstIn (r :: rows) c st b =
      if r.hits c (keyOf st b) then some (r.make b) else firstIn rows c st b := by
  unfold firstIn
  cases h : r.hits c (keyOf st b) <;> simp [h]

@[simp] theorem firstIn_ofByte (st' : RxState) (b' : Byte) (i : Instr) (rows : List RxRow) (c : RxCond)
    (st : RxState) (b : Byte) :
    firstIn (.ofByte st' b' i :: rows) c st b =
      if st = st' ∧ b = b' then some i else firstIn rows c st b := by
  simp [firstIn_cons, RxRow.ofByte, RxRow.hits, RowCond.holds]

@[simp] theorem firstIn_ofState (st' : RxState) (cond : RowCond) (make : Byte → Instr) (rows : List RxRow)
    (c : RxCond) (st : RxState) (b : Byte) :
    firstIn (.ofState st' cond make :: rows) c st b =
      if st = st' ∧ cond.holds c then some (make b) else firstIn rows c st b := by
  simp [firstIn_cons, RxRow.ofState, RxRow.hits]

/-- The rows of the other states are passed over, and a state's own rows, in table order, are the branches of
`selectRow`; of two rows with opposite conditions one matches. -/
theorem firstIn_rxTable (c : RxCond) (st : RxState) (b : Byte) :
    firstIn rxTable c st b = some (selectRow c st b) := by
  rw [rxTable_eq]
  cases st with
  | idle | ackWait => simp [selectRow, RowCond.holds, apply_ite some]
  | csum1 => simp [selectRow, RowCond.holds]
  | char | esc => cases hroom : c.room <;> simp [selectRow, RowCond.holds, hroom, apply_ite some]
  | csum2 => cases hsum : c.csumOk <;> simp [selectRow, RowCond.holds, hsum]

/-- Settles O3: the table's rows at the key of R101, taken in order, are the branches of the decoder. -/
theorem selectedRowIsFirstTableMatch : Obligations.SelectedRowIsFirstTableMatch := by
  intro c st b
  rw [firstMatch_keyOf, firstIn_rxTable]

end Sys2Proof

/-! SUPPORT. A receive step whose row is the selected one has that row's effect, and the effect of a row that stores a
byte of the body; then the rows of `IDLE`, `CHAR` and `ESC` that need no backend. -/

namespace Sys2Proof.Machine

/-! ### Receive steps that are taken -/

/-- With no dispatch in progress a receive step of the selected row is that row's effect (R120). -/
theorem receive_selected {i : Instr} {b : Byte} {s : State} {e : Answer} (hd : s.dispatchPending = false)
    (hrow : s.rowFor b = i) : receive i b s e = e := by
  simp [receive, hd, hrow]

theorem State.rowFor_idle {s : State} (hst : s.rxState = .idle) (b : Byte) :
    s.rowFor b =
      if b = 0x24#8 then .rxIdleStart else if b = 0x03#8 then .rxIdleHalt else .rxIdleIgnore b := by
  rw [State.rowFor, hst, selectRow]

theorem State.rowFor_char {s : State} (hst : s.rxState = .char) (b : Byte) :
    s.rowFor b =
      if b = 0x24#8 then .rxCharRestart else if b = 0x23#8 then .rxCharEnd
      else if b = 0x7D#8 then .rxCharEscape
      else if s.rxSize < s.params.pktMax then .rxCharData b else .rxCharOverflow b := by
  simp [State.rowFor, hst, selectRow, State.rxCond]

theorem State.rowFor_esc {s : State} (hst : s.rxState = .esc) (b : Byte) :
    s.rowFor b = if s.rxSize < s.params.pktMax then .rxEscData b else .rxEscOverflow b := by
  simp [State.rowFor, hst, selectRow, State.rxCond]

/-! ### Storing a byte of the body -/

/-- A body byte inside the store: `c` is written at `rx_size`, `b` is summed (R127, R129). -/
theorem storeByte_ok (c b : Byte) {s : State} (h : s.rxSize ≤ s.params.pktMax) :
    storeByte c b s = .ok { s with
      pkt := s.pkt.write s.rxSize c, rxSize := s.rxSize + 1, rxCsum := s.rxCsum + b, rxState := .char } := by
  simp [storeByte, State.writePkt_ok h]

/-- A selected row that stores a byte, where there is room. -/
theorem receive_storeByte {i : Instr} {b : Byte} {s : State} (c : Byte) (hd : s.dispatchPending = false)
    (hrow : s.rowFor b = i) (hroom : s.rxSize < s.params.pktMax) :
    receive i b s (answer (storeByte c b s)) = .next { s with
      pkt := s.pkt.write s.rxSize c, rxSize := s.rxSize + 1, rxCsum := s.rxCsum + b, rxState := .char } := by
  rw [receive_selected hd hrow, storeByte_ok c b hroom.le, answer]

/-- A write leaves what stands at every other index. -/
theorem Memory.read_write_of_ne (m : Memory) {a i : Nat} (x : Byte) (h : a ≠ i) :
    (m.write i x).read a = m.read a := by
  rw [Memory.read_write, if_neg h]

/-! ### The rows -/

/-- Settles O6: each byte selects the row of its name, and the row's effect is the state written out. -/
theorem idleRows : Obligations.IdleRows := by
  intro s hd hst
  have hsel := State.rowFor_idle hst
  refine ⟨?start, ?halt, fun b hstart hhalt => ?ignore⟩
  case start => exact receive_selected hd (hsel 0x24#8)
  case halt => exact receive_selected hd (hsel 0x03#8)
  case ignore => exact receive_selected hd (by rw [hsel, if_neg hstart, if_neg hhalt])

/-- Settles O8: the row is selected for a byte that is no delimiter while there is room, and the state it stays in is
the one it was in. -/
theorem charDataStoresTheByte : Obligations.CharDataStoresTheByte := by
  intro s b hd hst hstart hend hesc hroom
  have hrow : s.rowFor b = .rxCharData b := by
    rw [State.rowFor_char hst, if_neg hstart, if_neg hend, if_neg hesc, if_pos hroom]
  refine ⟨s.pkt.write s.rxSize b, ?_, Memory.read_write_same .., fun _ => Memory.read_write_of_ne _ b⟩
  rw [hst]
  exact receive_storeByte b hd hrow hroom

/-- Settles O9: the byte stored is the one received XOR `0x20`, the byte summed the one received. -/
theorem escDataStoresTheUnescapedByte : Obligations.EscDataStoresTheUnescapedByte := by
  intro s b hd hst hroom
  have hrow : s.rowFor b = .rxEscData b := by rw [State.rowFor_esc hst, if_pos hroom]
  exact ⟨s.pkt.write s.rxSize (b ^^^ 0x20#8), receive_storeByte (escapeXor b) hd hrow hroom,
    Memory.read_write_same .., fun _ => Memory.read_write_of_ne _ (b ^^^ 0x20#8)⟩

end Sys2Proof.Machine

/-! SUPPORT. `FIFO.PUSH` as an operation: a push with its result in `accepted`, for either FIFO. -/

namespace Sys2Proof.Machine

/-- `FIFO.PUSH` into a full FIFO: the byte is rejected and nothing else changes (R180). -/
theorem exec_fifoPush_full {q : Queue} (b : Byte) {s : State}
    (hfull : (s.fifo q).isFull (slots s.params q) = true) :
    exec (.fifoPush q b) s = .next { s with accepted := false } := by
  simp only [exec, execFifoPush, push_full hfull]

/-- `FIFO.PUSH` into a FIFO with room: the FIFO takes the byte at its head (R180). -/
theorem exec_fifoPush_room {q : Queue} (b : Byte) {s : State}
    (hroom : (s.fifo q).isFull (slots s.params q) = false) (hhead : (s.fifo q).head < slots s.params q) :
    exec (.fifoPush q b) s =
      .next { s.setFifo q ((s.fifo q).pushed (slots s.params q) b) with accepted := true } := by
  simp only [exec, execFifoPush, push_room hroom hhead]

/-- Settles O24: the two results of a push, for each of the two FIFOs. -/
theorem fifoPushWritesAtHead : Obligations.FifoPushWritesAtHead := by
  intro s b
  refine ⟨⟨?rxqFull, ?rxqRoom⟩, ?txqFull, ?txqRoom⟩
  case rxqFull => exact exec_fifoPush_full (q := .rxq) b
  case rxqRoom => exact exec_fifoPush_room (q := .rxq) b
  case txqFull => exact exec_fifoPush_full (q := .txq) b
  case txqRoom => exact exec_fifoPush_room (q := .txq) b

end Sys2Proof.Machine

/-! SUPPORT. `TX.SEND_FMT`: the conversions of its format string are not in the specification (D38). -/

namespace Sys2Proof.Machine

/-- Settles O23: the operation's meaning is the refusal itself, with no premise on the session or on a queue (R249). -/
theorem formattedSendIsRefused : Obligations.FormattedSendIsRefused := by
  intro s operands
  show execTxSendFmt operands s = .refused .formatUndefined
  rfl

end Sys2Proof.Machine

/-! SUPPORT. The decoder and the encoder as inverses: in format RXB through the row `selectRow` gives a state and a
byte, in format OP through what each operand parser accepts. -/

namespace Sys2Proof

/-! ### Receive keys -/

/-- A code names the state whose code it is (R101). -/
theorem RxState.ofCode_eq_some {code : Byte} {st : RxState} : RxState.ofCode code = some st ↔ code = st.code := by
  constructor
  · intro h
    unfold RxState.ofCode at h
    (repeat' split at h) <;> cases h <;> assumption
  · rintro rfl
    cases st <;> rfl

/-- A receive row is encoded as the byte and the state code of its key (R101). -/
theorem encode_of_rxKey {i : Instr} {st : RxState} {b : Byte} (hkey : i.rxKey = some (st, b)) :
    encode i = [b, st.code] := by
  cases i <;> cases hkey <;> rfl

/-- The row selected for a state and a byte is of that state and byte, is well-formed, and its condition holds
(R102). -/
theorem selectRow_sound (c : RxCond) (st : RxState) (b : Byte) :
    (selectRow c st b).rxKey = some (st, b) ∧ (selectRow c st b).wf = true ∧
      (selectRow c st b).admits c = true := by
  cases st with
  | csum1 => exact ⟨rfl, rfl, rfl⟩
  | esc | csum2 =>
    simp only [selectRow]
    split <;> simp_all [Instr.rxKey, Instr.wf, Instr.admits]
  | idle | char | ackWait =>
    simp only [selectRow]
    (repeat' split) <;> simp_all [Instr.rxKey, Instr.wf, Instr.admits, RxState.special]

/-- A well-formed row whose condition holds is the one selected for its state and byte (R102). -/
theorem selectRow_of_rxKey {c : RxCond} {i : Instr} {st : RxState} {b : Byte} (hkey : i.rxKey = some (st, b))
    (hwf : i.wf = true) (hadmits : i.admits c = true) : selectRow c st b = i := by
  cases i <;> cases hkey
  case rxIdleStart | rxIdleHalt | rxCharRestart | rxCharEnd | rxCharEscape | rxCsum1Capture | rxAckwAck
    | rxAckwNack | rxAckwStart => rfl
  case rxEscData | rxEscOverflow | rxCsum2Good | rxCsum2Bad => simp_all [selectRow, Instr.admits]
  case rxIdleIgnore | rxAckwIgnore => simp_all [selectRow, Instr.wf, RxState.special]
  case rxCharData | rxCharOverflow => simp_all [selectRow, Instr.wf, Instr.admits, RxState.special]

/-- What a receive key decodes to. -/
theorem decodeKey_eq_ok {c : RxCond} {bytes : List Byte} {i : Instr} (h : decodeKey c bytes = .ok i) :
    ∃ st b, bytes = [b, st.code] ∧ selectRow c st b = i := by
  unfold decodeKey at h
  split at h
  · split at h
    · next st hst => exact ⟨st, _, by rw [RxState.ofCode_eq_some.mp hst], Except.ok.inj h⟩
    · cases h
  · cases h

theorem decodeKey_code (c : RxCond) (st : RxState) (b : Byte) :
    decodeKey c [b, st.code] = .ok (selectRow c st b) := by
  simp only [decodeKey, RxState.ofCode_eq_some.mpr rfl]

/-! ### Named operations -/

/-- A named operation has no byte to exclude and no condition. -/
theorem wf_admits_of_message (c : RxCond) {i : Instr} (hkey : i.rxKey = none) :
    i.wf = true ∧ i.admits c = true := by
  cases i <;> simp_all [Instr.rxKey, Instr.wf, Instr.admits]

theorem Queue.ofCode_eq_ok {c : Byte} {q : Queue} : Queue.ofCode c = .ok q ↔ c = q.code := by
  constructor
  · intro h
    unfold Queue.ofCode at h
    (repeat' split at h) <;> cases h <;> assumption
  · rintro rfl
    cases q <;> rfl

/-- The operation is a named one and the bytes are its message. -/
def Instr.HasMessage (i : Instr) (bytes : List Byte) : Prop := i.rxKey = none ∧ encode i = bytes

theorem noOperands_hasMessage {sel : Byte} {i j : Instr} {ops : List Byte}
    (h : noOperands sel i ops = .ok j) (hi : i.HasMessage [sel]) : j.HasMessage (sel :: ops) := by
  unfold noOperands at h
  split at h <;> cases h
  exact hi

theorem oneByte_hasMessage {sel : Byte} {f : Byte → Instr} {j : Instr} {ops : List Byte}
    (h : oneByte sel f ops = .ok j) (hf : ∀ b, (f b).HasMessage [sel, b]) : j.HasMessage (sel :: ops) := by
  unfold oneByte at h
  split at h <;> cases h
  exact hf _

theorem oneQueue_hasMessage {sel : Byte} {f : Queue → Instr} {j : Instr} {ops : List Byte}
    (h : oneQueue sel f ops = .ok j) (hf : ∀ q, (f q).HasMessage [sel, q.code]) :
    j.HasMessage (sel :: ops) := by
  unfold oneQueue at h
  split at h
  · split at h <;> cases h
    next hq => exact Queue.ofCode_eq_ok.mp hq ▸ hf _
  · cases h

theorem queueAndByte_hasMessage {sel : Byte} {f : Queue → Byte → Instr} {j : Instr} {ops : List Byte}
    (h : queueAndByte sel f ops = .ok j) (hf : ∀ q b, (f q b).HasMessage [sel, q.code, b]) :
    j.HasMessage (sel :: ops) := by
  unfold queueAndByte at h
  split at h
  · split at h <;> cases h
    next hq => exact Queue.ofCode_eq_ok.mp hq ▸ hf _ _
  · cases h

/-- What a message decodes to: the named operation whose message it is (R103). -/
theorem decodeOp_hasMessage {bytes : List Byte} {i : Instr} (h : decodeOp bytes = .ok i) :
    i.HasMessage bytes := by
  cases bytes with
  | nil => cases h
  | cons sel ops =>
    have rest {j : Instr} (hj : Except.ok j = (.ok i : Except DecodeError Instr))
        (hm : j.HasMessage (sel :: ops)) : i.HasMessage (sel :: ops) := Except.ok.inj hj ▸ hm
    simp only [decodeOp] at h
    repeat' (rcases ite_eq_iff.mp h with ⟨rfl, h⟩ | ⟨-, h⟩)
    · exact rest h ⟨rfl, rfl⟩
    · exact oneByte_hasMessage h fun _ => ⟨rfl, rfl⟩
    · exact rest h ⟨rfl, rfl⟩
    · exact rest h ⟨rfl, rfl⟩
    · exact queueAndByte_hasMessage h fun _ _ => ⟨rfl, rfl⟩
    · exact oneQueue_hasMessage h fun _ => ⟨rfl, rfl⟩
    · exact oneQueue_hasMessage h fun _ => ⟨rfl, rfl⟩
    · exact rest h ⟨rfl, rfl⟩
    · exact noOperands_hasMessage h ⟨rfl, rfl⟩
    · exact noOperands_hasMessage h ⟨rfl, rfl⟩
    · exact noOperands_hasMessage h ⟨rfl, rfl⟩
    · exact rest h ⟨rfl, rfl⟩
    · exact rest h ⟨rfl, rfl⟩
    · exact rest h ⟨rfl, rfl⟩
    · exact noOperands_hasMessage h ⟨rfl, rfl⟩
    · exact noOperands_hasMessage h ⟨rfl, rfl⟩
    · exact noOperands_hasMessage h ⟨rfl, rfl⟩
    · exact noOperands_hasMessage h ⟨rfl, rfl⟩
    · exact noOperands_hasMessage h ⟨rfl, rfl⟩
    · exact noOperands_hasMessage h ⟨rfl, rfl⟩
    · cases h

/-- The message of a named operation decodes to it (R103). -/
theorem decodeOp_encode {i : Instr} (hkey : i.rxKey = none) : decodeOp (encode i) = .ok i := by
  cases i <;> cases hkey
  case fifoPush q _ => cases q <;> rfl
  case fifoPop q => cases q <;> rfl
  case fifoReset q => cases q <;> rfl
  all_goals rfl

/-! ### Both formats -/

/-- Settles O1: a receive row is the one selected for its own key, a named operation the one its selector names. -/
theorem decodeOfEncodeIsIdentity : Obligations.DecodeOfEncodeIsIdentity := by
  intro c i hwf hadmits
  cases hkey : i.rxKey with
  | some k =>
    obtain ⟨st, b⟩ := k
    rw [encode_of_rxKey hkey, Instr.format, hkey, decode, decodeKey_code, selectRow_of_rxKey hkey hwf hadmits]
  | none => rw [Instr.format, hkey, decode, decodeOp_encode hkey]

/-- Settles O2: bytes of a key are the encoding of the row selected, bytes of a message that of the operation read. -/
theorem decodedBytesHaveOneReading : Obligations.DecodedBytesHaveOneReading := by
  intro f c bytes i h
  cases f with
  | rxb =>
    obtain ⟨st, b, rfl, rfl⟩ := decodeKey_eq_ok h
    obtain ⟨hkey, hwf, hadmits⟩ := selectRow_sound c st b
    exact ⟨hwf, hadmits, by rw [Instr.format, hkey], encode_of_rxKey hkey⟩
  | op =>
    obtain ⟨hkey, hbytes⟩ := decodeOp_hasMessage h
    obtain ⟨hwf, hadmits⟩ := wf_admits_of_message c hkey
    exact ⟨hwf, hadmits, by rw [Instr.format, hkey], hbytes⟩

/-! ### Codes and words of the tables -/

/-- The state bits of a key whose second byte is 6 or 7. -/
theorem key_and_stateMask {code : Byte} (hcode : code = 0x06#8 ∨ code = 0x07#8) (b : Byte) :
    ((code.setWidth 11 <<< 8) ||| b.setWidth 11) &&& 0x700#11 = code.setWidth 3 ++ 0x00#8 := by
  have hmask : 0x700#11 = BitVec.allOnes 3 ++ 0x00#8 := by decide
  have hkey : (code.setWidth 11 <<< 8) ||| b.setWidth 11 = code.setWidth 3 ++ b := by
    simp only [BitVec.append_def, BitVec.shiftLeftZeroExtend_eq, BitVec.setWidth'_eq]
    rcases hcode with rfl | rfl <;> rfl
  rw [hmask, hkey, BitVec.and_append, BitVec.and_allOnes, BitVec.and_zero]

/-- Every row of the table asks for all three state bits, and none for the code 6 or 7 (R102). -/
theorem rxTable_stateBits : ∀ r ∈ rxTable, r.mask &&& 0x700#11 = 0x700#11 ∧
    r.value &&& 0x700#11 ≠ (0x06#8).setWidth 3 ++ 0x00#8 ∧ r.value &&& 0x700#11 ≠ (0x07#8).setWidth 3 ++ 0x00#8 := by
  decide

/-- Settles O4: a row that matched would have the key's state bits in its match value. -/
theorem codesSixAndSevenNameNoState : Obligations.CodesSixAndSevenNameNoState := by
  intro c b code hcode
  have hmiss : ∀ r ∈ rxTable, ¬ r.hits c ((code.setWidth 11 <<< 8) ||| b.setWidth 11) := by
    intro r hr hhit
    obtain ⟨hmask, hsix, hseven⟩ := rxTable_stateBits r hr
    obtain ⟨hvalue, -⟩ := Bool.and_eq_true_iff.mp hhit
    have hbits := key_and_stateMask hcode b
    rw [← hmask, ← BitVec.and_assoc, of_decide_eq_true hvalue] at hbits
    rcases hcode with rfl | rfl
    · exact hsix hbits
    · exact hseven hbits
  refine ⟨by rw [firstMatch, List.find?_eq_none.mpr hmiss], ?_⟩
  rcases hcode with rfl | rfl <;> rfl

/-- Settles O5: each of the nine words is decoded by evaluation. -/
theorem writtenOutWordsDecode : Obligations.WrittenOutWordsDecode := by
  unfold Obligations.WrittenOutWordsDecode
  decide

end Sys2Proof

/-! SUPPORT. The FIFO operations as operations: `FIFO.POP` and `FIFO.RESET` for either FIFO, the status values, and the
order in which bytes come out. -/

namespace Sys2Proof.Machine

/-! ### Pop and reset -/

/-- `FIFO.POP` of an empty FIFO gives none and changes nothing else (R181). -/
theorem exec_fifoPop_empty {q : Queue} {s : State} (hempty : (s.fifo q).head = (s.fifo q).tail) :
    exec (.fifoPop q) s = .next { s with popped := none } := by
  simp only [exec, execFifoPop, pop_empty hempty]

/-- `FIFO.POP` of any other FIFO gives the byte at its tail (R181). -/
theorem exec_fifoPop_some {q : Queue} {s : State} {b : Byte} (hne : (s.fifo q).head ≠ (s.fifo q).tail)
    (htail : (s.fifo q).tail < slots s.params q) (hread : (s.fifo q).mem.read (s.fifo q).tail = some b) :
    exec (.fifoPop q) s =
      .next { s.setFifo q { s.fifo q with tail := nextIndex (slots s.params q) (s.fifo q).tail } with
        popped := some b } := by
  simp only [exec, execFifoPop, pop_some hne htail hread]

/-- Settles O25: the two results of a pop, for each of the two FIFOs. -/
theorem fifoPopReadsAtTail : Obligations.FifoPopReadsAtTail := by
  intro s
  refine ⟨⟨?rxqEmpty, fun hne htail b hb => ?rxqSome⟩, ?txqEmpty, fun hne htail b hb => ?txqSome⟩
  case rxqEmpty => exact exec_fifoPop_empty (q := .rxq)
  case rxqSome => exact exec_fifoPop_some (q := .rxq) hne htail hb
  case txqEmpty => exact exec_fifoPop_empty (q := .txq)
  case txqSome => exact exec_fifoPop_some (q := .txq) hne htail hb

/-- Settles O26: a reset of a FIFO is that record update for each of the two. -/
theorem fifoResetEmpties : Obligations.FifoResetEmpties := fun _ => ⟨rfl, rfl⟩

/-! ### Status -/

/-- What a FIFO holds leaves one slot free (R183). -/
theorem Fifo.count_lt_cap {cap : Nat} {f : Fifo} (hhead : f.head < cap) (htail : f.tail < cap) :
    f.count cap < cap := by
  rw [Fifo.count_eq hhead htail]
  split <;> omega

/-- A FIFO is full exactly where one slot is free (R183). -/
theorem Fifo.isFull_iff {cap : Nat} {f : Fifo} (hhead : f.head < cap) (htail : f.tail < cap) :
    f.isFull cap = true ↔ f.count cap = cap - 1 := by
  have hlt := Fifo.count_lt_cap hhead htail
  constructor
  · intro hfull
    by_contra hne
    exact absurd (hfull.symm.trans (Fifo.not_full_of_count_lt hhead htail (by omega))) (by decide)
  · intro hcount
    by_contra hfull
    have := Fifo.count_lt_of_not_full hhead htail (Bool.eq_false_of_not_eq_true hfull)
    omega

/-- Settles O27: each status value in terms of the occupancy. -/
theorem fifoStatusAgrees : Obligations.FifoStatusAgrees := by
  intro cap f hhead htail
  refine ⟨Nat.le_sub_one_of_lt (Fifo.count_lt_cap hhead htail), ?_, Fifo.isFull_iff hhead htail⟩
  rw [Fifo.count_eq_zero hhead htail, Fifo.isEmpty_eq, decide_eq_true_iff]

/-! ### Order -/

/-- Settles O28: what an accepted push and a pop make of the contents. -/
theorem fifoKeepsOrder : Obligations.FifoKeepsOrder := by
  intro s t q hok
  refine ⟨fun b h haccepted => ?accepted, fun b h haccepted => ?rejected, fun h => ?popped⟩
  case accepted =>
    cases hfull : (s.fifo q).isFull (slots s.params q) with
    | true =>
      obtain rfl := next_inj ((exec_fifoPush_full b hfull).symm.trans h)
      cases haccepted
    | false =>
      obtain rfl := next_inj ((exec_fifoPush_room b hfull hok.head_lt).symm.trans h)
      cases q <;> exact Fifo.contents_pushed hok b hfull
  case rejected =>
    cases hfull : (s.fifo q).isFull (slots s.params q) with
    | true =>
      obtain rfl := next_inj ((exec_fifoPush_full b hfull).symm.trans h)
      cases q <;> rfl
    | false =>
      obtain rfl := next_inj ((exec_fifoPush_room b hfull hok.head_lt).symm.trans h)
      cases haccepted
  case popped =>
    by_cases hempty : (s.fifo q).head = (s.fifo q).tail
    · obtain rfl := next_inj ((exec_fifoPop_empty hempty).symm.trans h)
      have hnil := Fifo.contents_nil hok hempty
      exact .inl ⟨rfl, hnil, by cases q <;> exact hnil⟩
    · obtain ⟨b, hb⟩ := hok.oldest hempty
      obtain rfl := next_inj ((exec_fifoPop_some hempty hok.tail_lt hb).symm.trans h)
      refine .inr ⟨b, rfl, ?_⟩
      rw [Fifo.contents_popped hok hempty, hb]
      cases q <;> rfl

end Sys2Proof.Machine

/-! SUPPORT. The invariant of the state, kept by each effect an operation can have (`exec_effect`) and by what a fetch
changes (`step_cases`); and the operations that write a store, which under the invariant do not fault. -/

namespace Sys2Proof.Machine

/-! ### What keeps the invariant -/

/-- The inputs and the control fields of a run are not in the invariant. -/
theorem Fetching.inv {s t : State} (h : Fetching s t) (hs : s.Inv) : t.Inv := by
  obtain ⟨_, _, _, _, _, _, _, rfl⟩ := h
  exact { hs with }

theorem TxMoved.inv {s t : State} (h : TxMoved s t) (hs : s.Inv) : t.Inv := by
  obtain ⟨_, _, _, _, _, rfl, htxq, -⟩ := h
  exact { hs with txq_ok := htxq hs.txq_ok }

/-- `RESET_ALL` followed by a choice of the session keeps the invariant where a peer is a network session's. -/
theorem State.Inv.reset {s : State} (hs : s.Inv) {session : Session} {peer : Bool}
    (hpeer : peer = true → session = .net) :
    ({ resetAll s with session := session, peer := peer } : State).Inv :=
  { hs with
    rxSize_le := Nat.zero_le _
    rxq_ok := hs.rxq_ok.reset
    txq_ok := hs.txq_ok.reset
    pkt_written := fun _ hk => absurd hk (Nat.not_lt_zero _)
    dispatch_state := fun _ => .inl rfl
    peer_net := hpeer
    rxq_idle := fun _ => rfl }

/-- A transport error keeps the invariant (R213). -/
theorem State.Inv.sessionError {s : State} (hs : s.Inv) : (sessionError s).Inv := by
  unfold Machine.sessionError
  split
  case h_1 hstream => exact hs.reset fun hp => by simp [hs.peer_net hp] at hstream
  case h_2 => exact hs.reset (session := s.session) (peer := false) nofun
  case h_3 => exact hs.reset hs.peer_net

/-- The send of a packet, from the state with the framer armed. -/
theorem TxMoved.packet {s u v : State} (hmoved : TxMoved s u) (hsent : Sent { u with rxState := .ackWait } v) :
    Sent { s with rxState := .ackWait } v := by
  obtain ⟨f, fault, fr, ans, es, rfl, htxq, hes⟩ := hmoved
  exact .afterMove ⟨f, fault, fr, ans, es, rfl, htxq, hes⟩ hsent

theorem Sent.inv {s t : State} (h : Sent s t) (hs : s.Inv) : t.Inv := by
  rcases h with h | ⟨-, u, h, rfl⟩
  · exact h.inv hs
  · exact (h.inv hs).sessionError

/-- The framer may go to any state outside a dispatch, to `IDLE` and `ACK_WAIT` in one too. -/
theorem State.Inv.setRxState {s : State} (hs : s.Inv) {st : RxState}
    (hst : s.dispatchPending = true → st = .idle ∨ st = .ackWait) : ({ s with rxState := st } : State).Inv :=
  { hs with dispatch_state := hst }

/-- Writing at `rx_size` leaves every byte up to and with it written. -/
theorem State.Inv.written_write {s : State} (hs : s.Inv) (x : Byte) :
    ∀ k, k < s.rxSize + 1 → ((s.pkt.write s.rxSize x).read k).isSome = true := by
  intro k hk
  rw [Memory.read_write]
  split
  · rfl
  · exact hs.pkt_written k (by omega)

/-- Writing at `rx_size` stays inside the payload store. -/
theorem State.Inv.write_le {s : State} (hs : s.Inv) (x : Byte) :
    ∀ a b, (s.pkt.write s.rxSize x).read a = some b → a ≤ s.params.pktMax := by
  intro a b hread
  rw [Memory.read_write] at hread
  split at hread
  · next ha => exact ha ▸ hs.rxSize_le
  · exact hs.pkt_le a b hread

/-- A body byte stored outside a dispatch keeps the invariant where there is room (R127, R129). -/
theorem State.Inv.store {s : State} (hs : s.Inv) (hd : s.dispatchPending = false)
    (hroom : s.rxSize < s.params.pktMax) (c csum : Byte) :
    ({ s with pkt := s.pkt.write s.rxSize c, rxSize := s.rxSize + 1, rxCsum := csum, rxState := .char } : State).Inv :=
  { hs with
    rxSize_le := hroom
    pkt_wf := Memory.wf_write _ _ _ hs.pkt_wf
    pkt_le := hs.write_le c
    pkt_written := hs.written_write c
    dispatch_state := fun h => absurd (hd.symm.trans h) Bool.false_ne_true }

/-- The null behind the payload and the hand-over keep the invariant (R132). -/
theorem State.Inv.dispatch {s : State} (hs : s.Inv) (events : List Event) :
    ({ s with
      pkt := s.pkt.write s.rxSize 0x00#8, rxState := .idle, dispatchPending := true, events := events } : State).Inv :=
  { hs with
    pkt_wf := Memory.wf_write _ _ _ hs.pkt_wf
    pkt_le := hs.write_le _
    pkt_written := fun k hk => hs.written_write _ k (Nat.lt_succ_of_lt hk)
    dispatch_state := fun _ => .inl rfl }

/-- Every effect keeps the invariant; a push of `rxq` needs a network peer (R29). -/
theorem Effect.inv {s t : State} {i : Instr} (h : Effect s i t) (hs : s.Inv)
    (hpush : ∀ b, i = .fifoPush .rxq b → s.deliverable = true) : t.Inv := by
  have outside {st : RxState} (hd : s.dispatchPending = false) :
      s.dispatchPending = true → st = .idle ∨ st = .ackWait := fun h => absurd (hd.symm.trans h) Bool.false_ne_true
  cases h with
  | nothing => exact hs
  | startFrame _ _ hd =>
    exact { hs.setRxState (st := .char) (outside hd) with
      rxSize_le := Nat.zero_le _, pkt_written := fun _ hk => absurd hk (Nat.not_lt_zero _) }
  | halt => exact { hs with }
  | endBody _ hd => exact hs.setRxState (outside hd)
  | escape _ hd => exact { hs.setRxState (st := .esc) (outside hd) with }
  | store _ _ hd hroom => exact hs.store hd hroom _ _
  | capture _ hd => exact { hs.setRxState (st := .csum2) (outside hd) with }
  | ack hd => exact hs.setRxState fun _ => .inl rfl
  | nack hd => exact { hs.setRxState (st := .idle) fun _ => .inl rfl with }
  | reject _ _ _ hu => exact (hu.inv hs).setRxState fun _ => .inl rfl
  | accept _ _ hu => exact (hu.inv hs).dispatch _
  | acceptError _ _ ht => exact ht.inv hs
  | sendByte ht => exact ht.inv hs
  | sendPacket _ hu ht | commandFaultError _ hu ht => exact (hu.packet ht).inv (hs.setRxState fun _ => .inr rfl)
  | flush ht => exact ht.inv hs
  | push q hi hf =>
    cases q with
    | txq => exact { hs with txq_ok := hf hs.txq_ok }
    | rxq =>
      obtain ⟨b, rfl⟩ | ⟨_, hq, _⟩ := hi
      · exact { hs with
          rxq_ok := hf hs.rxq_ok, rxq_idle := fun h => absurd ((hpush b rfl).symm.trans h) nofun }
      · cases hq
  | deliver => exact { hs with }
  | pop q hf he =>
    cases q with
    | txq => exact { hs with txq_ok := hf hs.txq_ok }
    | rxq =>
      refine { hs with rxq_ok := hf hs.rxq_ok, rxq_idle := fun h => ?_ }
      exact (hs.rxq_idle h).trans (he (hs.rxq_idle h)).symm
  | resetFifo q =>
    cases q with
    | txq => exact { hs with txq_ok := hs.txq_ok.reset }
    | rxq => exact { hs with rxq_ok := hs.rxq_ok.reset, rxq_idle := fun _ => rfl }
  | poll => exact { hs with }
  | pollError reads =>
    have hreads : ({ s with beReads := reads } : State).Inv := { hs with }
    exact { hreads.sessionError with }
  | session _ _ hp =>
    refine hs.reset fun hpeer => ?_
    obtain hnet | ⟨hpeer, hinactive⟩ := hp hpeer
    · exact hnet
    · simp [hs.peer_net hpeer] at hinactive
  | error => exact hs.sessionError
  | complete => exact { hs with dispatch_state := nofun }
  | commandFault _ hu ht =>
    exact { (hu.packet ht).inv (hs.setRxState fun _ => .inr rfl) with dispatch_state := nofun }

/-- Settles O48: the fetch changes no field of the invariant, and what runs keeps it. A push of `rxq` is a turn of the
delivery context, which has a peer; the service context runs none. -/
theorem stepKeepsTheInvariant : Obligations.StepKeepsTheInvariant := by
  intro s t hs h
  obtain ⟨u, hu, rfl | ⟨i, hi, hwho⟩⟩ := step_cases h
  · exact hu.inv hs
  · refine (exec_effect hi).inv (hu.inv hs) fun b hb => ?_
    obtain ⟨hserved, -⟩ | ⟨-, -, hpeer⟩ := hwho
    · simp [hb, served] at hserved
    · exact hpeer b hb

/-! ### What does not fault -/

/-- An answer that is no fault. -/
def Safe (e : Answer) : Prop := ∀ f, e ≠ .fault f

theorem safe_next (t : State) : Safe (.next t) := nofun

theorem safe_refused (r : Refusal) : Safe (.refused r) := nofun

theorem safe_answer {r : Except Fault State} (h : ∃ t, r = .ok t) : Safe (answer r) := by
  obtain ⟨t, rfl⟩ := h
  exact safe_next t

theorem safe_ite {p : Prop} [Decidable p] {e e' : Answer} (he : Safe e) (he' : Safe e') :
    Safe (if p then e else e') := by
  split
  · exact he
  · exact he'

theorem safe_receive {i : Instr} {b : Byte} {s : State} {e : Answer} (he : Safe e) : Safe (receive i b s e) :=
  safe_ite (safe_refused _) (safe_ite he (safe_refused _))

theorem safe_whenLinked {s : State} {e : Answer} (he : Safe e) : Safe (whenLinked s e) :=
  safe_ite he (safe_refused _)

theorem safe_outsideDispatch {s : State} {e : Answer} (he : Safe e) : Safe (outsideDispatch s e) :=
  safe_ite (safe_refused _) he

theorem State.Inv.fifo_ok {s : State} (hs : s.Inv) (q : Queue) : Fifo.Ok (slots s.params q) (s.fifo q) := by
  cases q
  · exact hs.rxq_ok
  · exact hs.txq_ok

/-- Rejecting a frame does not fault. -/
theorem rejectFrame_ok {s : State} (hs : s.Inv) : ∃ t, rejectFrame s = .ok t := by
  obtain ⟨u, hu⟩ := sendByte_ok nakByte hs.txq_ok
  exact ⟨_, by rw [rejectFrame, hu]⟩

/-- Accepting a frame does not fault: after the send `rx_size` still points inside the store. -/
theorem acceptFrame_ok {s : State} (hs : s.Inv) : ∃ t, acceptFrame s = .ok t := by
  obtain ⟨u, hu⟩ := sendByte_ok ackByte hs.txq_ok
  have hsize := ((sendByte_sent hu).inv hs).rxSize_le
  cases hl : u.linked with
  | true => exact ⟨_, acceptFrame_of_send hu hl hsize⟩
  | false => exact ⟨_, acceptFrame_of_error hu hl⟩

/-- Taking a command fault (R139) ends in a state, not in a fault of the machine. -/
theorem commandFault_ok {s : State} (hs : s.Inv) : ∃ t, commandFault s = .ok t := by
  obtain ⟨u, hu⟩ := sendPacket_ok errorPayload hs.txq_ok
  cases hl : u.linked with
  | true => exact ⟨_, commandFault_of_send hu hl⟩
  | false => exact ⟨_, commandFault_of_error hu hl⟩

theorem safe_fifoPush {s : State} (hs : s.Inv) (q : Queue) (b : Byte) : Safe (exec (.fifoPush q b) s) := by
  cases hfull : (s.fifo q).isFull (slots s.params q) with
  | true => exact exec_fifoPush_full b hfull ▸ safe_next _
  | false => exact exec_fifoPush_room b hfull (hs.fifo_ok q).head_lt ▸ safe_next _

theorem safe_fifoPop {s : State} (hs : s.Inv) (q : Queue) : Safe (exec (.fifoPop q) s) := by
  by_cases hempty : (s.fifo q).head = (s.fifo q).tail
  · exact exec_fifoPop_empty hempty ▸ safe_next _
  · obtain ⟨b, hb⟩ := (hs.fifo_ok q).oldest hempty
    exact exec_fifoPop_some hempty (hs.fifo_ok q).tail_lt hb ▸ safe_next _

theorem safe_xportWrite {s : State} (hs : s.Inv) (bytes : List Byte) : Safe (exec (.xportWrite bytes) s) := by
  simp only [exec, execXportWrite]
  obtain ⟨n, t, ht⟩ := pushAll_ok bytes (hs.fifo_ok .txq)
  rw [ht]
  exact safe_ite (safe_next _) (safe_next _)

/-- Under the invariant no operation faults. -/
theorem exec_safe {s : State} (hs : s.Inv) (i : Instr) : Safe (exec i s) := by
  have reject {i b} : Safe (receive i b s (whenLinked s (answer (rejectFrame s)))) :=
    safe_receive (safe_whenLinked (safe_answer (rejectFrame_ok hs)))
  have store {i b c} : Safe (receive i b s (answer (storeByte c b s))) :=
    safe_receive (safe_answer ⟨_, storeByte_ok c b hs.rxSize_le⟩)
  have row {i b t} : Safe (receive i b s (.next t)) := safe_receive (safe_next t)
  cases i with
  | rxIdleStart | rxIdleHalt | rxIdleIgnore | rxCharRestart | rxCharEnd | rxCharEscape | rxCsum1Capture
  | rxAckwAck | rxAckwNack | rxAckwStart | rxAckwIgnore => exact row
  | rxCharData | rxEscData => exact store
  | rxCharOverflow | rxEscOverflow | rxCsum2Bad => exact reject
  | rxCsum2Good => exact safe_receive (safe_whenLinked (safe_answer (acceptFrame_ok hs)))
  | txSendPacket | txSendConsole => exact safe_whenLinked (safe_answer (sendPacket_ok _ hs.txq_ok))
  | txSendByte b => exact safe_whenLinked (safe_answer (sendByte_ok b hs.txq_ok))
  | txSendFmt => exact safe_refused _
  | fifoPush q b => exact safe_fifoPush hs q b
  | fifoPop q => exact safe_fifoPop hs q
  | fifoReset => exact safe_next _
  | xportWrite bytes => exact safe_xportWrite hs bytes
  | xportFlush => exact safe_answer (flush_ok hs.txq_ok)
  | xportPoll | xportService => exact safe_ite (safe_refused _) (safe_next _)
  | xportDeliver => exact safe_ite (safe_ite (safe_refused _) (safe_next _)) (safe_refused _)
  | sessionInitStream | sessionInitNet | sessionAccept =>
    exact safe_outsideDispatch (safe_ite (safe_next _) (safe_refused _))
  | sessionDeinit => exact safe_outsideDispatch (safe_next _)
  | sessionDisconnect =>
    exact safe_outsideDispatch (safe_ite (safe_ite (safe_next _) (safe_refused _)) (safe_refused _))
  | sessionError => exact safe_next _
  | dispatchOk => exact safe_ite (safe_next _) (safe_refused _)
  | dispatchFault => exact safe_ite (safe_whenLinked (safe_answer (commandFault_ok hs))) (safe_refused _)

/-- Settles O49: a fetch does not fault, and the operation it hands on runs in a state that meets the invariant. -/
theorem noStepFaults : Obligations.NoStepFaults := by
  intro s f hs
  unfold step
  split
  · next i t hfetch => exact exec_safe ((fetch_state (by rw [hfetch]; rfl)).inv hs) i f
  · exact safe_next _ f
  · exact safe_refused _ f

end Sys2Proof.Machine

/-! SUPPORT. What every effect of an operation leaves alone, and the claims about every operation and every step that
follow: one lemma per rule, over the effects of `exec_effect`. A fact written `(h :)` is one about the state before an
effect's last updates, of fields the rule does not mention. -/

namespace Sys2Proof.Machine

/-! ### Parameters, the transmit fault, the events -/

/-- The parameters stay, `tx_fault` is not cleared, and events are added, no `halt_req` among them. -/
def Grows (s t : State) : Prop :=
  t.params = s.params ∧ (s.txFault = true → t.txFault = true) ∧
    ∃ es, t.events = s.events ++ es ∧ Event.haltReq ∉ es

theorem Grows.refl (s : State) : Grows s s := ⟨rfl, id, [], by simp, by simp⟩

theorem Grows.trans {s t u : State} (h : Grows s t) (h' : Grows t u) : Grows s u := by
  obtain ⟨hp, hf, es, he, hn⟩ := h
  obtain ⟨hp', hf', es', he', hn'⟩ := h'
  exact ⟨hp'.trans hp, hf' ∘ hf, es ++ es', by rw [he', he, List.append_assoc], by simp [hn, hn']⟩

theorem Grows.emit (s : State) {es : List Event} (hes : Event.haltReq ∉ es) :
    Grows s { s with events := s.events ++ es } := ⟨rfl, id, es, rfl, hes⟩

theorem Sent.grows {s t : State} (h : Sent s t) : Grows s t := by
  obtain ⟨hp, -, -, -, -, hf, ⟨es, he, hwire⟩, -⟩ := h.kept
  refine ⟨hp, hf, es, he, fun hmem => ?_⟩
  obtain ⟨bs, hbs⟩ := hwire _ hmem
  cases hbs

theorem Fetching.grows {s t : State} (h : Fetching s t) : Grows s t := by
  obtain ⟨_, _, _, _, _, _, _, rfl⟩ := h
  exact (Grows.refl s :)

/-- A halt is requested by the control byte in `IDLE` (R122); every other effect only `Grows`. -/
theorem Effect.grows {s t : State} {i : Instr} (h : Effect s i t) :
    Grows s t ∨ (i = .rxIdleHalt ∧ s.rxState = .idle ∧ t = s.emit .haltReq) := by
  have self := Grows.refl s
  cases h with
  | halt hs => exact .inr ⟨rfl, hs, rfl⟩
  | nothing | startFrame | endBody | escape | store | capture | ack | deliver | poll | complete | session =>
    exact .inl self
  | nack => exact .inl (Grows.emit s (es := [.ackFail]) (by simp) :)
  | reject _ _ _ hu => exact .inl (hu.grows :)
  | accept _ _ hu => exact .inl (hu.grows.trans (.emit _ (es := [.dispatch _ _]) (by simp)) :)
  | acceptError _ _ ht | sendByte ht | flush ht => exact .inl ht.grows
  | sendPacket _ hu ht | commandFaultError _ hu ht => exact .inl ((hu.packet ht).grows :)
  | commandFault _ hu ht =>
    have hsent : Grows s _ := ((hu.packet ht).grows :)
    exact .inl (hsent.trans (.emit _ (es := [.targetListReset, .displayMsg]) (by simp)) :)
  | push q | pop q | resetFifo q => cases q <;> exact .inl self
  | pollError => exact .inl ⟨by simp, by simp, [], by simp, by simp⟩
  | error => exact .inl ⟨by simp, by simp, [], by simp, by simp⟩

/-- A step keeps the parameters and `tx_fault` and adds events. -/
theorem step_keeps {s t : State} (h : step s = .next t) :
    t.params = s.params ∧ (s.txFault = true → t.txFault = true) ∧ ∃ es, t.events = s.events ++ es := by
  have weaken {t : State} (h : Grows s t) :
      t.params = s.params ∧ (s.txFault = true → t.txFault = true) ∧ ∃ es, t.events = s.events ++ es := by
    obtain ⟨hp, hf, es, he, -⟩ := h
    exact ⟨hp, hf, es, he⟩
  obtain ⟨u, hu, rfl | ⟨i, hi, -⟩⟩ := step_cases h
  · exact weaken hu.grows
  · obtain hgrows | ⟨-, -, rfl⟩ := (exec_effect hi).grows
    · exact weaken (hu.grows.trans hgrows)
    · obtain ⟨hp, hf, es, he⟩ := weaken hu.grows
      exact ⟨hp, hf, es ++ [.haltReq], by rw [State.emit_events, he, List.append_assoc]⟩

/-- Settles O50: no fetch and no effect clears it. -/
theorem txFaultIsNeverCleared : Obligations.TxFaultIsNeverCleared := fun _ _ h => (step_keeps h).2.1

/-- Settles O51: no fetch and no effect does more to the events than add some. -/
theorem parametersFixedAndEventsKept : Obligations.ParametersFixedAndEventsKept := by
  intro s t h
  obtain ⟨hp, -, he⟩ := step_keeps h
  exact ⟨hp, he⟩

/-- Settles O54: the one effect that emits `halt_req` emits one, and is that of the control byte in `IDLE`. -/
theorem haltOnlyFromIdle : Obligations.HaltOnlyFromIdle := by
  intro i s t h
  obtain ⟨-, -, es, he, hn⟩ | ⟨hi, hs, rfl⟩ := (exec_effect h).grows
  · exact .inl (by simp [he, List.count_eq_zero.mpr hn])
  · exact .inr ⟨hi, hs, by simp⟩

/-! ### The framer's state -/

/-- What a reset of the block leaves (R214). -/
def Cleared (t : State) : Prop :=
  t.rxState = .idle ∧ t.rxSize = 0 ∧ t.rxCsum = 0x00#8 ∧ t.rxq.head = 0 ∧ t.rxq.tail = 0 ∧
    t.txq.head = 0 ∧ t.txq.tail = 0 ∧ t.flushReq = false

theorem sessionError_cleared (s : State) : Cleared (sessionError s) := by
  unfold sessionError
  split <;> exact ⟨rfl, rfl, rfl, rfl, rfl, rfl, rfl, rfl⟩

/-- A send or a flush leaves the framer alone or resets the block. -/
theorem Sent.framer {s t : State} (h : Sent s t) :
    (t.rxState = s.rxState ∧ t.rxSize = s.rxSize ∧ t.rxCsum = s.rxCsum) ∨ Cleared t := by
  rcases h with ⟨_, _, _, _, _, rfl, -⟩ | ⟨-, u, -, rfl⟩
  · exact .inl ⟨rfl, rfl, rfl⟩
  · exact .inr (sessionError_cleared u)

/-- Settles O52: of the effects that write `rx_state`, those of the three operations that send a packet write
`ACK_WAIT`. -/
theorem onlyPacketsArmAckWait : Obligations.OnlyPacketsArmAckWait := by
  intro i s t h hs ht
  have sent {t : State} (hsent : Sent s t) (ht : t.rxState = .ackWait) : False := by
    obtain ⟨hst, -, -⟩ | ⟨hidle, -⟩ := hsent.framer
    · exact hs (hst.symm.trans ht)
    · cases hidle.symm.trans ht
  have idle {st : RxState} (hidle : st = .idle) (ht : st = .ackWait) : False := by cases hidle.symm.trans ht
  cases exec_effect h with
  | sendPacket hi => exact hi.imp_right .inl
  | commandFault | commandFaultError => exact .inr (.inr rfl)
  | acceptError _ _ hu | sendByte hu | flush hu => exact (sent hu ht).elim
  | startFrame | endBody | escape | store | capture | ack | nack | reject | accept | session => cases ht
  | pollError reads => exact (idle (sessionError_cleared { s with beReads := reads }).1 ht).elim
  | error => exact (idle (sessionError_cleared s).1 ht).elim
  | nothing | halt | deliver | poll | complete => exact (hs ht).elim
  | push q | pop q | resetFifo q => cases q <;> exact (hs ht).elim

/-- Settles O53: in `ACK_WAIT` only that state's rows are selected, a send leaves the framer armed, and the effects
left that write `rx_state` reset the block. -/
theorem ackWaitEndsOnlyByItsBytesOrAReset : Obligations.AckWaitEndsOnlyByItsBytesOrAReset := by
  intro i s t h hs ht
  have sent {u v : State} (hu : u.rxState = .ackWait) (hsent : Sent u v) (hv : v.rxState ≠ .ackWait) :
      Cleared v := by
    obtain ⟨hst, -, -⟩ | hcleared := hsent.framer
    · exact absurd (hst.trans hu) hv
    · exact hcleared
  have reset (hcleared : Cleared t) : i = .rxAckwAck ∨ i = .rxAckwNack ∨ i = .rxAckwStart ∨ Cleared t :=
    .inr (.inr (.inr hcleared))
  have row {b : Byte} (hrow : s.rowFor b = i) :
      i = .rxAckwAck ∨ i = .rxAckwNack ∨ i = .rxAckwStart ∨ i = .rxAckwIgnore b := hrow ▸ rowFor_ackWait hs
  cases exec_effect h with
  | ack => exact .inl rfl
  | nack => exact .inr (.inl rfl)
  | startFrame hi hrow =>
    rcases hi with rfl | rfl | rfl
    · simpa using row hrow
    · simpa using row hrow
    · exact .inr (.inr (.inl rfl))
  | endBody hrow => simpa using row hrow
  | escape hrow => simpa using row hrow
  | capture hrow => simpa using row hrow
  | accept hrow => simpa using row hrow
  | acceptError hrow => simpa using row hrow
  | store hi hrow => rcases hi with rfl | rfl <;> simpa using row hrow
  | reject hi hrow => rcases hi with rfl | rfl | rfl <;> simpa using row hrow
  | sendByte hu | flush hu => exact reset (sent hs hu ht)
  | sendPacket _ _ hu | commandFaultError _ _ hu => exact reset (sent rfl hu ht)
  | @commandFault u v _ _ hu => exact reset (sent (v := v) rfl hu ht)
  | pollError reads => exact reset (sessionError_cleared { s with beReads := reads })
  | error => exact reset (sessionError_cleared s)
  | session => exact reset ⟨rfl, rfl, rfl, rfl, rfl, rfl, rfl, rfl⟩
  | nothing | halt | deliver | poll | complete => exact (ht hs).elim
  | push q | pop q | resetFifo q => cases q <;> exact (ht hs).elim

/-- Settles O57: of the effects that write `rx_size`, the start of a frame and a reset write 0, and `rx_csum` with
it. -/
theorem sizeAndChecksumResetTogether : Obligations.SizeAndChecksumResetTogether := by
  intro i s t h hs ht
  have sent {u v : State} (hsent : Sent u v) (hu : u.rxSize = s.rxSize) (hv : v.rxSize = 0) :
      v.rxCsum = 0x00#8 := by
    obtain ⟨-, hsize, -⟩ | ⟨-, -, hcsum, -⟩ := hsent.framer
    · exact absurd (hu.symm.trans (hsize.symm.trans hv)) hs
    · exact hcsum
  cases exec_effect h with
  | startFrame => rfl
  | session => rfl
  | store => cases ht
  | @reject _ _ u _ _ _ hu => exact sent (v := u) hu rfl ht
  | @accept _ u _ _ hu => exact sent (v := u) hu rfl ht
  | acceptError _ _ hu | sendByte hu | flush hu => exact sent hu rfl ht
  | sendPacket _ hmoved hu | commandFaultError _ hmoved hu => exact sent (hmoved.packet hu) rfl ht
  | @commandFault u v _ hmoved hu => exact sent (v := v) (hmoved.packet hu) rfl ht
  | pollError reads => exact (sessionError_cleared { s with beReads := reads }).2.2.1
  | error => exact (sessionError_cleared s).2.2.1
  | nothing | halt | endBody | escape | capture | ack | nack | deliver | poll | complete => exact (hs ht).elim
  | push q | pop q | resetFifo q => cases q <;> exact (hs ht).elim

/-! ### The payload during a dispatch -/

/-- The payload store stays, and its size too unless a transport error has left no backend linked. -/
def PayloadKept (s t : State) : Prop :=
  t.pkt = s.pkt ∧ (t.rxSize = s.rxSize ∨ (t.rxSize = 0 ∧ t.linked = false))

theorem Sent.payloadKept {s t : State} (h : Sent s t) : PayloadKept s t := by
  obtain ⟨-, hpkt, -, -, -, -, -, ⟨hsize, -⟩ | ⟨hsize, -, -, hlinked⟩⟩ := h.kept
  · exact ⟨hpkt, .inl hsize⟩
  · exact ⟨hpkt, .inr ⟨hsize, hlinked⟩⟩

/-- During a dispatch an effect keeps the payload: the receive rows, polls and session operations are refused there. -/
theorem Effect.payloadKept {s t : State} {i : Instr} (h : Effect s i t) (hpending : s.dispatchPending = true) :
    PayloadKept s t := by
  have self : PayloadKept s s := ⟨rfl, .inl rfl⟩
  have refused (hd : s.dispatchPending = false) : PayloadKept s t :=
    absurd (hd.symm.trans hpending) Bool.false_ne_true
  cases h with
  | startFrame _ _ hd | halt _ hd | endBody _ hd | escape _ hd | store _ _ hd | capture _ hd | ack hd | nack hd
  | reject _ _ hd | accept _ hd | acceptError _ hd | poll _ hd | pollError _ _ hd | session _ hd => exact refused hd
  | nothing | deliver | complete => exact self
  | push q | pop q | resetFifo q => cases q <;> exact self
  | sendByte ht | flush ht => exact ht.payloadKept
  | sendPacket _ hu ht | commandFaultError _ hu ht | commandFault _ hu ht => exact ((hu.packet ht).payloadKept :)
  | error => exact ⟨by simp, .inr ⟨by simp, sessionError_linked s⟩⟩

/-- Settles O56: the fetch touches neither `pkt` nor `rx_size`. -/
theorem payloadKeptDuringDispatch : Obligations.PayloadKeptDuringDispatch := by
  intro s t hpending h
  obtain ⟨u, ⟨_, _, _, _, _, _, _, rfl⟩, rfl | ⟨i, hi, -⟩⟩ := step_cases h
  · exact ⟨rfl, .inl rfl⟩
  · exact (exec_effect hi).payloadKept hpending

/-! ### Who writes a store -/

/-- The payload store, the store of `rxq` and `rx_c1` have no writers but these. -/
def StoreWriters (i : Instr) (s t : State) : Prop :=
  (t.pkt ≠ s.pkt → ∃ b, i = .rxCharData b ∨ i = .rxEscData b ∨ i = .rxCsum2Good b) ∧
  (t.rxq.mem ≠ s.rxq.mem → ∃ b, i = .fifoPush .rxq b) ∧
  (t.rxC1 ≠ s.rxC1 → ∃ b, i = .rxCsum1Capture b)

theorem storeWriters_of_eq {i : Instr} {s t : State} (hpkt : t.pkt = s.pkt) (hmem : t.rxq.mem = s.rxq.mem)
    (hc1 : t.rxC1 = s.rxC1) : StoreWriters i s t :=
  ⟨fun h => absurd hpkt h, fun h => absurd hmem h, fun h => absurd hc1 h⟩

theorem Sent.stores {s t : State} (h : Sent s t) : t.pkt = s.pkt ∧ t.rxq.mem = s.rxq.mem ∧ t.rxC1 = s.rxC1 := by
  obtain ⟨-, hpkt, hc1, hmem, -⟩ := h.kept
  exact ⟨hpkt, hmem, hc1⟩

theorem Effect.storeWriters {s t : State} {i : Instr} (h : Effect s i t) : StoreWriters i s t := by
  have self {i : Instr} : StoreWriters i s s := storeWriters_of_eq rfl rfl rfl
  have sent {i : Instr} {s u : State} (hu : Sent s u) : StoreWriters i s u :=
    storeWriters_of_eq hu.stores.1 hu.stores.2.1 hu.stores.2.2
  cases h with
  | nothing | startFrame | halt | endBody | escape | ack | nack | deliver | poll | session | complete => exact self
  | @store _ _ b hi =>
    exact ⟨fun _ => ⟨b, hi.imp_right .inl⟩, (absurd rfl ·), (absurd rfl ·)⟩
  | @capture b => exact ⟨(absurd rfl ·), (absurd rfl ·), fun _ => ⟨b, rfl⟩⟩
  | reject _ _ _ hu => exact (sent hu :)
  | @accept b _ _ _ hu => exact ⟨fun _ => ⟨b, .inr (.inr rfl)⟩, (sent hu).2⟩
  | acceptError _ _ ht | sendByte ht | flush ht => exact sent ht
  | sendPacket _ hu ht | commandFaultError _ hu ht | commandFault _ hu ht => exact (sent (hu.packet ht) :)
  | push q hi =>
    cases q with
    | txq => exact self
    | rxq =>
      refine ⟨(absurd rfl ·), fun _ => ?_, (absurd rfl ·)⟩
      obtain hpush | ⟨_, hq, _⟩ := hi
      · exact hpush
      · cases hq
  | pop q | resetFifo q => cases q <;> exact self
  | pollError | error => exact storeWriters_of_eq (by simp) (by simp) (by simp)

/-- The operations that write the store of `txq`. -/
def WritesTxq (i : Instr) : Prop :=
  (∃ b, i = .fifoPush .txq b ∨ i = .txSendByte b ∨
    i = .rxCharOverflow b ∨ i = .rxEscOverflow b ∨ i = .rxCsum2Good b ∨ i = .rxCsum2Bad b) ∨
  (∃ bytes, i = .xportWrite bytes ∨ i = .txSendPacket bytes ∨ i = .txSendConsole bytes) ∨
  i = .dispatchFault

theorem Effect.txq_mem {s t : State} {i : Instr} (h : Effect s i t) (hflush : i ≠ .xportFlush) :
    t.txq.mem = s.txq.mem ∨ WritesTxq i := by
  cases h with
  | nothing | startFrame | halt | endBody | escape | store | capture | ack | nack | deliver | poll | session
  | complete => exact .inl rfl
  | @reject _ b _ hi =>
    refine .inr (.inl ⟨b, ?_⟩)
    rcases hi with rfl | rfl | rfl <;> simp
  | @accept b => exact .inr (.inl ⟨b, by simp⟩)
  | @acceptError b => exact .inr (.inl ⟨b, by simp⟩)
  | @sendByte b => exact .inr (.inl ⟨b, by simp⟩)
  | sendPacket hi =>
    refine .inr (.inr (.inl ?_))
    rcases hi with ⟨p, rfl⟩ | ⟨c, rfl⟩
    · exact ⟨p, by simp⟩
    · exact ⟨c, by simp⟩
  | commandFault | commandFaultError => exact .inr (.inr (.inr rfl))
  | flush => exact absurd rfl hflush
  | push q hi =>
    cases q with
    | rxq => exact .inl rfl
    | txq =>
      rcases hi with ⟨b, rfl⟩ | ⟨bs, -, rfl⟩
      · exact .inr (.inl ⟨b, .inl rfl⟩)
      · exact .inr (.inr (.inl ⟨bs, .inl rfl⟩))
  | pop q | resetFifo q => cases q <;> exact .inl rfl
  | pollError | error => exact .inl (by simp)

theorem exec_txq_mem {s t : State} {i : Instr} (h : exec i s = .next t) : t.txq.mem = s.txq.mem ∨ WritesTxq i := by
  by_cases hflush : i = .xportFlush
  · subst hflush
    exact .inl (flush_txq_mem (answer_next h))
  · exact (exec_effect h).txq_mem hflush

/-- `rxq.head` stays, or the FIFO is reset. -/
def RxqHeadKept (s t : State) : Prop := t.rxq.head = s.rxq.head ∨ (t.rxq.head = 0 ∧ t.rxq.tail = 0)

theorem Sent.rxqHeadKept {s t : State} (h : Sent s t) : RxqHeadKept s t := by
  rcases h with ⟨_, _, _, _, _, rfl, -⟩ | ⟨-, u, -, rfl⟩
  · exact .inl rfl
  · exact .inr (by simp)

/-- An operation of the service context does not move `rxq.head` but to reset it (R187). -/
theorem Effect.rxqHeadKept {s t : State} {i : Instr} (h : Effect s i t) (hserved : served i = true) :
    RxqHeadKept s t := by
  have self : RxqHeadKept s s := .inl rfl
  cases h with
  | nothing | startFrame | halt | endBody | escape | store | capture | ack | nack | deliver | poll | complete =>
    exact self
  | session => exact .inr ⟨rfl, rfl⟩
  | pollError | error => exact .inr (by simp)
  | reject _ _ _ hu | accept _ _ hu => exact (hu.rxqHeadKept :)
  | acceptError _ _ ht | sendByte ht | flush ht => exact ht.rxqHeadKept
  | sendPacket _ hu ht | commandFaultError _ hu ht | commandFault _ hu ht => exact ((hu.packet ht).rxqHeadKept :)
  | push q hi =>
    cases q with
    | txq => exact self
    | rxq =>
      rcases hi with ⟨b, rfl⟩ | ⟨_, hq, _⟩
      · cases hserved
      · cases hq
  | pop q => cases q <;> exact .inl rfl
  | resetFifo => cases hserved

/-- What the delivery context runs leaves `rxq.tail` (R69). -/
theorem exec_rxq_tail {s t : State} {i : Instr} (hi : Delivers i) (h : exec i s = .next t) :
    t.rxq.tail = s.rxq.tail := by
  rcases hi with ⟨b, rfl⟩ | ⟨bytes, rfl⟩
  · simp only [exec, execFifoPush] at h
    split at h
    · next r u hpush =>
      obtain rfl := next_inj h
      rcases push_cases hpush with ⟨-, -, rfl⟩ | ⟨-, -, -, rfl⟩ <;> rfl
    · cases h
  · simp only [exec, execXportDeliver] at h
    (repeat' split at h) <;> cases h
    rfl

/-- Settles O55: the writers among the operations, and of a step what its context runs. -/
theorem storesHaveTheirWriters : Obligations.StoresHaveTheirWriters := by
  refine ⟨fun i s t h => ?operations, fun s t h => ?steps⟩
  case operations =>
    obtain ⟨hpkt, hrxq, hc1⟩ := (exec_effect h).storeWriters
    exact ⟨hpkt, hrxq, fun hne => (exec_txq_mem h).resolve_left hne, hc1⟩
  case steps =>
    obtain ⟨u, ⟨_, _, _, _, _, _, _, rfl⟩, rfl | ⟨i, hi, hwho⟩⟩ := step_cases h
    · exact ⟨fun _ => ⟨rfl, .inl rfl⟩, fun _ => rfl⟩
    · obtain ⟨hserved, hturn⟩ | ⟨hdelivers, hturn, -⟩ := hwho
      · refine ⟨fun _ => ⟨?_, (exec_effect hi).rxqHeadKept hserved⟩, fun h => absurd h hturn⟩
        by_contra hne
        obtain ⟨b, rfl⟩ := (exec_effect hi).storeWriters.2.1 hne
        cases hserved
      · exact ⟨fun h => absurd hturn h, fun _ => (exec_rxq_tail hdelivers hi :)⟩

end Sys2Proof.Machine

/-! SUPPORT. The wire format (30_encoding.md): the digits of a checksum, and the bytes of a packet. -/

namespace Sys2Proof.Machine

/-! ### Hex digits -/

/-- The three ranges of hex digits (R95). -/
theorem hexVal_eq_some {c : Byte} {n : Nat} : hexVal c = some n ↔
    (0x30 ≤ c.toNat ∧ c.toNat ≤ 0x39 ∧ c.toNat = 0x30 + n) ∨
    (0x61 ≤ c.toNat ∧ c.toNat ≤ 0x66 ∧ c.toNat = 0x61 - 10 + n) ∨
    (0x41 ≤ c.toNat ∧ c.toNat ≤ 0x46 ∧ c.toNat = 0x41 - 10 + n) := by
  unfold hexVal
  simp only [Config.hexAcceptUpper, true_and]
  split
  · simp only [Option.some.injEq]; omega
  · split
    · simp only [Option.some.injEq]; omega
    · split
      · simp only [Option.some.injEq]; omega
      · simp only [reduceCtorEq, false_iff]; omega

/-- A rendered digit has its value (R94, R95). -/
theorem hexVal_hexDigit {n : Nat} (h : n < 16) : hexVal (hexDigit n) = some n := by
  have all : ∀ n < 16, hexVal (hexDigit n) = some n := by decide
  exact all n h

theorem csumOk_eq_true {c1 b csum : Byte} :
    csumOk c1 b csum = true ↔
      ∃ high low, hexVal c1 = some high ∧ hexVal b = some low ∧ high * 16 + low = csum.toNat := by
  unfold csumOk
  cases hexVal c1 <;> cases hexVal b <;> simp

/-- The two digits a checksum is rendered in spell it (R94). -/
theorem csumOk_hexDigits (c : Byte) : csumOk (hexDigit (c.toNat / 16)) (hexDigit (c.toNat % 16)) c = true :=
  csumOk_eq_true.mpr ⟨_, _, hexVal_hexDigit (by omega), hexVal_hexDigit (by omega), Nat.div_add_mod' _ _⟩

/-- Settles O16: the digits are those `hexVal` has a value for. -/
theorem checksumDigits : Obligations.ChecksumDigits := by
  intro digit hdigit
  have hval c n : digit c n ↔ hexVal c = some n := (hdigit c n).trans hexVal_eq_some.symm
  simp only [hval]
  exact ⟨fun _ _ _ => csumOk_eq_true, csumOk_hexDigits⟩

/-! ### The bytes of a packet -/

theorem packetBody_eq_flatMap (p : List Byte) : packetBody p = p.flatMap escapeByte := by
  induction p with
  | nil => rfl
  | cons c p ih => rw [packetBody, ih, List.flatMap_cons]

theorem consoleHex_eq_flatMap (p : List Byte) : consoleHex p = p.flatMap hexPair := by
  induction p with
  | nil => rfl
  | cons c p ih => rw [consoleHex, ih, List.flatMap_cons]

/-- The checksum as a running sum (R93). -/
theorem foldl_add_eq_checksum (bs : List Byte) (a : Byte) : bs.foldl (· + ·) a = a + checksum bs := by
  induction bs generalizing a with
  | nil => simp [checksum]
  | cons b bs ih => rw [List.foldl_cons, ih, checksum, BitVec.add_assoc]

theorem escapeByte_eq (c : Byte) :
    escapeByte c = if c = 0x24#8 ∨ c = 0x23#8 ∨ c = 0x7D#8 then [0x7D#8, c ^^^ 0x20#8] else [c] := by
  simp only [escapeByte, needsEscape, decide_eq_true_eq, escapeXor]

/-- The sixteen digits, written out (R94). -/
def hexDigits : List Byte :=
  [0x30#8, 0x31#8, 0x32#8, 0x33#8, 0x34#8, 0x35#8, 0x36#8, 0x37#8, 0x38#8, 0x39#8,
    0x61#8, 0x62#8, 0x63#8, 0x64#8, 0x65#8, 0x66#8]

theorem hexDigit_eq_getD {n : Nat} (h : n < 16) : hexDigit n = hexDigits.getD n 0x00#8 := by
  have all : ∀ n < 16, hexDigit n = hexDigits.getD n 0x00#8 := by decide
  exact all n h

theorem hexPair_eq_getD (c : Byte) :
    hexPair c = [hexDigits.getD (c.toNat / 16) 0x00#8, hexDigits.getD (c.toNat % 16) 0x00#8] := by
  rw [hexPair, hexDigit_eq_getD (by omega), hexDigit_eq_getD (by omega)]

/-- Settles O20: the encoder's body, sum and digits are those written out. -/
theorem packetFormat : Obligations.PacketFormat := by
  rintro p digits body hdigits rfl
  obtain rfl : digits = hexDigits := hdigits
  have hbody : packetBody p =
      p.flatMap fun c => if c = 0x24#8 ∨ c = 0x23#8 ∨ c = 0x7D#8 then [0x7D#8, c ^^^ 0x20#8] else [c] := by
    rw [packetBody_eq_flatMap]
    exact List.flatMap_congr fun c _ => escapeByte_eq c
  rw [← hbody, foldl_add_eq_checksum, BitVec.zero_add, ← hexPair_eq_getD]
  constructor
  · simp [packetBytes]
  · rw [consolePayload, consoleHex_eq_flatMap, funext hexPair_eq_getD]
    rfl

theorem length_escapeByte (c : Byte) : (escapeByte c).length = if needsEscape c then 2 else 1 := by
  unfold escapeByte
  split <;> rfl

theorem length_packetBody (p : List Byte) : (packetBody p).length = p.length + (p.filter needsEscape).length := by
  induction p with
  | nil => rfl
  | cons c p ih =>
    rw [packetBody, List.length_append, length_escapeByte, ih, List.length_cons, List.filter_cons]
    split
    · rw [List.length_cons]; omega
    · omega

theorem length_packetBytes (p : List Byte) : (packetBytes p).length = (packetBody p).length + 4 := by
  simp [packetBytes, hexPair]

/-- Neither `$` nor `#` stands for a payload byte: escaped, the three special bytes become others (R92). -/
theorem escapeByte_no_delimiter (c : Byte) : ∀ b ∈ escapeByte c, b ≠ 0x24#8 ∧ b ≠ 0x23#8 := by
  rw [escapeByte_eq]
  split
  · next hc => rcases hc with rfl | rfl | rfl <;> decide
  · next hc => simp_all

theorem packetBody_no_delimiter (p : List Byte) : ∀ b ∈ packetBody p, b ≠ 0x24#8 ∧ b ≠ 0x23#8 := by
  rw [packetBody_eq_flatMap]
  intro b hb
  obtain ⟨c, -, hb⟩ := List.mem_flatMap.mp hb
  exact escapeByte_no_delimiter c b hb

/-- Settles O22: an escaped byte takes one byte more, and no byte of the body is a delimiter. -/
theorem packetLengthAndBody : Obligations.PacketLengthAndBody := by
  intro p
  refine ⟨?_, fun h => (packetBody_no_delimiter p _ h).1 rfl, fun h => (packetBody_no_delimiter p _ h).2 rfl⟩
  rw [length_packetBytes, length_packetBody]
  omega

end Sys2Proof.Machine

/-! SUPPORT. What a send answers (41_tx_encoder.md R160 to R166): the bytes offered, then the flush request by the
occupancy they leave. -/

namespace Sys2Proof.Machine

/-! ### The flush request -/

/-- Below `TX_NEAR_FULL` a flush is left to the service pass (R165). -/
theorem requestFlush_below {s : State} (h : s.txq.count s.params.txCap < s.params.txNearFull) :
    requestFlush s = .ok { s with flushReq := true } := by
  simp [requestFlush, State.nearFull, h]

/-- From `TX_NEAR_FULL` on it is carried out at once (R165). -/
theorem requestFlush_nearFull {s : State} (h : s.params.txNearFull ≤ s.txq.count s.params.txCap) :
    requestFlush s = flush s := by
  simp [requestFlush, State.nearFull, h]

theorem whenLinked_linked {s : State} (hl : s.linked = true) (e : Answer) : whenLinked s e = e := if_pos hl

/-! ### A byte -/

theorem State.offered_room {s : State} (b : Byte) (h : s.txq.isFull s.params.txCap = false) :
    s.offered b = { s with txq := s.txq.pushed s.params.txCap b } := by
  simp [State.offered, h]

/-- The send of a byte offers it and requests a flush (R161). -/
theorem sendByte_eq (b : Byte) {s : State} (h : s.txq.head < s.params.txCap) :
    sendByte b s = requestFlush (s.offered b) := by
  rw [sendByte, put_ok h]

theorem exec_txSendByte (b : Byte) {s : State} (hl : s.linked = true) :
    exec (.txSendByte b) s = answer (sendByte b s) := whenLinked_linked hl _

/-- The send of a byte where it neither overflows nor forces a flush. -/
theorem sendByte_room {b : Byte} {s : State} (hhead : s.txq.head < s.params.txCap)
    (hroom : s.txq.isFull s.params.txCap = false)
    (hbelow : (s.txq.pushed s.params.txCap b).count s.params.txCap < s.params.txNearFull) :
    sendByte b s = .ok { s with txq := s.txq.pushed s.params.txCap b, flushReq := true } := by
  rw [sendByte_eq b hhead, State.offered_room b hroom, requestFlush_below hbelow]

/-- Settles O17: the two branches of the flush request after the byte is offered. -/
theorem sendBytePushesAndRequestsFlush : Obligations.SendBytePushesAndRequestsFlush := by
  rintro s b hl hhead t rfl
  rw [exec_txSendByte b hl, sendByte_eq b hhead]
  refine ⟨fun hbelow => ?_, fun hnear => ?_⟩
  · rw [requestFlush_below hbelow, answer]
  · rw [requestFlush_nearFull hnear]
    rfl

/-! ### A packet -/

/-- The state after each byte of a packet is offered in turn and `ACK_WAIT` is armed (R160, R166). -/
def State.offeredPacket (s : State) (p : List Byte) : State :=
  { (packetBytes p).foldl (fun u b => u.offered b) s with rxState := .ackWait }

/-- The send of a packet offers its bytes, arms `ACK_WAIT` and requests a flush (R160). -/
theorem sendPacket_eq (p : List Byte) {s : State} (h : s.txq.head < s.params.txCap) :
    sendPacket p s = requestFlush (s.offeredPacket p) := by
  rw [sendPacket, putAll_ok _ h]
  rfl

/-- With a backend linked, `TX.SEND_PACKET` and `TX.SEND_CONSOLE` send a packet (R160, R163). -/
theorem exec_sendsPacket {i : Instr} {p : List Byte} {s : State}
    (hi : i = .txSendPacket p ∨ ∃ c, i = .txSendConsole c ∧ p = consolePayload c) (hl : s.linked = true) :
    exec i s = answer (sendPacket p s) := by
  obtain rfl | ⟨c, rfl, rfl⟩ := hi <;> exact whenLinked_linked hl _

/-- Settles O18: the two branches of the flush request after the packet is offered. -/
theorem sendPacketOffersTheFrame : Obligations.SendPacketOffersTheFrame := by
  intro s i p hi hl hok t ht
  obtain rfl : t = s.offeredPacket p := ht
  rw [exec_sendsPacket hi hl, sendPacket_eq p hok.head_lt]
  refine ⟨fun hbelow => ?_, fun hnear => ?_⟩
  · rw [requestFlush_below hbelow, answer]
  · rw [requestFlush_nearFull hnear]
    rfl

/-- The send of a packet where it neither overflows nor forces a flush. -/
theorem sendPacket_room {p : List Byte} {s : State} (hfits : s.txq.fits s.params.txCap (packetBytes p).length)
    (hbelow : s.txq.count s.params.txCap + (packetBytes p).length < s.params.txNearFull) :
    sendPacket p s = .ok { s with
      txq := s.txq.pushedAll s.params.txCap (packetBytes p), rxState := .ackWait, flushReq := true } := by
  obtain ⟨hall, hcount, -⟩ := offeredAll_fits (packetBytes p) hfits
  rw [sendPacket_eq p hfits.1.head_lt, State.offeredPacket, hall]
  exact requestFlush_below (hcount ▸ hbelow)

/-- Settles O19: both operations send a packet. -/
theorem sendPacketWithRoomCompletes : Obligations.SendPacketWithRoomCompletes := by
  intro s p hl
  refine ⟨fun hfits hbelow => ?_, fun hfits hbelow => ?_⟩
  · rw [exec_sendsPacket (.inl rfl) hl, sendPacket_room hfits hbelow, answer]
  · rw [exec_sendsPacket (.inr ⟨p, rfl, rfl⟩) hl, sendPacket_room hfits hbelow, answer]

theorem TxMoved.txFault {s t : State} (h : TxMoved s t) (hs : s.txFault = true) : t.txFault = true := by
  obtain ⟨_, _, _, _, _, rfl, -⟩ := h
  simp [hs]

/-- More bytes than there is room for raise `tx_fault` (R164). -/
theorem offeredAll_overflow (bs : List Byte) {s : State} (hok : Fifo.Ok s.params.txCap s.txq)
    (hover : s.params.txCap - 1 < s.txq.count s.params.txCap + bs.length) :
    (bs.foldl (fun u b => u.offered b) s).txFault = true := by
  induction bs generalizing s with
  | nil =>
    have := Fifo.count_lt_cap hok.head_lt hok.tail_lt
    simp only [List.length_nil] at hover
    omega
  | cons b bs ih =>
    rw [List.foldl_cons]
    cases hfull : s.txq.isFull s.params.txCap with
    | true => exact (offeredAll_moved bs _).txFault (by simp [State.offered, hfull])
    | false =>
      rw [State.offered_room b hfull]
      have hcount := Fifo.count_pushed b hok.head_lt hok.tail_lt hfull
      rw [List.length_cons] at hover
      exact ih (hok.pushed b hfull) (by simp only [hcount]; omega)

/-- Settles O21: the flush request ends the step and clears no fault. -/
theorem packetWithoutRoomRaisesTxFault : Obligations.PacketWithoutRoomRaisesTxFault := by
  intro s p hl hok hover
  obtain ⟨t, ht⟩ := sendPacket_ok p hok
  refine ⟨t, by rw [exec_sendsPacket (.inl rfl) hl, ht, answer], ?_⟩
  rw [sendPacket_eq p hok.head_lt] at ht
  obtain ⟨-, -, -, -, -, hfault, -⟩ := (requestFlush_sent ht).kept
  exact hfault (offeredAll_overflow _ hok hover)

/-! ### The error packet -/

theorem exec_dispatchFault {s : State} (hpending : s.dispatchPending = true) (hl : s.linked = true) :
    exec .dispatchFault s = answer (commandFault s) := by
  simp only [exec, execDispatchFault, hpending, if_true, whenLinked_linked hl]

theorem packetBytes_errorPayload :
    packetBytes errorPayload = [0x24#8, 0x45#8, 0x46#8, 0x46#8, 0x23#8, 0x64#8, 0x31#8] := by decide

/-- Settles O44: what follows the send depends on whether it left a backend linked. -/
theorem dispatchFaultSendsTheErrorPacket : Obligations.DispatchFaultSendsTheErrorPacket := by
  intro s hpending
  refine ⟨fun t ht => ?_, fun hl hfits hbelow => ?_⟩
  · obtain ⟨hl, hsend⟩ := whenLinked_next ht
    have hsend : sendPacket errorPayload s = .ok t := answer_next hsend
    rw [exec_dispatchFault hpending hl]
    refine ⟨fun ht => ?_, fun ht => ?_⟩
    · rw [commandFault_of_send hsend ht, answer]
    · rw [commandFault_of_error hsend ht, answer]
  · have hsend := sendPacket_room (p := errorPayload) (s := s)
    rw [packetBytes_errorPayload] at hsend
    rw [exec_dispatchFault hpending hl, commandFault_of_send (hsend hfits hbelow) hl, answer]

end Sys2Proof.Machine

/-! SUPPORT. The other receive rows: the row a byte selects in each state, what it does where nothing is sent, and the
rows that answer with `+` or `-` (40_rx_framer.md R124 to R137). -/

namespace Sys2Proof.Machine

/-! ### The selected row -/

theorem State.rowFor_csum1 {s : State} (hst : s.rxState = .csum1) (b : Byte) :
    s.rowFor b = .rxCsum1Capture b := by
  rw [State.rowFor, hst, selectRow]

theorem State.rowFor_csum2 {s : State} (hst : s.rxState = .csum2) (b : Byte) :
    s.rowFor b = if csumOk s.rxC1 b s.rxCsum then .rxCsum2Good b else .rxCsum2Bad b := by
  rw [State.rowFor, hst, selectRow]
  rfl

theorem State.rowFor_ackWait {s : State} (hst : s.rxState = .ackWait) (b : Byte) :
    s.rowFor b =
      if b = 0x2B#8 then .rxAckwAck else if b = 0x2D#8 then .rxAckwNack
      else if b = 0x24#8 then .rxAckwStart else .rxAckwIgnore b := by
  rw [State.rowFor, hst, selectRow]

/-! ### Rows that send nothing -/

/-- Settles O7: the three bytes select the three rows before the store is asked for room. -/
theorem charDelimiterRows : Obligations.CharDelimiterRows := by
  intro s hd hst
  have hsel := State.rowFor_char hst
  refine ⟨?restart, ?finish, ?escape⟩
  case restart => exact receive_selected hd (hsel 0x24#8)
  case finish => exact receive_selected hd (hsel 0x23#8)
  case escape => exact receive_selected hd (hsel 0x7D#8)

/-- Settles O10: `CSUM1` has one row. -/
theorem csum1KeepsTheCharacter : Obligations.Csum1KeepsTheCharacter :=
  fun _ b hd hst => receive_selected hd (State.rowFor_csum1 hst b)

/-- Settles O11: each of the three bytes selects the row of its name. -/
theorem ackWaitRows : Obligations.AckWaitRows := by
  intro s hd hst
  have hsel := State.rowFor_ackWait hst
  refine ⟨?ack, ?nack, ?start⟩
  case ack => exact receive_selected hd (hsel 0x2B#8)
  case nack => exact receive_selected hd (hsel 0x2D#8)
  case start => exact receive_selected hd (hsel 0x24#8)

/-- Settles O12: any other byte selects the row whose effect is the state itself. -/
theorem ackWaitIgnoresOtherBytes : Obligations.AckWaitIgnoresOtherBytes := by
  intro s b hd hst hack hnack hstart
  exact receive_selected hd (by rw [State.rowFor_ackWait hst, if_neg hack, if_neg hnack, if_neg hstart])

/-! ### Rows that reject -/

/-- Rejecting a frame is the send of `-` followed by `IDLE`, whatever the send answers (R255). -/
theorem rejectFrame_answer (s : State) :
    whenLinked s (answer (rejectFrame s)) =
      mapNext (fun t => { t with rxState := .idle }) (exec (.txSendByte 0x2D#8) s) := by
  change _ = mapNext _ (whenLinked s (answer (sendByte nakByte s)))
  unfold whenLinked rejectFrame
  split
  · cases sendByte nakByte s <;> rfl
  · rfl

/-- The states and bytes of the three rejecting rows (R128, R130, R133). -/
structure Rejects (s : State) (b : Byte) (row : Instr) : Prop where
  outside : s.dispatchPending = false
  selected : s.rowFor b = row
  rejecting : row = .rxCharOverflow b ∨ row = .rxEscOverflow b ∨ row = .rxCsum2Bad b

theorem Rejects.exec_eq {s : State} {b : Byte} {row : Instr} (h : Rejects s b row) :
    exec row s = mapNext (fun t => { t with rxState := .idle }) (exec (.txSendByte 0x2D#8) s) := by
  rw [← rejectFrame_answer]
  obtain ⟨hd, hrow, rfl | rfl | rfl⟩ := h <;> exact receive_selected hd hrow

theorem rejects_char {s : State} {b : Byte} (hd : s.dispatchPending = false) (hst : s.rxState = .char)
    (hstart : b ≠ 0x24#8) (hend : b ≠ 0x23#8) (hesc : b ≠ 0x7D#8) (hfull : s.rxSize = s.params.pktMax) :
    Rejects s b (.rxCharOverflow b) :=
  ⟨hd, by rw [State.rowFor_char hst, if_neg hstart, if_neg hend, if_neg hesc, if_neg (by omega)], .inl rfl⟩

theorem rejects_esc {s : State} {b : Byte} (hd : s.dispatchPending = false) (hst : s.rxState = .esc)
    (hfull : s.rxSize = s.params.pktMax) : Rejects s b (.rxEscOverflow b) :=
  ⟨hd, by rw [State.rowFor_esc hst, if_neg (by omega)], .inr (.inl rfl)⟩

theorem rejects_csum2 {s : State} {b : Byte} (hd : s.dispatchPending = false) (hst : s.rxState = .csum2)
    (hbad : csumOk s.rxC1 b s.rxCsum = false) : Rejects s b (.rxCsum2Bad b) :=
  ⟨hd, by rw [State.rowFor_csum2 hst, hbad]; rfl, .inr (.inr rfl)⟩

/-- Settles O13: the three rows reject alike. -/
theorem rejectingRowsSendNakAndGoIdle : Obligations.RejectingRowsSendNakAndGoIdle := by
  intro s b hd
  refine ⟨fun hst hstart hend hesc hfull => ?char, fun hst hfull => ?esc, fun hst hbad => ?csum2⟩
  case char => exact (rejects_char hd hst hstart hend hesc hfull).exec_eq
  case esc => exact (rejects_esc hd hst hfull).exec_eq
  case csum2 => exact (rejects_csum2 hd hst hbad).exec_eq

/-- Settles O14: the send of the `-` neither overflows nor forces a flush. -/
theorem rejectingRowsComplete : Obligations.RejectingRowsComplete := by
  intro s b hd hl hhead hroom hbelow
  have complete {row : Instr} (h : Rejects s b row) : exec row s = .next
      { s with txq := s.txq.pushed s.params.txCap 0x2D#8, flushReq := true, rxState := .idle } := by
    rw [h.exec_eq, exec_txSendByte _ hl, sendByte_room hhead hroom hbelow]
    rfl
  refine ⟨fun hst hstart hend hesc hfull => ?char, fun hst hfull => ?esc, fun hst hbad => ?csum2⟩
  case char => exact complete (rejects_char hd hst hstart hend hesc hfull)
  case esc => exact complete (rejects_esc hd hst hfull)
  case csum2 => exact complete (rejects_csum2 hd hst hbad)

/-! ### The row that accepts -/

theorem State.rowFor_good {s : State} {b : Byte} (hst : s.rxState = .csum2)
    (hgood : csumOk s.rxC1 b s.rxCsum = true) : s.rowFor b = .rxCsum2Good b := by
  rw [State.rowFor_csum2 hst, if_pos hgood]

theorem exec_rxCsum2Good {s : State} {b : Byte} (hd : s.dispatchPending = false) (hst : s.rxState = .csum2)
    (hgood : csumOk s.rxC1 b s.rxCsum = true) (hl : s.linked = true) :
    exec (.rxCsum2Good b) s = answer (acceptFrame s) :=
  (receive_selected hd (State.rowFor_good hst hgood)).trans (whenLinked_linked hl _)

/-- Accepting a frame whose `+` left a backend linked: the payload is the one before the send (R132). -/
theorem acceptFrame_of_linked_send {s t : State} (hsend : sendByte ackByte s = .ok t) (ht : t.linked = true)
    (hsize : s.rxSize ≤ s.params.pktMax) :
    acceptFrame s = .ok { t with
      pkt := s.pkt.write s.rxSize 0x00#8
      rxState := .idle
      dispatchPending := true
      events := t.events ++ [.dispatch (s.pkt.slice s.rxSize) s.rxSize] } := by
  obtain ⟨hparams, hpkt, -, -, -, -, -, ⟨hkept, -⟩ | ⟨-, -, -, hunlinked⟩⟩ := (sendByte_sent hsend).kept
  · rw [acceptFrame_of_send hsend ht (by rw [hkept, hparams]; exact hsize), hpkt, hkept]
  · exact absurd (ht.symm.trans hunlinked) (by decide)

/-- Settles O15: the send of the `+` comes first, and what follows depends on whether it left a backend linked. -/
theorem goodChecksumDispatches : Obligations.GoodChecksumDispatches := by
  intro s b hd hst hgood hsize hl
  rw [exec_rxCsum2Good hd hst hgood hl]
  have hnull : (s.pkt.write s.rxSize 0x00#8).read s.rxSize = some 0x00#8 ∧
      ∀ a, a ≠ s.rxSize → (s.pkt.write s.rxSize 0x00#8).read a = s.pkt.read a :=
    ⟨Memory.read_write_same .., fun _ => Memory.read_write_of_ne _ _⟩
  refine ⟨fun t ht => ?_, fun hhead hroom hbelow => ⟨_, ?_, hnull⟩⟩
  · have hsend : sendByte ackByte s = .ok t := answer_next (exec_txSendByte _ hl ▸ ht)
    refine ⟨fun ht => ⟨_, ?_, hnull⟩, fun ht => ?_⟩
    · rw [acceptFrame_of_linked_send hsend ht hsize, answer]
    · rw [acceptFrame_of_error hsend ht, answer]
  · rw [acceptFrame_of_linked_send (sendByte_room hhead hroom hbelow) hl hsize]
    rfl

end Sys2Proof.Machine

/-! SUPPORT. `XPORT.WRITE`, the passes of a flush, and what a poll and a service pass start (43_transport.md R201 to
R206). -/

namespace Sys2Proof.Machine

/-! ### The backend -/

/-- With no backend linked there is no session, or a network session without a peer. -/
theorem State.linked_eq_false {s : State} :
    s.linked = false ↔ s.session = .inactive ∨ (s.session = .net ∧ s.peer = false) := by
  cases h : s.session <;> simp [State.linked, h]

theorem exec_xportWrite_linked {s : State} (hl : s.linked = true) (hok : Fifo.Ok s.params.txCap s.txq)
    (bytes : List Byte) {n : Nat}
    (hn : n = min bytes.length (s.params.txCap - 1 - s.txq.count s.params.txCap)) :
    exec (.xportWrite bytes) s =
      .next { s with txq := s.txq.pushedAll s.params.txCap (bytes.take n), bytesAccepted := n } := by
  have hpush := pushAll_eq (q := .txq) bytes hok hn
  simp only [exec, execXportWrite, hl, if_true, hpush]
  rfl

/-- Settles O29: a run of pushes accepts the longest run of its first bytes that fits. -/
theorem writeAcceptsThePrefixThatFits : Obligations.WriteAcceptsThePrefixThatFits := by
  intro s bytes
  refine ⟨fun hl hok n hn => exec_xportWrite_linked hl hok bytes hn, fun hl => ?_⟩
  simp only [exec, execXportWrite, hl, Bool.false_eq_true, if_false]

theorem flush_unlinked {s : State} (hl : s.linked = false) : flush s = .ok s := by
  simp [flush, hl]

theorem flush_linked {s : State} (hl : s.linked = true) :
    flush s = flushLoop (s.txq.count s.params.txCap + 1) s := if_pos hl

theorem exec_xportFlush (s : State) : exec .xportFlush s = answer (flush s) := rfl

theorem exec_xportFlush_unlinked {s : State} (hl : s.linked = false) : exec .xportFlush s = .next s := by
  rw [exec_xportFlush, flush_unlinked hl, answer]

/-! ### One pass of a flush -/

/-- The state after a pass in which the backend took the `n` oldest bytes of `txq`, `sent` (R202). -/
def State.passed (s : State) (answers : List WriteAnswer) (sent : List Byte) (n : Nat) : State :=
  { s with
    beWrites := answers
    events := s.events ++ [.beWrite sent]
    txq := { s.txq with tail := (s.txq.tail + n) % s.params.txCap } }

theorem flushLoop_empty {s : State} (h : s.txq.head = s.txq.tail) (n : Nat) : flushLoop n s = .ok (endFlush s) := by
  cases n <;> simp [flushLoop, Fifo.isEmpty_eq, h]

/-- A pass the backend answers with an error is the session's error (R202, R213). -/
theorem flushLoop_error {s : State} (h : s.txq.head ≠ s.txq.tail) {rest : List WriteAnswer}
    (hans : s.beWrites = .error :: rest) (n : Nat) :
    flushLoop (n + 1) s = .ok (sessionError { s with beWrites := rest }) := by
  simp [flushLoop, Fifo.isEmpty_eq, h, drawWrite, hans]

/-- A pass in which the backend takes bytes: the oldest go out in order, and the flush goes on unless there are none
(R202). -/
theorem flushLoop_takes {s : State} (hok : Fifo.Ok s.params.txCap s.txq) (h : s.txq.head ≠ s.txq.tail)
    {k m : Nat} {answers : List WriteAnswer} (hdraw : drawWrite s = (.takes k, { s with beWrites := answers }))
    (hm : m = min k (s.txq.count s.params.txCap)) (n : Nat) :
    ∃ sent, sent.map some = (s.txq.contents s.params.txCap).take m ∧
      (s.passed answers sent m).txq.contents s.params.txCap = (s.txq.contents s.params.txCap).drop m ∧
      Fifo.Ok s.params.txCap (s.passed answers sent m).txq ∧
      flushLoop (n + 1) s =
        if m = 0 then .ok (endFlush (s.passed answers sent m)) else flushLoop n (s.passed answers sent m) := by
  obtain ⟨sent, hpop, hsent, hleft, hok'⟩ :=
    popMany_eq (s := { s with beWrites := answers }) m hok (by simp only; omega)
  refine ⟨sent, hsent, hleft, hok', ?_⟩
  have hlength : sent.length = m := by
    have := congrArg List.length hsent
    rw [List.length_map, List.length_take, Fifo.length_contents] at this
    simp only at this
    omega
  have hempty : sent.isEmpty = decide (m = 0) := by
    rw [← hlength]
    cases sent <;> simp
  simp only [flushLoop, Fifo.isEmpty_eq, h, decide_false, Bool.false_eq_true, if_false, hdraw]
  rw [← hm, hpop]
  simp only [hempty, decide_eq_true_iff]
  rfl

/-- With no answer left the backend takes nothing (log 6). -/
theorem drawWrite_nil {s : State} (h : s.beWrites = []) :
    drawWrite s = (.takes 0, { s with beWrites := s.beWrites }) := by
  unfold drawWrite
  split
  · rfl
  · next hcons => cases h.symm.trans hcons

/-- A draw that is no error. -/
theorem drawWrite_takes {s : State} (h : ∀ a, a ∈ s.beWrites → a ≠ .error) :
    ∃ k answers, drawWrite s = (.takes k, { s with beWrites := answers }) ∧ ∀ a, a ∈ answers → a ≠ .error := by
  cases hb : s.beWrites with
  | nil => exact ⟨0, _, drawWrite_nil hb, h⟩
  | cons a rest =>
    rw [hb] at h
    cases a with
    | error => exact absurd rfl (h _ (List.mem_cons_self ..))
    | takes k => exact ⟨k, rest, by simp only [drawWrite, hb], fun a ha => h a (List.mem_cons_of_mem _ ha)⟩

/-! ### A whole flush -/

/-- The state after passes without an error: `tail` of `txq` has moved, `events` were emitted, `answers` are left, and
the request survives by the last line of R202. -/
def State.flushed (s : State) (tail : Nat) (events : List Event) (answers : List WriteAnswer) : State :=
  { s with
    txq := { s.txq with tail := tail }
    events := s.events ++ events
    beWrites := answers
    flushReq := s.params.flushKeepsReq && !decide (s.txq.head = tail) }

theorem endFlush_eq_flushed (s : State) : endFlush s = s.flushed s.txq.tail [] s.beWrites := by
  simp [endFlush, Fifo.isEmpty_eq, State.flushed]

/-- The passes after a first one, seen from before it. -/
theorem State.flushed_passed (s : State) (answers answers' : List WriteAnswer) (sent : List Byte) (m tail : Nat)
    (events : List Event) :
    (s.passed answers sent m).flushed tail events answers' = s.flushed tail (.beWrite sent :: events) answers' := by
  rw [State.flushed, State.flushed, State.passed, List.append_assoc]
  rfl

/-- The passes of a flush without an error: the oldest bytes of `txq` go to the wire in order (R202). -/
theorem flushLoop_moves (n : Nat) {s : State} (hok : Fifo.Ok s.params.txCap s.txq)
    (hanswers : ∀ a, a ∈ s.beWrites → a ≠ .error) :
    ∃ tail events answers,
      flushLoop n s = .ok (s.flushed tail events answers) ∧
      s.txq.contents s.params.txCap =
        (wire events).map some ++ ({ s.txq with tail := tail } : Fifo).contents s.params.txCap := by
  induction n generalizing s with
  | zero => exact ⟨_, _, _, congrArg _ (endFlush_eq_flushed s), rfl⟩
  | succ n ih =>
    by_cases hempty : s.txq.head = s.txq.tail
    · exact ⟨_, _, _, (flushLoop_empty hempty _).trans (congrArg _ (endFlush_eq_flushed s)), rfl⟩
    · obtain ⟨k, answers, hdraw, hanswers⟩ := drawWrite_takes hanswers
      obtain ⟨sent, hsent, hleft, hok', hpass⟩ := flushLoop_takes hok hempty hdraw rfl n
      generalize min k (s.txq.count s.params.txCap) = m at hsent hleft hok' hpass
      have hjoin (es : List Event) (f : Fifo)
          (h : (s.passed answers sent m).txq.contents s.params.txCap =
            (wire es).map some ++ f.contents s.params.txCap) :
          s.txq.contents s.params.txCap = (wire (.beWrite sent :: es)).map some ++ f.contents s.params.txCap := by
        rw [wire, List.map_append, List.append_assoc, ← h, hsent, hleft, List.take_append_drop]
      split at hpass
      · rw [endFlush_eq_flushed, State.flushed_passed] at hpass
        exact ⟨_, _, _, hpass, hjoin [] _ rfl⟩
      · obtain ⟨tail, events, answers', hrest, hcontents⟩ := ih (s := s.passed ..) hok' hanswers
        rw [hrest, State.flushed_passed] at hpass
        exact ⟨tail, .beWrite sent :: events, answers', hpass, hjoin events _ hcontents⟩

/-- Settles O31: the events the passes add carry on the wire what left `txq`. -/
theorem flushMovesTheOldestBytesToTheWire : Obligations.FlushMovesTheOldestBytesToTheWire := by
  intro s hl hok hanswers
  obtain ⟨tail, events, answers, hflush, hcontents⟩ := flushLoop_moves _ hok hanswers
  refine ⟨tail, events, answers, wire events, ?_, rfl, hcontents⟩
  rw [exec_xportFlush, flush_linked hl, hflush]
  rfl

/-- A flush with room for any number of passes above the occupancy (R202). -/
theorem flush_eq_flushLoop {s : State} (hl : s.linked = true) (hok : Fifo.Ok s.params.txCap s.txq) {n : Nat}
    (hn : s.txq.count s.params.txCap < n) : flush s = flushLoop n s := by
  rw [flush_linked hl, flushLoop_passes _ n hok (Nat.lt_succ_self _) hn]

/-- A flush whose first pass takes nothing: the request survives where the parameter keeps it (R202). -/
theorem flush_takes_none {s : State} (hl : s.linked = true) (h : s.txq.head ≠ s.txq.tail)
    {answers : List WriteAnswer} (hdraw : drawWrite s = (.takes 0, { s with beWrites := answers })) :
    flush s = .ok { s with
      beWrites := answers, events := s.events ++ [.beWrite []], flushReq := s.params.flushKeepsReq } := by
  rw [flush_linked hl]
  simp [flushLoop, Fifo.isEmpty_eq, h, hdraw, popMany, endFlush, State.emit]

/-- Settles O33: each clause is the first pass of the flush by the backend's answer. -/
theorem flushFollowsTheAnswers : Obligations.FlushFollowsTheAnswers := by
  intro s
  refine ⟨exec_xportFlush_unlinked, fun hl hok => ⟨fun hempty => ?empty, fun hne rest hans => ?error,
    fun hne rest hans => ?none, fun k rest hans hpos hk => ?some⟩⟩
  case empty =>
    rw [exec_xportFlush, flush_linked hl, flushLoop_empty hempty, answer]
    simp [endFlush, Fifo.isEmpty_eq, hempty]
  case error =>
    rw [exec_xportFlush, flush_linked hl, flushLoop_error hne hans, answer]
    rfl
  case none =>
    rw [exec_xportFlush, flush_takes_none hl hne (answers := rest) (by simp only [drawWrite, hans]), answer]
  case some =>
    have hne : s.txq.head ≠ s.txq.tail := fun he => by
      have := (Fifo.count_eq_zero hok.head_lt hok.tail_lt).mpr he
      omega
    have hdraw : drawWrite s = (.takes k, { s with beWrites := rest }) := by simp only [drawWrite, hans]
    obtain ⟨sent, hsent, hleft, hok', hpass⟩ :=
      flushLoop_takes hok hne hdraw (Nat.min_eq_left hk).symm (s.txq.count s.params.txCap)
    have hcount : (s.passed rest sent k).txq.count s.params.txCap < s.txq.count s.params.txCap := by
      have := congrArg List.length hleft
      rw [List.length_drop, Fifo.length_contents, Fifo.length_contents] at this
      omega
    have hl' : (s.passed rest sent k).linked = true := hl
    refine ⟨sent, hsent, ?_⟩
    rw [exec_xportFlush, flush_linked hl, hpass, if_neg (by omega), ← flush_eq_flushLoop hl' hok' hcount]
    rfl

/-! ### Polls -/

/-- With no backend linked a poll starts nothing (R205). -/
theorem startPoll_unlinked {s : State} (hl : s.linked = false) : startPoll s = s := by
  obtain hsession | ⟨hsession, hpeer⟩ := State.linked_eq_false.mp hl
  · simp [startPoll, hsession]
  · simp [startPoll, hsession, hpeer]

/-- A poll and a service pass that are not refused start the same (R203, R206). -/
theorem exec_poll_service {s : State} (hd : s.dispatchPending = false) (hpoll : s.poll = .idle)
    (hservicing : s.servicing = false) :
    exec .xportPoll s = .next (startPoll s) ∧
      exec .xportService s = .next { startPoll s with servicing := true } := by
  simp [exec, execXportPoll, execXportService, hd, State.polling, hpoll, hservicing]

/-- Settles O32: a flush and a poll look first whether a backend is linked. -/
theorem nothingMovesWithNoBackend : Obligations.NothingMovesWithNoBackend := by
  intro s hl
  refine ⟨exec_xportFlush_unlinked hl, fun hd hpoll hservicing => ?_⟩
  rw [(exec_poll_service hd hpoll hservicing).1, startPoll_unlinked hl]

/-- Settles O34: a used-up list of answers draws as `notReady` and as no capacity. -/
theorem noAnswerIsNothing : Obligations.NoAnswerIsNothing := by
  intro s
  refine ⟨fun hsession hreads hd hpoll hservicing => ?poll, fun hl hwrites hne => ?flush⟩
  case poll =>
    have hstart : startPoll s = s := by simp [startPoll, hsession, drawRead, hreads]
    have hexec := exec_poll_service hd hpoll hservicing
    rwa [hstart] at hexec
  case flush =>
    rw [exec_xportFlush, flush_takes_none hl hne (drawWrite_nil hwrites), answer]

/-- Settles O35: what a poll starts, by session and by the stream backend's answer. -/
theorem pollStartsBySession : Obligations.PollStartsBySession := by
  intro s hd hpoll hservicing
  obtain ⟨hp, hs⟩ := exec_poll_service hd hpoll hservicing
  rw [hp, hs]
  refine ⟨fun hsession bs rest hreads => ?bytes, fun hsession rest hreads => ?notReady,
    fun hsession rest hreads => ?error, fun hsession hpeer => ?net, fun hl => ?unlinked⟩
  case bytes => simp [startPoll, hsession, drawRead, hreads]
  case notReady => simp [startPoll, hsession, drawRead, hreads]
  case error => simp [startPoll, hsession, drawRead, hreads, exec, execSessionError, mapNext]
  case net => simp [startPoll, hsession, hpeer]
  case unlinked => rw [startPoll_unlinked hl]

end Sys2Proof.Machine

/-! SUPPORT. What a step runs: in the service context the decoded request or the next part of a poll, in the delivery
context the next part of a delivery (43_transport.md R203 to R207). -/

namespace Sys2Proof.Machine

/-! ### From a fetch to its step -/

theorem step_run {s t : State} {i : Instr} (h : fetch s = .run i t) : step s = exec i t := by
  rw [step, h]

theorem step_quiet {s t : State} (h : fetch s = .quiet t) : step s = .next t := by
  rw [step, h]

theorem step_refuse {s : State} {r : Refusal} (h : fetch s = .refuse r) : step s = .refused r := by
  rw [step, h]

/-! ### Requests -/

/-- In a dispatch, and outside a poll and a service pass, the service context looks for a request. -/
theorem fetchService_request {s : State}
    (h : s.dispatchPending = true ∨ (s.poll = .idle ∧ s.servicing = false)) : fetchService s = fetchRequest s := by
  unfold fetchService
  obtain hd | ⟨hpoll, hservicing⟩ := h
  · rw [if_pos hd]
  · simp only [hpoll, hservicing, Bool.false_eq_true, if_false, ite_self]

/-- Whom an operation is refused to (log 19). -/
def Barred (a : Asker) (dispatch : Bool) (i : Instr) : Prop :=
  (∃ q b, i = .fifoPush q b) ∨ (∃ q, i = .fifoPop q) ∨ (∃ q, i = .fifoReset q) ∨
  (∃ bytes, i = .xportDeliver bytes) ∨
  (i = .sessionError ∧ (a = .caller ∨ dispatch = true)) ∨
  (a = .backend ∧ i ≠ .sessionError ∧ i ≠ .sessionAccept ∧ i ≠ .sessionDisconnect)

/-- Of the named operations one may have those not barred. -/
theorem Asker.may_iff (a : Asker) (dispatch : Bool) {i : Instr} (hkey : i.rxKey = none) :
    a.may dispatch i = true ↔ ¬ Barred a dispatch i := by
  unfold Barred
  cases i <;> cases hkey
  case fifoPush | fifoPop | fifoReset | xportDeliver | sessionAccept | sessionDisconnect => simp [Asker.may]
  all_goals cases a <;> simp [Asker.may]

/-- The next request, decoded: it runs for one who may have it. -/
theorem fetchRequest_decoded {s : State} {r : Request} {rest : List Request} {i : Instr}
    (hreq : s.requests = r :: rest) (hdecode : decode .op RxCond.afterReset r.message = .ok i) :
    fetchRequest s =
      if r.asker.may s.dispatchPending i then .run i { s with requests := rest } else .refuse .notAllowed := by
  simp only [fetchRequest, hreq, hdecode]

/-- With no request the block does nothing (R283). -/
theorem fetchRequest_nil {s : State} (hreq : s.requests = []) : fetchRequest s = .quiet s := by
  simp only [fetchRequest, hreq]

/-- Settles O36: the step's fetch is that of the next request, and only named operations are decoded. -/
theorem stepRunsTheDecodedRequest : Obligations.StepRunsTheDecodedRequest := by
  intro s r rest i barred hturn hreq hdecode hfree hbarred
  obtain ⟨hkey, -⟩ := decodeOp_hasMessage hdecode
  have hmay := r.asker.may_iff s.dispatchPending hkey
  have hfetch := (fetch_service hturn).trans <|
    (fetchService_request (s := { s with turns := s.turns.tail }) hfree).trans (fetchRequest_decoded hreq hdecode)
  refine ⟨fun hnot => ?_, fun hyes => ?_⟩
  · exact step_run (hfetch.trans (if_pos (hmay.mpr (hnot ∘ hbarred.mpr))))
  · exact step_refuse (hfetch.trans (if_neg fun h => hmay.mp h (hbarred.mp hyes)))

/-- Settles O39: the fetch finds no request. -/
theorem nothingHappensUnasked : Obligations.NothingHappensUnasked := by
  intro s hturn hreq hfree
  exact step_quiet <| (fetch_service hturn).trans <|
    (fetchService_request (s := { s with turns := s.turns.tail }) hfree).trans (fetchRequest_nil hreq)

/-! ### Polls -/

section
variable {s : State} (hd : s.dispatchPending = false)
include hd

/-- The next byte of a stream poll takes its receive step (R203). -/
theorem fetchService_streamByte {b : Byte} {rest : List Byte} (hpoll : s.poll = .stream (b :: rest))
    (hl : s.linked = true) : fetchService s = .run (s.rowFor b) { s with poll := .stream rest } := by
  simp [fetchService, hd, hpoll, hl]

theorem fetchService_streamUnlinked {b : Byte} {rest : List Byte} (hpoll : s.poll = .stream (b :: rest))
    (hl : s.linked = false) : fetchService s = .quiet { s with poll := .idle } := by
  simp [fetchService, hd, hpoll, hl]

theorem fetchService_streamNil (hpoll : s.poll = .stream []) :
    fetchService s = .quiet { s with poll := .idle } := by
  simp [fetchService, hd, hpoll]

/-- The loop of a network poll begins with a pop (R204). -/
theorem fetchService_netPop (hpoll : s.poll = .netPop) (hl : s.linked = true) :
    fetchService s = .run (.fifoPop .rxq) { s with poll := .netTake } := by
  simp [fetchService, hd, hpoll, hl]

theorem fetchService_netPopUnlinked (hpoll : s.poll = .netPop) (hl : s.linked = false) :
    fetchService s = .quiet { s with poll := .idle } := by
  simp [fetchService, hd, hpoll, hl]

/-- The byte popped takes its receive step, and the loop begins again (R204). -/
theorem fetchService_netTake {b : Byte} (hpoll : s.poll = .netTake) (hpopped : s.popped = some b) :
    fetchService s = .run (s.rowFor b) { s with poll := .netPop } := by
  simp [fetchService, hd, hpoll, hpopped]

theorem fetchService_netTakeNone (hpoll : s.poll = .netTake) (hpopped : s.popped = none) :
    fetchService s = .quiet { s with poll := .idle } := by
  simp [fetchService, hd, hpoll, hpopped]

/-- A service pass ends with the flush, if one is requested (R206). -/
theorem fetchService_flush (hpoll : s.poll = .idle) (hservicing : s.servicing = true)
    (hreq : s.flushReq = true) : fetchService s = .run .xportFlush { s with servicing := false } := by
  simp [fetchService, hd, hpoll, hservicing, hreq]

theorem fetchService_noFlush (hpoll : s.poll = .idle) (hservicing : s.servicing = true)
    (hreq : s.flushReq = false) : fetchService s = .quiet { s with servicing := false } := by
  simp [fetchService, hd, hpoll, hservicing, hreq]

end

/-- A step of the service context that runs an operation. -/
theorem step_service_run {s t : State} {i : Instr} (hturn : s.turns.head? ≠ some .delivery)
    (h : fetchService { s with turns := s.turns.tail } = .run i t) : step s = exec i t :=
  step_run ((fetch_service hturn).trans h)

theorem step_service_quiet {s t : State} (hturn : s.turns.head? ≠ some .delivery)
    (h : fetchService { s with turns := s.turns.tail } = .quiet t) : step s = .next t :=
  step_quiet ((fetch_service hturn).trans h)

/-- Settles O37: what the fetch finds in a stream poll. -/
theorem stepRunsTheStreamPoll : Obligations.StepRunsTheStreamPoll := by
  intro s hturn hd
  refine ⟨fun b rest hpoll hl => ?byte, fun b rest hpoll hl => ?unlinked, fun hpoll => ?finished⟩
  case byte =>
    exact step_service_run hturn (fetchService_streamByte (s := { s with turns := s.turns.tail }) hd hpoll hl)
  case unlinked => exact step_service_quiet hturn (fetchService_streamUnlinked hd hpoll hl)
  case finished => exact step_service_quiet hturn (fetchService_streamNil hd hpoll)

/-- Settles O38: what the fetch finds in a network poll, and after a poll in a service pass. -/
theorem stepRunsTheNetworkPoll : Obligations.StepRunsTheNetworkPoll := by
  intro s hturn hd
  refine ⟨fun hpoll hl => ?pop, fun hpoll hl => ?unlinked, fun hpoll b hb => ?take, fun hpoll hb => ?finished,
    fun hpoll hservicing hreq => ?flush, fun hpoll hservicing hreq => ?noFlush⟩
  case pop => exact step_service_run hturn (fetchService_netPop hd hpoll hl)
  case unlinked => exact step_service_quiet hturn (fetchService_netPopUnlinked hd hpoll hl)
  case take => exact step_service_run hturn (fetchService_netTake (s := { s with turns := s.turns.tail }) hd hpoll hb)
  case finished => exact step_service_quiet hturn (fetchService_netTakeNone hd hpoll hb)
  case flush => exact step_service_run hturn (fetchService_flush hd hpoll hservicing hreq)
  case noFlush => exact step_service_quiet hturn (fetchService_noFlush hd hpoll hservicing hreq)

end Sys2Proof.Machine

/-! SUPPORT. Turns of the delivery context, and a delivery as a whole (43_transport.md R207). -/

namespace Sys2Proof.Machine

/-! ### One turn -/

theorem State.deliverable_eq_true {s : State} : s.deliverable = true ↔ s.session = .net ∧ s.peer = true := by
  simp [State.deliverable]

theorem State.deliverable_eq_false {s : State} : s.deliverable = false ↔ s.session ≠ .net ∨ s.peer = false := by
  simp [State.deliverable, or_iff_not_imp_left]

/-- `XPORT.DELIVER` with a peer and no delivery in progress begins one (R207). -/
theorem exec_xportDeliver {s : State} (hpeer : s.deliverable = true) (hnone : s.delivering = none)
    (bytes : List Byte) :
    exec (.xportDeliver bytes) s = .next { s with delivering := some { rest := bytes, accepted := 0 } } := by
  simp [exec, execXportDeliver, hpeer, hnone]

theorem exec_xportDeliver_noPeer {s : State} (hpeer : s.deliverable = false) (bytes : List Byte) :
    exec (.xportDeliver bytes) s = .refused .noPeer := by
  simp [exec, execXportDeliver, hpeer]

section
variable {s : State}

theorem fetchDelivery_none (hnone : s.delivering = none) (hcalls : s.deliveries = []) :
    fetchDelivery s = .quiet s := by
  simp only [fetchDelivery, hnone, hcalls]

theorem fetchDelivery_begin (hnone : s.delivering = none) {bytes : List Byte} {later : List (List Byte)}
    (hcalls : s.deliveries = bytes :: later) :
    fetchDelivery s = .run (.xportDeliver bytes) { s with deliveries := later } := by
  simp only [fetchDelivery, hnone, hcalls]

variable {d : Delivery} (hd : s.delivering = some d)
include hd

/-- A delivery waits while there is no peer (log 9). -/
theorem fetchDelivery_wait (hpeer : s.deliverable = false) : fetchDelivery s = .quiet s := by
  simp [fetchDelivery, hd, hpeer]

variable (hpeer : s.deliverable = true)
include hpeer

theorem fetchDelivery_end (hrest : d.rest = []) :
    fetchDelivery s = .quiet { s with delivering := none, delivered := d.accepted } := by
  simp [fetchDelivery, hd, hpeer, hrest]

theorem fetchDelivery_full {b : Byte} {rest : List Byte} (hrest : d.rest = b :: rest)
    (hfull : s.rxq.isFull s.params.rxCap = true) :
    fetchDelivery s = .run (.fifoPush .rxq b) { s with delivering := none, delivered := d.accepted } := by
  simp [fetchDelivery, hd, hpeer, hrest, hfull]

theorem fetchDelivery_room {b : Byte} {rest : List Byte} (hrest : d.rest = b :: rest)
    (hroom : s.rxq.isFull s.params.rxCap = false) :
    fetchDelivery s =
      .run (.fifoPush .rxq b) { s with delivering := some { rest := rest, accepted := d.accepted + 1 } } := by
  simp [fetchDelivery, hd, hpeer, hrest, hroom]

end

/-- The delivery context has the next turn. -/
theorem fetch_delivery {s : State} {turns : List Context} (hturn : s.turns = .delivery :: turns) :
    fetch s = fetchDelivery { s with turns := turns } := by
  simp only [fetch, hturn]

/-- Settles O40: what the fetch finds of a delivery, and what a push makes of `rxq`. -/
theorem deliveryTurnOnlyPushes : Obligations.DeliveryTurnOnlyPushes := by
  intro s turns hturn hok
  have run {i : Instr} {t : State} (h : fetchDelivery { s with turns := turns } = .run i t) : step s = exec i t :=
    step_run ((fetch_delivery hturn).trans h)
  have quiet {t : State} (h : fetchDelivery { s with turns := turns } = .quiet t) : step s = .next t :=
    step_quiet ((fetch_delivery hturn).trans h)
  have noPeer (h : s.session ≠ .net ∨ s.peer = false) : s.deliverable = false := State.deliverable_eq_false.mpr h
  have peer (hnet : s.session = .net) (hpeer : s.peer = true) : s.deliverable = true :=
    State.deliverable_eq_true.mpr ⟨hnet, hpeer⟩
  refine ⟨fun hnone hcalls => ?none, fun hnone bytes later hcalls => ⟨fun hnet hpeer => ?begin, fun hno => ?noPeer⟩,
    fun d hd => ⟨fun hno => ?wait, fun hnet hpeer => ⟨fun hrest => ?finished, fun b rest hrest hfull => ?full,
      fun b rest hrest hroom => ?room⟩⟩⟩
  case none => exact quiet (fetchDelivery_none hnone hcalls)
  case begin =>
    exact (run (fetchDelivery_begin (s := { s with turns := turns }) hnone hcalls)).trans
      (exec_xportDeliver (s := { s with turns := turns, deliveries := later }) (peer hnet hpeer) hnone bytes)
  case noPeer =>
    exact (run (fetchDelivery_begin (s := { s with turns := turns }) hnone hcalls)).trans
      (exec_xportDeliver_noPeer (s := { s with turns := turns, deliveries := later }) (noPeer hno) bytes)
  case wait => exact quiet (fetchDelivery_wait hd (noPeer hno))
  case finished => exact quiet (fetchDelivery_end hd (peer hnet hpeer) hrest)
  case full =>
    exact (run (fetchDelivery_full (s := { s with turns := turns }) hd (peer hnet hpeer) hrest hfull)).trans
      (exec_fifoPush_full (q := .rxq) b hfull)
  case room =>
    exact (run (fetchDelivery_room (s := { s with turns := turns }) hd (peer hnet hpeer) hrest hroom)).trans
      (exec_fifoPush_room (q := .rxq) b hroom hok.head_lt)

/-! ### A whole delivery -/

/-- One step, and then `n` more. -/
theorem steps_succ {s t : State} (h : step s = .next t) (n : Nat) : steps (n + 1) s = steps n t := by
  rw [steps, h]

/-- The turns of a delivery in progress: one for each byte that fits, and the one that ends it (R207; log 8). -/
theorem steps_delivering (bytes : List Byte) {s : State} {k n : Nat} {turns : List Context}
    (hnet : s.session = .net) (hpeer : s.peer = true) (hd : s.delivering = some { rest := bytes, accepted := k })
    (hok : Fifo.Ok s.params.rxCap s.rxq)
    (hn : n = min bytes.length (s.params.rxCap - 1 - s.rxq.count s.params.rxCap))
    (hturns : s.turns = List.replicate (n + 1) .delivery ++ turns) :
    ∃ accepted, steps (n + 1) s = .next { s with
      turns := turns
      delivering := none
      rxq := s.rxq.pushedAll s.params.rxCap (bytes.take n)
      accepted := accepted
      delivered := k + n } := by
  induction bytes generalizing s k n with
  | nil =>
    obtain rfl : n = 0 := by simpa using hn
    obtain ⟨-, -, hturn⟩ := deliveryTurnOnlyPushes s turns hturns hok
    obtain ⟨hend, -, -⟩ := (hturn _ hd).2 hnet hpeer
    exact ⟨s.accepted, steps_succ (hend rfl) 0⟩
  | cons b bytes ih =>
    rw [List.length_cons] at hn
    cases hfull : s.rxq.isFull s.params.rxCap with
    | true =>
      have hcount := (Fifo.isFull_iff hok.head_lt hok.tail_lt).mp hfull
      obtain rfl : n = 0 := by omega
      obtain ⟨-, -, hturn⟩ := deliveryTurnOnlyPushes s turns hturns hok
      obtain ⟨-, hreject, -⟩ := (hturn _ hd).2 hnet hpeer
      exact ⟨false, steps_succ (hreject b bytes rfl hfull) 0⟩
    | false =>
      have hlt := Fifo.count_lt_of_not_full hok.head_lt hok.tail_lt hfull
      have hcount := Fifo.count_pushed b hok.head_lt hok.tail_lt hfull
      obtain ⟨m, rfl⟩ : ∃ m, n = m + 1 := ⟨n - 1, by omega⟩
      obtain ⟨-, -, hturn⟩ := deliveryTurnOnlyPushes s (List.replicate (m + 1) Context.delivery ++ turns) hturns hok
      obtain ⟨-, -, hpush⟩ := (hturn _ hd).2 hnet hpeer
      rw [steps_succ (hpush b bytes rfl hfull)]
      obtain ⟨accepted, hrest⟩ := ih (s := { s with
          turns := List.replicate (m + 1) .delivery ++ turns
          delivering := some { rest := bytes, accepted := k + 1 }
          rxq := s.rxq.pushed s.params.rxCap b
          accepted := true }) (k := k + 1) (n := m) hnet hpeer rfl (hok.pushed b hfull)
        (by simp only [hcount]; omega) rfl
      refine ⟨accepted, hrest.trans ?_⟩
      rw [Nat.add_right_comm k 1 m]
      rfl

/-- Settles O30: the call begins with one turn, and the turns of the delivery in progress follow. -/
theorem deliverAcceptsThePrefixThatFits : Obligations.DeliverAcceptsThePrefixThatFits := by
  intro s bytes
  refine ⟨fun hnet hpeer hnone => ⟨?begin, fun n turns later hok hn hturns hcalls => ?turns⟩, fun hno => ?noPeer⟩
  case begin => exact exec_xportDeliver (State.deliverable_eq_true.mpr ⟨hnet, hpeer⟩) hnone bytes
  case noPeer => exact exec_xportDeliver_noPeer (State.deliverable_eq_false.mpr hno) bytes
  case turns =>
    obtain ⟨-, hcall, -⟩ := deliveryTurnOnlyPushes s (List.replicate (n + 1) Context.delivery ++ turns) hturns hok
    rw [steps_succ ((hcall hnone bytes later hcalls).1 hnet hpeer)]
    obtain ⟨accepted, hrest⟩ := steps_delivering bytes (s := { s with
        turns := List.replicate (n + 1) .delivery ++ turns
        deliveries := later
        delivering := some { rest := bytes, accepted := 0 } }) hnet hpeer rfl hok hn rfl
    refine ⟨accepted, hrest.trans ?_⟩
    rw [Nat.zero_add, hnone]

end Sys2Proof.Machine

/-! SUPPORT. The session operations and `DISPATCH.OK`, what is refused, and the state right after power-on. -/

namespace Sys2Proof.Machine

/-! ### Sessions and completions -/

theorem outsideDispatch_outside {s : State} (hd : s.dispatchPending = false) (e : Answer) :
    outsideDispatch s e = e := by
  simp [outsideDispatch, hd]

/-- Settles O41: each operation is `RESET_ALL` followed by its own choice of session and peer. -/
theorem sessionOperationsReset : Obligations.SessionOperationsReset := by
  intro s r hd hr
  obtain rfl : r = resetAll s := hr
  have hout := outsideDispatch_outside hd
  refine ⟨fun hsession h => ?stream, fun hsession p => ?net, ?deinit, fun hsession => ?accept,
    fun hsession hpeer => ?disconnect⟩
  case stream => exact (hout _).trans (if_pos hsession)
  case net => exact (hout _).trans (if_pos hsession)
  case deinit => exact hout _
  case accept => exact (hout _).trans (if_pos hsession)
  case disconnect => exact (hout _).trans ((if_pos hsession).trans (if_pos hpeer))

/-- Settles O42: the three cases of the session. -/
theorem sessionErrorTearsDown : Obligations.SessionErrorTearsDown := by
  intro s r hr
  obtain rfl : r = resetAll s := hr
  have hexec : exec .sessionError s = .next (sessionError s) := rfl
  rw [hexec]
  refine ⟨fun hsession => ?_, fun hsession => ?_, fun hsession => ?_⟩ <;> simp only [sessionError, hsession]

/-- Settles O43: the one condition of the operation is that a dispatch is in progress. -/
theorem dispatchOkCompletes : Obligations.DispatchOkCompletes := fun _ hpending => if_pos hpending

/-! ### Refusals -/

theorem receive_pending {i : Instr} {b : Byte} {s : State} {e : Answer} (hpending : s.dispatchPending = true) :
    receive i b s e = .refused .dispatchInProgress := if_pos hpending

/-- During a dispatch every receive step is refused (R120, R249). -/
theorem rxStep_pending {s : State} (b : Byte) (hpending : s.dispatchPending = true) :
    rxStep b s = .refused .dispatchInProgress := by
  unfold rxStep State.rowFor selectRow
  (repeat' split) <;> exact receive_pending hpending

theorem outsideDispatch_pending {s : State} (hpending : s.dispatchPending = true) (e : Answer) :
    outsideDispatch s e = .refused .dispatchInProgress := if_pos hpending

theorem whenLinked_unlinked {s : State} (hl : s.linked = false) (e : Answer) :
    whenLinked s e = .refused .notLinked := by
  simp [whenLinked, hl]

/-- A selected row that sends is refused with no backend linked (R249). -/
theorem receive_unlinked {i : Instr} {b : Byte} {s : State} {e : Answer} (hd : s.dispatchPending = false)
    (hrow : s.rowFor b = i) (hl : s.linked = false) : receive i b s (whenLinked s e) = .refused .notLinked :=
  (receive_selected hd hrow).trans (whenLinked_unlinked hl e)

theorem Rejects.unlinked {s : State} {b : Byte} {row : Instr} (h : Rejects s b row) (hl : s.linked = false) :
    exec row s = .refused .notLinked := by
  rw [h.exec_eq]
  exact congrArg _ (whenLinked_unlinked hl _)

/-- What a dispatch refuses (R249, R213). -/
theorem refused_pending {s : State} (b : Byte) (l : List Byte) (hpending : s.dispatchPending = true) :
    rxStep b s = .refused .dispatchInProgress ∧
    exec .xportPoll s = .refused .reentry ∧
    exec .xportService s = .refused .reentry ∧
    exec (.sessionInitStream l) s = .refused .dispatchInProgress ∧
    exec (.sessionInitNet l) s = .refused .dispatchInProgress ∧
    exec .sessionDeinit s = .refused .dispatchInProgress ∧
    exec .sessionAccept s = .refused .dispatchInProgress ∧
    exec .sessionDisconnect s = .refused .dispatchInProgress := by
  have hbusy : (s.dispatchPending || s.polling) = true := by rw [hpending, Bool.true_or]
  have hout := outsideDispatch_pending hpending
  exact ⟨rxStep_pending b hpending, if_pos hbusy, if_pos hbusy, hout _, hout _, hout _, hout _, hout _⟩

/-- Settles O45: the refusals during a dispatch, outside one, and with no backend linked. -/
theorem refusedRequests : Obligations.RefusedRequests := by
  intro s b l
  refine ⟨refused_pending b l, fun hd => ?outside, fun hl => ?unlinked⟩
  case outside =>
    have hnone : ¬ s.dispatchPending = true := by simp [hd]
    have hout := outsideDispatch_outside hd
    refine ⟨if_neg hnone, if_neg hnone, fun hactive => ?active, fun hnet => ?noListener,
      fun hnet hpeer => ?noConnection⟩
    case active => exact ⟨(hout _).trans (if_neg hactive), (hout _).trans (if_neg hactive)⟩
    case noListener => exact ⟨(hout _).trans (if_neg hnet), (hout _).trans (if_neg hnet)⟩
    case noConnection =>
      exact (hout _).trans ((if_pos hnet).trans (if_neg (by simp [hpeer])))
  case unlinked =>
    have hno := whenLinked_unlinked hl
    refine ⟨hno _, hno _, hno _, fun hpending => (if_pos hpending).trans (hno _), fun hd => ⟨?char, ?esc, ?csum2⟩⟩
    case char =>
      exact fun hst hstart hend hesc hfull => (rejects_char hd hst hstart hend hesc hfull).unlinked hl
    case esc => exact fun hst hfull => (rejects_esc hd hst hfull).unlinked hl
    case csum2 =>
      exact fun hst => ⟨fun hgood => receive_unlinked hd (State.rowFor_good hst hgood) hl,
        fun hbad => (rejects_csum2 hd hst hbad).unlinked hl⟩

/-! ### Reset -/

/-- Settles O46: the fields of the state written out in `State.resetWith`. -/
theorem resetValues : Obligations.ResetValues := by
  rintro p s rfl
  exact ⟨rfl, rfl, rfl, rfl, rfl, rfl, rfl, rfl, rfl, rfl, rfl, rfl, rfl⟩

/-- Both FIFOs are empty and have slots, and nothing stands in the payload store (R41). -/
theorem resetWith_inv {p : Params} (hvalid : p.valid = true) : (State.resetWith p).Inv := by
  obtain ⟨-, hrx, htx, -, -⟩ := of_decide_eq_true hvalid
  exact
    { params_valid := hvalid
      rxSize_le := Nat.zero_le _
      rxq_ok := .ofReset (Nat.lt_of_lt_of_le Nat.zero_lt_two hrx)
      txq_ok := .ofReset (Nat.lt_of_lt_of_le Nat.zero_lt_two htx)
      pkt_wf := rfl
      pkt_le := nofun
      pkt_written := nofun
      dispatch_state := nofun
      peer_net := nofun
      rxq_idle := fun _ => rfl }

/-- The parameters of the machine meet the constraints of R5 to R7, whatever its constants are. -/
theorem configParams_valid : Config.params.valid = true := by
  have hnear : Config.nearFullChoice % (Config.txCapLessTwo + 1) < Config.txCapLessTwo + 1 :=
    Nat.mod_lt _ (Nat.succ_pos _)
  refine decide_eq_true ?_
  simp only [Config.params]
  omega

/-- Settles O47: any valid choice of the parameters, the machine's own among them. -/
theorem resetMeetsTheInvariant : Obligations.ResetMeetsTheInvariant :=
  ⟨fun _ => resetWith_inv, resetWith_inv configParams_valid⟩

end Sys2Proof.Machine

/-! SUPPORT. Streams of received bytes (30_encoding.md R104): runs cut in two, the steps of a stream poll, the running
checksum, and the encoder's bytes received (40_rx_framer.md section 8). -/

namespace Sys2Proof.Machine

/-! ### Runs -/

theorem rxStep_of_row {s : State} {b : Byte} {i : Instr} (hrow : s.rowFor b = i) : rxStep b s = exec i s := by
  rw [rxStep, hrow]

theorem rxRun_cons {s t : State} {b : Byte} (h : rxStep b s = .next t) (bs : List Byte) :
    rxRun (b :: bs) s = rxRun bs t := by
  rw [rxRun, h]

/-- A run of one byte and more that completes. -/
theorem rxRun_cons_next {s t : State} {b : Byte} {bs : List Byte} (h : rxRun (b :: bs) s = .next t) :
    ∃ u, rxStep b s = .next u ∧ rxRun bs u = .next t := by
  rw [rxRun] at h
  split at h
  · next u hu => exact ⟨u, hu, h⟩
  · cases h
  · cases h

theorem rxRun_append {s t : State} {xs : List Byte} (h : rxRun xs s = .next t) (ys : List Byte) :
    rxRun (xs ++ ys) s = rxRun ys t := by
  induction xs generalizing s with
  | nil => rw [next_inj h, List.nil_append]
  | cons x xs ih =>
    obtain ⟨u, hu, hrest⟩ := rxRun_cons_next h
    rw [List.cons_append, rxRun_cons hu, ih hrest]

/-- A run that completes, cut in two. -/
theorem rxRun_append_next {s t : State} {xs ys : List Byte} (h : rxRun (xs ++ ys) s = .next t) :
    ∃ u, rxRun xs s = .next u ∧ rxRun ys u = .next t := by
  induction xs generalizing s with
  | nil => exact ⟨s, rfl, h⟩
  | cons x xs ih =>
    obtain ⟨v, hv, hrest⟩ := rxRun_cons_next h
    obtain ⟨u, hu, hrest⟩ := ih hrest
    exact ⟨u, (rxRun_cons hv xs).trans hu, hrest⟩

/-! ### Stream polls -/

/-- The row selected is one of the framer's state, for the byte (R102). -/
theorem State.rowFor_key (s : State) (b : Byte) : (s.rowFor b).rxKey = some (s.rxState, b) :=
  (selectRow_sound _ _ _).1

/-- No effect reads or writes the schedule. -/
theorem Effect.turns {s t : State} {i : Instr} (h : Effect s i t) : t.turns = s.turns := by
  have sent {u v : State} (h : Sent u v) : v.turns = u.turns := by
    rcases h with ⟨_, _, _, _, _, rfl, -⟩ | ⟨-, _, ⟨_, _, _, _, _, rfl, -⟩, rfl⟩
    · rfl
    · simp
  cases h with
  | nothing | startFrame | halt | endBody | escape | store | capture | ack | nack | deliver | poll | session
  | complete => rfl
  | reject _ _ _ hu | accept _ _ hu => exact (sent hu :)
  | acceptError _ _ ht | sendByte ht | flush ht => exact sent ht
  | sendPacket _ hu ht | commandFaultError _ hu ht | commandFault _ hu ht => exact (sent (hu.packet ht) :)
  | push q | pop q | resetFifo q => cases q <;> rfl
  | pollError | error => simp

/-- A receive step links no backend. -/
theorem Effect.linked {s t : State} {i : Instr} {st : RxState} {b : Byte} (h : Effect s i t)
    (hkey : i.rxKey = some (st, b)) (ht : t.linked = true) : s.linked = true := by
  have sent {u : State} (h : Sent s u) (hu : u.linked = true) : s.linked = true := by
    obtain hmoved | ⟨hl, -⟩ := h
    · exact hmoved.linked ▸ hu
    · exact hl
  have sentPacket {u v : State} (hu : TxMoved s u) (hv : Sent { u with rxState := .ackWait } v)
      (ht : v.linked = true) : s.linked = true := by
    obtain hmoved | ⟨hl, -⟩ := hu.packet hv
    · exact hmoved.linked ▸ ht
    · exact hl
  cases h with
  | nothing | startFrame | halt | endBody | escape | store | capture | ack | nack | deliver | poll | complete =>
    exact ht
  | push q | pop q | resetFifo q => cases q <;> exact ht
  | @reject _ _ u _ _ _ hu => exact sent (u := u) hu ht
  | @accept _ u _ _ hu => exact sent (u := u) hu ht
  | acceptError _ _ hu | sendByte hu | flush hu => exact sent hu ht
  | sendPacket _ hu hv | commandFaultError _ hu hv => exact sentPacket hu hv ht
  | @commandFault _ v _ hu hv => exact sentPacket (v := v) hu hv ht
  | pollError reads => exact absurd (ht.symm.trans (sessionError_linked { s with beReads := reads })) (by decide)
  | error => exact absurd (ht.symm.trans (sessionError_linked s)) (by decide)
  | session hi => rcases hi with ⟨_, rfl⟩ | ⟨_, rfl⟩ | rfl | rfl | rfl <;> cases hkey

/-- A receive step that completes: no dispatch was in progress, the schedule stays, and no backend was linked by it. -/
theorem rxStep_next {s t : State} {b : Byte} (h : rxStep b s = .next t) :
    s.dispatchPending = false ∧ t.turns = s.turns ∧ (t.linked = true → s.linked = true) := by
  have heffect := exec_effect h
  refine ⟨?_, heffect.turns, heffect.linked (s.rowFor_key b)⟩
  by_contra hpending
  rw [rxStep_pending b (Bool.eq_true_of_not_eq_false hpending)] at h
  cases h

theorem rxRun_next {s t : State} {bs : List Byte} (h : rxRun bs s = .next t) :
    t.turns = s.turns ∧ (t.linked = true → s.linked = true) := by
  induction bs generalizing s with
  | nil => rw [next_inj h]; exact ⟨rfl, id⟩
  | cons b bs ih =>
    obtain ⟨u, hu, hrest⟩ := rxRun_cons_next h
    obtain ⟨-, hturns, hlinked⟩ := rxStep_next hu
    obtain ⟨hturns', hlinked'⟩ := ih hrest
    exact ⟨hturns'.trans hturns, hlinked ∘ hlinked'⟩

/-- A step of a stream poll is the receive step of its next byte, with the rest still to come (R203). -/
theorem step_streamPoll {s t : State} {b : Byte} (rest : List Byte) (hturns : s.turns = []) (hl : s.linked = true)
    (h : rxStep b s = .next t) :
    step (s.setPoll (.stream (b :: rest))) = .next (t.setPoll (.stream rest)) := by
  have hturn : (s.setPoll (.stream (b :: rest))).turns.head? ≠ some .delivery := by
    rw [show (s.setPoll (.stream (b :: rest))).turns = [] from hturns]
    nofun
  obtain ⟨hbyte, -⟩ := stepRunsTheStreamPoll _ hturn (rxStep_next h).1
  have hstate : ({ s.setPoll (.stream (b :: rest)) with
      turns := (s.setPoll (.stream (b :: rest))).turns.tail, poll := .stream rest } : State) =
      s.setPoll (.stream rest) := by
    simp only [State.setPoll, hturns, List.tail_nil]
  rw [hbyte b rest rfl hl, hstate, rxStep_setPoll, h, mapNext]

/-- The steps of a stream poll are the receive steps of its bytes (R203). -/
theorem steps_streamPoll {s t : State} {bs : List Byte} (hturns : s.turns = []) (h : rxRun bs s = .next t)
    (hl : t.linked = true) : steps bs.length (s.setPoll (.stream bs)) = .next (t.setPoll (.stream [])) := by
  induction bs generalizing s with
  | nil => rw [next_inj h]; rfl
  | cons b bs ih =>
    obtain ⟨u, hu, hrest⟩ := rxRun_cons_next h
    obtain ⟨-, hkept, hlinked⟩ := rxStep_next hu
    have hsl := hlinked ((rxRun_next hrest).2 hl)
    rw [List.length_cons, steps_succ (step_streamPoll bs hturns hsl hu), ih (hkept.trans hturns) hrest]

/-- Settles O60: both ways of polling take the receive steps of the bytes, in order. -/
theorem chunkedPollsDoTheSame : Obligations.ChunkedPollsDoTheSame := by
  intro xs ys s t hturns _ _ hrun hl
  obtain ⟨u, hxs, hys⟩ := rxRun_append_next hrun
  obtain ⟨hkept, -⟩ := rxRun_next hxs
  refine ⟨steps_streamPoll hturns hrun hl, u.setPoll (.stream []), ?_, rfl, ?_⟩
  · exact steps_streamPoll hturns hxs ((rxRun_next hys).2 hl)
  · exact steps_streamPoll (s := u) (hkept.trans hturns) hys hl

/-! ### The running checksum -/

/-- The framer is in the body of a packet. -/
def InBody (s : State) : Prop := s.rxState = .char ∨ s.rxState = .esc

/-- Out of the body no byte but `$` leads into it. -/
theorem Effect.not_inBody {s t : State} {i : Instr} {b : Byte} {st : RxState} (h : Effect s i t)
    (hkey : i.rxKey = some (st, b)) (hst : s.rxState = st) (hb : b ≠ 0x24#8) (hout : ¬ InBody s) : ¬ InBody t := by
  cases h with
  | nothing | halt => exact hout
  | endBody | capture | ack | nack | reject | accept => simp [InBody]
  | startFrame hi => rcases hi with rfl | rfl | rfl <;> cases hkey <;> exact absurd rfl hb
  | escape => cases hkey; exact absurd (.inl hst) hout
  | store hi =>
    rcases hi with rfl | rfl <;> cases hkey
    · exact absurd (.inl hst) hout
    · exact absurd (.inr hst) hout
  | acceptError _ _ hu =>
    obtain ⟨hkept, -⟩ | ⟨hidle, -⟩ := hu.framer
    · rwa [InBody, hkept]
    · simp [InBody, hidle]
  | sendPacket hi => rcases hi with ⟨_, rfl⟩ | ⟨_, rfl⟩ <;> cases hkey
  | poll hi | pollError _ hi => rcases hi with rfl | rfl <;> cases hkey
  | session hi => rcases hi with ⟨_, rfl⟩ | ⟨_, rfl⟩ | rfl | rfl | rfl <;> cases hkey
  | push _ hi => rcases hi with ⟨_, rfl⟩ | ⟨_, _, rfl⟩ <;> cases hkey
  | sendByte | flush | deliver | pop | resetFifo | error | complete | commandFault | commandFaultError => cases hkey

/-- A row that stores a byte sums it as received. -/
theorem receive_store_csum {i : Instr} {b c : Byte} {s t : State}
    (h : receive i b s (answer (storeByte c b s)) = .next t) : t.rxCsum = s.rxCsum + b := by
  obtain ⟨-, -, h⟩ := receive_next h
  obtain ⟨-, rfl⟩ := storeByte_cases (answer_next h)
  rfl

/-- A row that rejects leaves the body. -/
theorem receive_reject_not_inBody {i : Instr} {b : Byte} {s t : State}
    (h : receive i b s (whenLinked s (answer (rejectFrame s))) = .next t) : ¬ InBody t := by
  obtain ⟨-, -, h⟩ := receive_next h
  obtain ⟨u, -, rfl⟩ := rejectFrame_cases (answer_next (whenLinked_next h).2)
  simp [InBody]

/-- In the body a byte that leaves the framer in it is summed as received (R126, R127, R129). -/
theorem rxStep_inBody {s t : State} {b : Byte} (hbody : InBody s) (hb : s.rxState ≠ .esc → b ≠ 0x24#8)
    (h : rxStep b s = .next t) (ht : InBody t) : t.rxCsum = s.rxCsum + b := by
  obtain hst | hst := hbody
  · rw [rxStep, State.rowFor_char hst, if_neg (hb (by simp [hst]))] at h
    split at h
    case isTrue =>
      obtain ⟨-, -, h⟩ := receive_next h
      obtain rfl := next_inj h
      simp [InBody] at ht
    case isFalse =>
      split at h
      case isTrue hesc =>
        obtain ⟨-, -, h⟩ := receive_next h
        obtain rfl := next_inj h
        rw [hesc]
      case isFalse =>
        split at h
        case isTrue => exact receive_store_csum h
        case isFalse => exact absurd ht (receive_reject_not_inBody h)
  · rw [rxStep, State.rowFor_esc hst] at h
    split at h
    case isTrue => exact receive_store_csum h
    case isFalse => exact absurd ht (receive_reject_not_inBody h)

/-- None of the bytes is a `$` where the framer does not expect an escaped byte. -/
def NoStart (bytes : List Byte) (s : State) : Prop :=
  ∀ xs b ys u, bytes = xs ++ b :: ys → rxRun xs s = .next u → u.rxState ≠ .esc → b ≠ 0x24#8

theorem NoStart.head {s : State} {b : Byte} {bs : List Byte} (h : NoStart (b :: bs) s) (hst : s.rxState ≠ .esc) :
    b ≠ 0x24#8 := h [] b bs s rfl rfl hst

theorem NoStart.tail {s t : State} {b : Byte} {bs : List Byte} (h : NoStart (b :: bs) s)
    (hstep : rxStep b s = .next t) : NoStart bs t := fun xs c ys u hbytes hrun =>
  h (b :: xs) c ys u (by rw [hbytes, List.cons_append]) ((rxRun_cons hstep xs).trans hrun)

/-- Out of the body the framer stays out of it. -/
theorem rxRun_not_inBody {s t : State} {bytes : List Byte} (hout : ¬ InBody s) (hno : NoStart bytes s)
    (hrun : rxRun bytes s = .next t) : ¬ InBody t := by
  induction bytes generalizing s with
  | nil => exact next_inj hrun ▸ hout
  | cons b bs ih =>
    obtain ⟨u, hu, hrest⟩ := rxRun_cons_next hrun
    have hb := hno.head fun hesc => hout (.inr hesc)
    exact ih ((exec_effect hu).not_inBody (s.rowFor_key b) rfl hb hout) (hno.tail hu) hrest

/-- In the body the checksum grows by the bytes received (R93). -/
theorem rxRun_checksum {s t : State} {bytes : List Byte} (hbody : InBody s) (hno : NoStart bytes s)
    (hrun : rxRun bytes s = .next t) (ht : InBody t) : t.rxCsum = s.rxCsum + checksum bytes := by
  induction bytes generalizing s with
  | nil => rw [next_inj hrun, checksum, BitVec.add_zero]
  | cons b bs ih =>
    obtain ⟨u, hu, hrest⟩ := rxRun_cons_next hrun
    by_cases hubody : InBody u
    · rw [ih hubody (hno.tail hu) hrest, rxStep_inBody hbody hno.head hu hubody, checksum, BitVec.add_assoc]
    · exact absurd ht (rxRun_not_inBody hubody (hno.tail hu) hrest)

/-- Settles O59: the bytes received in the body are summed, and a `#` in it is not. -/
theorem runningChecksumIsTheWireSum : Obligations.RunningChecksumIsTheWireSum := by
  intro bytes s t hbody hno hrun
  refine ⟨rxRun_checksum hbody hno hrun, fun hst v hv => ?_⟩
  have hsum := rxRun_checksum hbody hno hrun (.inl hst)
  rw [rxStep_of_row (State.rowFor_char hst 0x23#8)] at hv
  obtain ⟨-, -, hv⟩ := receive_next hv
  rw [← next_inj hv]
  exact ⟨rfl, hsum⟩

end Sys2Proof.Machine

/-! SUPPORT. The encoder's bytes for a payload, received: the start, the body byte by byte, the checksum
(40_rx_framer.md section 8, R142). -/

namespace Sys2Proof.Machine

/-! ### Single bytes -/

/-- A `$` starts a frame in `IDLE`, `CHAR` and `ACK_WAIT` (R121, R124, R136). -/
theorem rxStep_start {s : State} (hd : s.dispatchPending = false)
    (hst : s.rxState = .idle ∨ s.rxState = .char ∨ s.rxState = .ackWait) :
    rxStep 0x24#8 s = .next (startFrame s) := by
  obtain hst | hst | hst := hst
  · exact (rxStep_of_row (State.rowFor_idle hst _)).trans (receive_selected hd (State.rowFor_idle hst _))
  · exact (rxStep_of_row (State.rowFor_char hst _)).trans (receive_selected hd (State.rowFor_char hst _))
  · exact (rxStep_of_row (State.rowFor_ackWait hst _)).trans (receive_selected hd (State.rowFor_ackWait hst _))

/-- The state of a framer in `CHAR` with `pkt`, `rx_size` and `rx_csum` as given. -/
def State.stored (s : State) (pkt : Memory) (size : Nat) (csum : Byte) : State :=
  { s with pkt := pkt, rxSize := size, rxCsum := csum, rxState := .char }

section
variable {s : State} (hd : s.dispatchPending = false)
include hd

theorem rxStep_data {b : Byte} (hst : s.rxState = .char) (hb : needsEscape b = false)
    (hroom : s.rxSize < s.params.pktMax) :
    rxStep b s = .next (s.stored (s.pkt.write s.rxSize b) (s.rxSize + 1) (s.rxCsum + b)) := by
  have hrow : s.rowFor b = .rxCharData b := by
    simp only [needsEscape, decide_eq_false_iff_not, not_or] at hb
    obtain ⟨hstart, hend, hesc⟩ := hb
    rw [State.rowFor_char hst, if_neg hstart, if_neg hend, if_neg hesc, if_pos hroom]
  rw [rxStep_of_row hrow]
  exact receive_storeByte b hd hrow hroom

theorem rxStep_escape (hst : s.rxState = .char) :
    rxStep 0x7D#8 s = .next { s with rxCsum := s.rxCsum + 0x7D#8, rxState := .esc } :=
  (rxStep_of_row (State.rowFor_char hst _)).trans (receive_selected hd (State.rowFor_char hst _))

theorem rxStep_escaped (b : Byte) (hst : s.rxState = .esc) (hroom : s.rxSize < s.params.pktMax) :
    rxStep b s = .next (s.stored (s.pkt.write s.rxSize (escapeXor b)) (s.rxSize + 1) (s.rxCsum + b)) := by
  have hrow : s.rowFor b = .rxEscData b := by rw [State.rowFor_esc hst, if_pos hroom]
  rw [rxStep_of_row hrow]
  exact receive_storeByte (escapeXor b) hd hrow hroom

theorem rxStep_end (hst : s.rxState = .char) : rxStep 0x23#8 s = .next { s with rxState := .csum1 } :=
  (rxStep_of_row (State.rowFor_char hst _)).trans (receive_selected hd (State.rowFor_char hst _))

theorem rxStep_csum1 (b : Byte) (hst : s.rxState = .csum1) :
    rxStep b s = .next { s with rxC1 := b, rxState := .csum2 } :=
  (rxStep_of_row (State.rowFor_csum1 hst b)).trans (receive_selected hd (State.rowFor_csum1 hst b))

end

/-! ### The body -/

theorem checksum_append (xs ys : List Byte) : checksum (xs ++ ys) = checksum xs + checksum ys := by
  induction xs with
  | nil => rw [List.nil_append, checksum, BitVec.zero_add]
  | cons x xs ih => rw [List.cons_append, checksum, checksum, ih, BitVec.add_assoc]

/-- Unescaping an escaped byte (R92). -/
theorem escapeXor_escapeXor (c : Byte) : escapeXor (escapeXor c) = c := by
  rw [escapeXor, escapeXor, BitVec.xor_assoc, BitVec.xor_self, BitVec.xor_zero]

/-- A payload byte as the encoder writes it, received with room for it: the store gets the byte itself, the checksum
the bytes on the wire. -/
theorem rxRun_escapeByte {s : State} (c : Byte) (hd : s.dispatchPending = false) (hst : s.rxState = .char)
    (hroom : s.rxSize < s.params.pktMax) :
    rxRun (escapeByte c) s =
      .next (s.stored (s.pkt.write s.rxSize c) (s.rxSize + 1) (s.rxCsum + checksum (escapeByte c))) := by
  unfold escapeByte
  split
  case isTrue =>
    have hescaped := rxStep_escaped (s := { s with rxCsum := s.rxCsum + 0x7D#8, rxState := .esc }) hd
      (escapeXor c) rfl hroom
    rw [rxRun_cons (rxStep_escape hd hst), rxRun_cons hescaped, escapeXor_escapeXor, rxRun]
    simp only [checksum, BitVec.add_zero, BitVec.add_assoc]
    rfl
  case isFalse hplain =>
    rw [rxRun_cons (rxStep_data hd hst (Bool.eq_false_of_not_eq_true hplain) hroom), rxRun, checksum, checksum,
      BitVec.add_zero]

/-- Writing right behind `len` bytes makes them one more. -/
theorem Memory.slice_write_succ (m : Memory) (len : Nat) (x : Byte) :
    (m.write len x).slice (len + 1) = m.slice len ++ [some x] := by
  have hkept := m.slice_write x (Nat.le_refl len)
  unfold Memory.slice at hkept ⊢
  rw [List.range_succ, List.map_append, hkept, List.map_singleton, Memory.read_write_same]

/-- The body of a packet received with room for its payload: the payload stands behind what the store held. -/
theorem rxRun_packetBody (p : List Byte) {s : State} (hd : s.dispatchPending = false) (hst : s.rxState = .char)
    (hroom : s.rxSize + p.length ≤ s.params.pktMax) :
    ∃ m, rxRun (packetBody p) s =
        .next (s.stored m (s.rxSize + p.length) (s.rxCsum + checksum (packetBody p))) ∧
      m.slice (s.rxSize + p.length) = s.pkt.slice s.rxSize ++ p.map some := by
  induction p generalizing s with
  | nil =>
    refine ⟨s.pkt, ?_, by simp⟩
    rw [packetBody, rxRun, checksum, BitVec.add_zero, State.stored, ← hst]
    rfl
  | cons c p ih =>
    rw [List.length_cons] at hroom
    obtain ⟨m, hrun, hslice⟩ :=
      ih (s := s.stored (s.pkt.write s.rxSize c) (s.rxSize + 1) (s.rxCsum + checksum (escapeByte c))) hd rfl
        (by simp only [State.stored]; omega)
    simp only [State.stored] at hslice
    have hlength : s.rxSize + 1 + p.length = s.rxSize + (c :: p).length := by rw [List.length_cons]; omega
    rw [hlength, Memory.slice_write_succ, List.append_assoc] at hslice
    refine ⟨m, ?_, hslice⟩
    rw [packetBody, rxRun_append (rxRun_escapeByte c hd hst (by omega)), hrun, checksum_append, ← BitVec.add_assoc,
      ← hlength]
    rfl

/-! ### The whole packet -/

/-- The state after an accepted frame whose `+` neither overflows nor forces a flush (R132). -/
def State.dispatched (s : State) : State :=
  { s with
    txq := s.txq.pushed s.params.txCap ackByte
    flushReq := true
    pkt := s.pkt.write s.rxSize 0x00#8
    rxState := .idle
    dispatchPending := true
    events := s.events ++ [.dispatch (s.pkt.slice s.rxSize) s.rxSize] }

section
variable {s : State} (hd : s.dispatchPending = false) (hsize : s.rxSize ≤ s.params.pktMax) (hl : s.linked = true)
  (hhead : s.txq.head < s.params.txCap) (hroom : s.txq.isFull s.params.txCap = false)
  (hbelow : (s.txq.pushed s.params.txCap ackByte).count s.params.txCap < s.params.txNearFull)
include hd hsize hl hhead hroom hbelow

theorem rxStep_good {b : Byte} (hst : s.rxState = .csum2) (hgood : csumOk s.rxC1 b s.rxCsum = true) :
    rxStep b s = .next s.dispatched := by
  rw [rxStep_of_row (State.rowFor_good hst hgood), exec_rxCsum2Good hd hst hgood hl,
    acceptFrame_of_linked_send (sendByte_room hhead hroom hbelow) hl hsize]
  rfl

/-- The end of a packet, received in `CHAR` with the checksum the digits spell (R125, R131, R132). -/
theorem rxRun_checksumDigits (hst : s.rxState = .char) :
    rxRun (0x23#8 :: hexPair s.rxCsum) s =
      .next (State.dispatched { s with rxC1 := hexDigit (s.rxCsum.toNat / 16), rxState := .csum2 }) := by
  have hfirst := rxStep_csum1 (s := { s with rxState := .csum1 }) hd (hexDigit (s.rxCsum.toNat / 16)) rfl
  have hsecond := rxStep_good (s := { s with rxC1 := hexDigit (s.rxCsum.toNat / 16), rxState := .csum2 })
    hd hsize hl hhead hroom hbelow rfl (csumOk_hexDigits s.rxCsum)
  rw [rxRun_cons (rxStep_end hd hst), hexPair, rxRun_cons hfirst, rxRun_cons hsecond, rxRun]

end

/-- Settles O58: the start empties the frame, the body stores the payload, the two digits spell the checksum received,
and accepting the frame writes the null behind the payload. -/
theorem encodedPacketRoundTrips : Obligations.EncodedPacketRoundTrips := by
  intro s p hsize hd hst hl hhead hroom hbelow
  obtain ⟨m, hbody, hslice⟩ := rxRun_packetBody p (s := startFrame s) hd rfl (by simpa using hsize)
  rw [startFrame_rxSize, startFrame_rxCsum, Nat.zero_add, BitVec.zero_add] at hbody
  have hpayload : m.slice p.length = p.map some := by simpa [Memory.slice] using hslice
  have hdigits := rxRun_checksumDigits (s := (startFrame s).stored m p.length (checksum (packetBody p)))
    hd hsize hl hhead hroom hbelow rfl
  have hrun : rxRun (packetBytes p) s = rxRun (0x23#8 :: hexPair (checksum (packetBody p)))
      ((startFrame s).stored m p.length (checksum (packetBody p))) := by
    rw [packetBytes, rxRun_cons (rxStep_start hd hst), rxRun_append hbody]
  refine ⟨_, hrun.trans hdigits, ?events, rfl, rfl, rfl, rfl, ?null⟩
  case events => exact congrArg (fun payload => s.events ++ [.dispatch payload p.length]) hpayload
  case null => exact (m.slice_write_succ p.length 0x00#8).trans (congrArg (· ++ [some 0x00#8]) hpayload)

end Sys2Proof.Machine
